-- ==== Sys2Proof/Word.lean ====
section
/-! DEFINITION. Word.lean: the word types of HUFFCORE (spec/00_scope.md rules R9, R12 and R13).
Bit vectors hold what the spec treats as bits (registers, bytes, fields); a code is a bit string, which the spec
writes as a sequence, so it is a list. -/

namespace Sys2Proof

/-- One byte: a symbol, an IN_MEM or OUT_MEM byte, an opcode (R18, R60). -/
abbrev Byte := BitVec 8

/-- One host register (REG_W = 32, R9). -/
abbrev Word := BitVec 32

/-- The 16-byte encoded code field of a header record, as one 128-bit value (R40, R97). -/
abbrev Field := BitVec 128

/-- A tree-node frequency (NFREQ_W = 40, R9). -/
abbrev NodeFreq := BitVec 40

/-- A code: a finite bit string in the order the tree walk makes it (R13). `true` is bit 1.
The pair (`len`, `bits`) of R39 is the list with its length; the empty list is (0, ε), "no code". -/
abbrev Code := List Bool

/-- A table indexed by one byte, sized for the full byte range (R38, R39, R41). -/
abbrev Table (α : Type) := Vector α 256

end Sys2Proof
end

