-- ==== Sys2Proof/Syntax.lean ====
section
/-! DEFINITION. Syntax.lean: the ten commands of HUFFCORE, one constructor for each row of spec/opcode_table.json
(spec/30_encoding.md rule R86). Operands are implicit (R88), so no constructor has an argument. -/

namespace Sys2Proof

/-- A command of the opcode map (R86). -/
inductive Instr where
  /-- ENCODE, word 0x00000001, R190 -/
  | encode
  /-- DECODE, word 0x00000002, R195 -/
  | decode
  /-- COUNT, word 0x00000010, R111 -/
  | count
  /-- BUILD_TREE, word 0x00000011, R115 -/
  | buildTree
  /-- GEN_CODES, word 0x00000012, R140 -/
  | genCodes
  /-- WRITE_HEADER, word 0x00000013, R150 -/
  | writeHeader
  /-- PACK, word 0x00000014, R170 -/
  | pack
  /-- READ_HEADER, word 0x00000020, R155 -/
  | readHeader
  /-- UNPACK, word 0x00000021, R178 -/
  | unpack
  /-- CLEAR, word 0x0000003F, R201 -/
  | clear
  deriving DecidableEq, Repr

end Sys2Proof
end

