-- ==== Sys2Proof/Decode.lean ====
section
/-! DEFINITION. Decode.lean: the decode function of spec/30_encoding.md rule R90, total on every 32-bit word, and the
encoder written from the same opcode map (R86). -/

namespace Sys2Proof

/-- Why a command word is illegal (R87). -/
inductive DecodeError where
  /-- bits [31:8] are not all 0 (R85, R87) -/
  | reservedBits
  /-- the opcode is not one of the ten values of R86 -/
  | unassignedOpcode
  deriving DecidableEq, Repr

/-- The opcode map of R86, on the field OPC. -/
def decodeOpcode (opc : Byte) : Except DecodeError Instr :=
  match opc.toNat with
  | 0x01 => .ok .encode
  | 0x02 => .ok .decode
  | 0x10 => .ok .count
  | 0x11 => .ok .buildTree
  | 0x12 => .ok .genCodes
  | 0x13 => .ok .writeHeader
  | 0x14 => .ok .pack
  | 0x20 => .ok .readHeader
  | 0x21 => .ok .unpack
  | 0x3F => .ok .clear
  | _ => .error .unassignedOpcode

/-- The reserved field, bits [31:8] of a command word (R85). -/
def reservedField (w : Word) : BitVec 24 := w.extractLsb' 8 24

/-- The field OPC, bits [7:0] of a command word (R85). -/
def opcodeField (w : Word) : Byte := w.extractLsb' 0 8

/-- The decode function of R90; `.error` is its ILLEGAL. -/
def decode (w : Word) : Except DecodeError Instr :=
  if reservedField w ≠ 0 then .error .reservedBits else decodeOpcode (opcodeField w)

/-- The opcode of a command, the column OPC of R86; also the stage number of a sub-command (R191, R195, R214). -/
def opcode : Instr → Byte
  | .encode => 0x01
  | .decode => 0x02
  | .count => 0x10
  | .buildTree => 0x11
  | .genCodes => 0x12
  | .writeHeader => 0x13
  | .pack => 0x14
  | .readHeader => 0x20
  | .unpack => 0x21
  | .clear => 0x3F

/-- The command word of a command: OPC in bits [7:0], bits [31:8] all 0 (R85, R86). -/
def encode (i : Instr) : Word := (opcode i).setWidth 32

/-- The word whose bits spec/opcode_table.json numbers as `w`, the bits above `nbits` being 0. A command is one 32-bit
word (R89), so bit n of `w` is bit n of the word. -/
def tableWord (nbits w : Nat) : Word := BitVec.ofNat 32 (w % 2 ^ nbits)

/-- The command the decoder reads from the table's word; a word with a bit above bit 31 is no command word (R89). -/
def decodeTableWord (nbits w : Nat) : Option Instr :=
  if w % 2 ^ nbits < 2 ^ 32 then (decode (tableWord nbits w)).toOption else none

end Sys2Proof
end

