-- ==== Sys2Proof/Config.lean ====
section
/-! DEFINITION. Config.lean: what an implementation fixes (spec/00_scope.md rules R9 and R10), and the free value of the
model: the unspecified byte of rules R64 and R186. -/

namespace Sys2Proof

/-- The open parameters of R10. A machine carries its parameters with it (`Machine.State.cfg`), no step changes them,
and every statement about all states holds for every value of them. The block does not depend on the last four (R10,
R79, R222). -/
structure Config where
  /-- IN_CAP: the size of IN_MEM in bytes, 1 to 2^32 − 1 -/
  inCap : Word
  /-- OUT_CAP: the size of OUT_MEM in bytes, 1 to 2^32 − 1 -/
  outCap : Word
  /-- REG_BASE: where the platform places the REG space -/
  regBase : Nat
  /-- IN_BASE: where the platform places the IN space -/
  inBase : Nat
  /-- OUT_BASE: where the platform places the OUT space -/
  outBase : Nat
  /-- IRQ_LINE: where the platform wires the `irq` output -/
  irqLine : Nat
  deriving DecidableEq, Repr

/-- The parameters the machine after power-on has in this model: IN_CAP = OUT_CAP = 4096, the value of decision D4.
DESIGN CHOICE, assumption log 1 (the spec leaves them open). -/
def Config.vectors : Config :=
  { inCap := 4096, outCap := 4096, regBase := 0, inBase := 0, outBase := 0, irqLine := 0 }

/-- The free value: the byte at an offset of a memory whose contents became unspecified at draw number `epoch`
(R53, R64, R186; 93_implementation_defined.md U1, U2: "any value", an independent draw for each byte).
It has no body: nothing can be proved of its value. Assumption log 3. -/
opaque Config.freeByte : (epoch : Nat) → (offset : Nat) → Byte

/-- MAXLEN: the longest code the header field can carry (R9, R96). -/
def maxCodeLen : Nat := 127

/-- FIELD_BYTES: bytes of one encoded code field (R9). -/
def fieldByteCount : Nat := 16

/-- REC_BYTES: bytes of one header record, 1 symbol byte and 16 field bytes (R9, R94). -/
def recordByteCount : Nat := 17

/-- The constant the ID register reads, "HUF1" (R22). -/
def idValue : Word := 0x48554631

end Sys2Proof
end

