-- ==== Sys2Proof/Machine/Bus.lean ====
section
/-! DEFINITION. Machine/Bus.lean: what the host can do to HUFFCORE, as data: the three address spaces and the host
accesses (spec/20_memory.md rules R60 to R70), the reset input (70_reset_and_hazards.md rule R240), and the host-program
notation (30_encoding.md rules R105 to R109). The accesses still to come stand in `State.inputs`, a list the step reads;
what they do is in Machine/HostPort.lean. -/

namespace Sys2Proof.Machine

/-- The width of a host access (R67, R68, R105). -/
inductive Width where
  | w8
  | w16
  | w32
  deriving DecidableEq, Repr

/-- An address space and an offset in it (R60). The REG space is 256 bytes (R61), so its offset is one byte. -/
inductive Place where
  | reg (offset : Byte)
  | inp (offset : Nat)
  | out (offset : Nat)
  deriving DecidableEq, Repr

/-- One host access (R66, R105): `R<w> <space>[<a>]` or `W<w> <space>[<a>], <value>`.
A write narrower than 32 bits carries its value in the low bits. -/
inductive Access where
  | read (w : Width) (p : Place)
  | write (w : Width) (p : Place) (v : Word)
  deriving DecidableEq, Repr

/-- One line of what the outside world does. -/
inductive HostOp where
  /-- one host access (R105) -/
  | access (a : Access)
  /-- `W8 IN[a], <the byte last read>`: the second half of each round of COPYOUT (R108) -/
  | writeBack (offset : Nat)
  /-- WAIT: read STATUS, repeat while BUSY is 1 (R107) -/
  | wait
  /-- COPYOUT (R108) -/
  | copyOut
  /-- the reset input is asserted (R240); not a host access -/
  | hardReset
  deriving DecidableEq, Repr

/-- The two agents (R7). The reset input lands in the host's turns. -/
inductive Agent where
  | engine
  | host
  deriving DecidableEq, Repr

end Sys2Proof.Machine
end

