-- ==== Sys2Proof/Machine/State.lean ====
section
/-! DEFINITION. Machine/State.lean: the state of HUFFCORE (spec/10_state.md rule R20), as plain data, the reset state
(R52, R241), and the closed lists of what can go wrong: command errors (60_exceptions.md rule R211), which are a way a
command COMPLETES, and the model's own faults and refusals. -/

namespace Sys2Proof.Machine

/-- An entry of the encoder tree's node store (R42). -/
inductive Node where
  | leaf (sym : Byte) (freq : NodeFreq)
  | internal (freq : NodeFreq) (left : Nat) (right : Option Nat)
  deriving DecidableEq, Repr

/-- A byte memory (R60): the bytes written since its contents last became unspecified, and the number of that draw.
An offset with no cell holds the unspecified byte `Config.freeByte epoch offset` (R53, R64). Assumption log 3 and 4. -/
structure Memory where
  epoch : Nat
  cells : List Host.Cell
  deriving DecidableEq, Repr

/-- The canonical form of a memory: offsets strictly rising, so no offset has two cells. An offset with no cell reads as
"unwritten", which no cell can say, so equal contents are equal data (Laws/Memory.lean, `Memory.ext_of_find`). -/
abbrev Memory.wf (m : Memory) : Prop := (m.cells.map Prod.fst).Pairwise (· < ·)

/-- The errors of R211, which end a command with an error completion (R214). -/
inductive CmdErr where
  | emptyInput
  | malformedHeader
  | corruptPayload
  | truncatedInput
  | illegalCmd
  | sequence
  | length
  | outOverflow
  | codeTooLong
  | noCode
  deriving DecidableEq, Repr

/-- The state of HUFFCORE (R20). Fields `cfg` to `outMem` are the spec's; the last four are the model's own. -/
structure State where
  /-- the parameters of R10, which no step changes; registers IN_CAP and OUT_CAP read two of them (R50) -/
  cfg : Config
  /-- CMD, the last command word latched (R23) -/
  cmd : Word
  /-- STATUS.BUSY, the engine phase (R21, R25) -/
  busy : Bool
  /-- STATUS.DONE (R26) -/
  done : Bool
  /-- STATUS.ERR (R27) -/
  err : Bool
  /-- STATUS.ACCERR (R28) -/
  accErr : Bool
  /-- STATUS.ERRCODE (R30) -/
  errCode : Byte
  /-- STATUS.FV: FREQ valid (R31) -/
  fv : Bool
  /-- STATUS.TV: encoder tree valid (R31) -/
  tv : Bool
  /-- STATUS.CV: CODE table valid (R31) -/
  cv : Bool
  /-- STATUS.HV: header read (R31) -/
  hv : Bool
  /-- IRQ_EN.IE (R33) -/
  ie : Bool
  /-- IN_LEN (R34) -/
  inLen : Word
  /-- OUT_LEN (R35) -/
  outLen : Word
  /-- HDR_LEN (R36) -/
  hdrLen : Word
  /-- N_SYM, bits [8:0] (R36) -/
  nSym : BitVec 9
  /-- MAX_LEN, bits [7:0] (R36) -/
  maxLen : Byte
  /-- PAD, bits [2:0] (R36) -/
  pad : BitVec 3
  /-- ERR_INFO.SUBCODE (R37) -/
  errSub : Byte
  /-- ERR_INFO.STAGE (R37) -/
  errStage : Byte
  /-- ERR_ADDR (R37) -/
  errAddr : Word
  /-- TBL_IDX, bits [7:0] (R46) -/
  tblIdx : Byte
  /-- FREQ[0..255] (R38) -/
  freq : Table Word
  /-- CODE[0..255] (R39) -/
  code : Table Code
  /-- ORDER[0..255] (R41) -/
  order : Table Byte
  /-- NODE: the entries BUILD_TREE wrote, by index (R42); an index past the list is undefined (R44; assumption
  log 11) -/
  node : List Node
  /-- ROOT, or NONE (R43) -/
  root : Option Nat
  /-- IN_MEM (R60, R62) -/
  inMem : Memory
  /-- OUT_MEM (R60, R63) -/
  outMem : Memory
  /-- the model's own: how many draws of unspecified memory contents have been made (assumption log 3) -/
  draws : Nat
  /-- the model's own: what the outside world will do, in order (R66; assumption log 5) -/
  inputs : List HostOp
  /-- the model's own: which agent moves in the coming steps (R220, R253; assumption log 6) -/
  turns : List Agent
  /-- the model's own: the value the last host read returned (R70, R71; assumption log 7) -/
  rdata : Word
  deriving DecidableEq, Repr

/-- Why the machine could stop with a fault: no constructor. HUFFCORE "raises no trap" (R210), every error is a
completion (R214), and "No item of HUFFCORE is stuck" (93_implementation_defined.md), so no step faults (assumption log 17). -/
inductive Fault where
  deriving DecidableEq, Repr

/-- Why the model could have no meaning for a command. -/
inductive Refusal where
  /-- raised by `exec` alone, for a command whose meaning is not written yet; safe. No arm raises it now. -/
  | notModelled (mnemonic : String)
  deriving DecidableEq, Repr

/-- What the body of a sub-command's rule does: `complete`, or `raise E(sub, addr)` with the state that carries the
effects the rule gives for that error (R15, R213, R214). -/
inductive BodyResult where
  | completes (s : State)
  | raises (s : State) (e : CmdErr) (sub : Byte) (addr : Word)
  deriving DecidableEq, Repr

/-- The state after power-on and reset with the parameters `cfg` (R52, R241): every register at its reset value, every
table cleared, ROOT = NONE, NODE undefined, both memories unspecified. -/
def State.powerOn (cfg : Config) : State :=
  { cfg := cfg, cmd := 0, busy := false, done := false, err := false, accErr := false, errCode := 0,
    fv := false, tv := false, cv := false, hv := false, ie := false,
    inLen := 0, outLen := 0, hdrLen := 0, nSym := 0, maxLen := 0, pad := 0,
    errSub := 0, errStage := 0, errAddr := 0, tblIdx := 0,
    freq := Vector.replicate 256 0, code := Vector.replicate 256 [], order := Vector.replicate 256 0,
    node := [], root := none,
    inMem := { epoch := 0, cells := [] }, outMem := { epoch := 1, cells := [] },
    draws := 2, inputs := [], turns := [], rdata := 0 }

/-- The machine right after reset (R241), with IN_CAP = OUT_CAP = 4096 (decision D4; assumption log 1). -/
def State.reset : State := State.powerOn Config.vectors

end Sys2Proof.Machine
end

