-- ==== Sys2Proof/Machine/Flags.lean ====
section
/-! DEFINITION. Machine/Flags.lean: the status flags. The error codes (spec/60_exceptions.md rule R211), the `irq`
output (R222), the words STATUS, IRQ_EN and ERR_INFO as the host reads them (10_state.md rules R24, R33, R37), the
write-one-to-clear rule (R32) and the valid-flag writes (44_codec_control.md rule R205). HUFFCORE has no arithmetic
condition codes (R54). -/

namespace Sys2Proof.Machine

/-- The code written to STATUS.ERRCODE (R211). -/
def CmdErr.code : CmdErr → Byte
  | .emptyInput => 1
  | .malformedHeader => 2
  | .corruptPayload => 3
  | .truncatedInput => 4
  | .illegalCmd => 5
  | .sequence => 6
  | .length => 7
  | .outOverflow => 8
  | .codeTooLong => 9
  | .noCode => 10

/-- The interrupt output: the level DONE AND IE (R29, R222), computed and not stored (assumption log 19). -/
def State.irq (s : State) : Bool := s.done && s.ie

/-- One flag as a word with the flag at bit `n`. -/
def flagBit (b : Bool) (n : Nat) : Word := if b then (1 : Word) <<< n else 0

/-- STATUS as the host reads it (R24): bits [7:5] and [31:20] read 0. -/
def State.statusWord (s : State) : Word :=
  flagBit s.busy 0 ||| flagBit s.done 1 ||| flagBit s.err 2 ||| flagBit s.accErr 3 ||| flagBit s.irq 4 |||
    (s.errCode.setWidth 32 <<< 8) ||| flagBit s.fv 16 ||| flagBit s.tv 17 ||| flagBit s.cv 18 ||| flagBit s.hv 19

/-- ERR_INFO as the host reads it (R37): SUBCODE in bits [7:0], STAGE in bits [15:8]. -/
def State.errInfoWord (s : State) : Word := s.errSub.setWidth 32 ||| (s.errStage.setWidth 32 <<< 8)

/-- A host write of `v` to STATUS (R32): bits 1, 2 and 3 clear DONE, ERR and ACCERR. -/
def State.statusWrite (s : State) (v : Word) : State :=
  { s with
    done := s.done && !v.getLsbD 1
    err := s.err && !v.getLsbD 2
    accErr := s.accErr && !v.getLsbD 3 }

/-- FREQ has a new table: FV ← 1, TV ← 0, CV ← 0, HV ← 0 (COUNT and a FREQ_DATA host write, R205). -/
def State.freqFlags (s : State) : State := { s with fv := true, tv := false, cv := false, hv := false }

/-- The tree is new: TV ← 1, CV ← 0, HV ← 0 (BUILD_TREE, R205). -/
def State.treeFlags (s : State) : State := { s with tv := true, cv := false, hv := false }

/-- CODE is new, from the tree: CV ← 1, HV ← 0 (GEN_CODES, R205). -/
def State.codeFlags (s : State) : State := { s with cv := true, hv := false }

/-- CODE is new, from a header: TV ← 0, CV ← 1, HV ← 1 (READ_HEADER, R205). -/
def State.headerFlags (s : State) : State := { s with tv := false, cv := true, hv := true }

/-- No table is valid (CLEAR, R205). -/
def State.clearFlags (s : State) : State := { s with fv := false, tv := false, cv := false, hv := false }

end Sys2Proof.Machine
end

