-- ==== Sys2Proof/Machine/Ops.lean ====
section
/-! DEFINITION. Machine/Ops.lean: the named operations over memory, tables and registers, and the ONE place where a
command is issued, completes, and completes with an error (spec/60_exceptions.md rules R212 to R214). An error
completion is the whole of HUFFCORE's "trap entry" (R214); there is no return from it (R223). -/

namespace Sys2Proof.Machine

/-- Put a byte into a list of cells, keeping the offsets rising. -/
def putCell (a : Nat) (v : Byte) : List Host.Cell → List Host.Cell
  | [] => [(a, v)]
  | (b, w) :: r =>
    if a < b then (a, v) :: (b, w) :: r
    else if a = b then (a, v) :: r
    else (b, w) :: putCell a v r

/-- The byte written at an offset, if one was written since the contents were last unspecified. -/
def Memory.find (m : Memory) (a : Nat) : Option Byte := m.cells.lookup a

/-- One byte of a memory (R72): the byte written there, else the draw of R64. -/
def Memory.read (m : Memory) (a : Nat) : Byte := (m.find a).getD (Config.freeByte m.epoch a)

/-- Write one byte (R70, R73). -/
def Memory.write (m : Memory) (a : Nat) (v : Byte) : Memory := { m with cells := putCell a v m.cells }

/-- Write bytes at rising offsets from `a`, one byte each (R73, R74). -/
def Memory.writeBytes (m : Memory) (a : Nat) : List Byte → Memory
  | [] => m
  | b :: bs => (m.write a b).writeBytes (a + 1) bs

/-- A memory whose every byte is unspecified, from draw number `epoch` on (R64, R186). -/
def Memory.unspecified (epoch : Nat) : Memory := { epoch := epoch, cells := [] }

/-- Read a table at a byte index (R38, R39, R41). -/
def tblGet {α : Type} (t : Table α) (x : Byte) : α := t[x.toNat]'x.isLt

/-- Write a table at a byte index. -/
def tblSet {α : Type} (t : Table α) (x : Byte) (v : α) : Table α := t.set x.toNat v x.isLt

/-- The 256 symbols in ascending order (NSYM, R9). -/
def allSymbols : List Byte := (List.range 256).map (BitVec.ofNat 8)

/-- The table with the given entries. -/
def tblOf {α : Type} (f : Byte → α) : Table α := ⟨⟨allSymbols.map f⟩, by simp [allSymbols]⟩

/-- The entries of a table with their symbols, in ascending symbol order. -/
def tblEntries {α : Type} (t : Table α) : List (Byte × α) := allSymbols.zip t.toList

/-- ORDER as a command writes it: the list, then 0 in every further entry (R41). -/
def orderTable (xs : List Byte) : Table Byte := tblOf fun k => xs.getD k.toNat 0

/-- Command issue (R212): latch the word, go BUSY, clear DONE, ERR and the error report. -/
def State.issue (s : State) (w : Word) : State :=
  { s with
    cmd := w, busy := true, done := false, err := false, errCode := 0, errSub := 0, errStage := 0, errAddr := 0 }

/-- Successful completion (R213): BUSY ← 0, DONE ← 1. ERR and the report stay as issue left them (assumption log 14). -/
def State.complete (s : State) : State := { s with busy := false, done := true }

/-- Error completion (R214). -/
def State.errorComplete (s : State) (e : CmdErr) (sub stage : Byte) (addr : Word) : State :=
  { s with
    errCode := e.code, errSub := sub, errStage := stage, errAddr := addr, err := true, busy := false, done := true }

/-- A sub-command on its own: its body, then the completion of R213 or R214 with its own opcode as the stage. -/
def runSingle (i : Instr) (body : State → BodyResult) (s : State) : Host.Outcome State Fault Refusal :=
  match body s with
  | .completes t => .next t.complete
  | .raises t e sub addr => .next (t.errorComplete e sub (opcode i) addr)

/-- A composite command (R190, R195): the bodies of its steps in order, each `complete` going on to the next step;
at the first error OUT_LEN ← 0 and an error completion with the failing step as the stage (R191, R192, R196). -/
def runStages : List (Instr × (State → BodyResult)) → State → Host.Outcome State Fault Refusal
  | [], s => .next s.complete
  | (i, body) :: rest, s =>
    match body s with
    | .completes t => runStages rest t
    | .raises t e sub addr => .next ({ t with outLen := 0 }.errorComplete e sub (opcode i) addr)

end Sys2Proof.Machine
end

