-- ==== Sys2Proof/Machine/Operands.lean ====
section
/-! DEFINITION. Machine/Operands.lean: the implicit operands of the commands (spec/30_encoding.md rules R88 and R91) and
the formats they are read and written in: the input bytes (20_memory.md rule R72), the 16-byte code field (R40, R97,
R98), the count byte and the records of a header (R93, R94), and the payload bits (R76, R100, R103). -/

namespace Sys2Proof.Machine

/-- `MemRead(IN, a)` (R72). -/
def State.inByte (s : State) (a : Nat) : Byte := s.inMem.read a

/-- The input sequence: IN_MEM[0..IN_LEN), the byte at offset i being byte i (R34, R75). -/
def State.inputBytes (s : State) : List Byte := (List.range s.inLen.toNat).map s.inByte

/-- `val(c)`: the number whose binary numeral, most significant digit first, is c (R13). -/
def codeVal (c : Code) : Nat := c.foldl (fun v b => 2 * v + b.toNat) 0

/-- The field of a code: 2^len + val(bits), and 0 for "no code" (R40, R97). A code has at most 127 bits (R39;
assumption log 20). -/
def fieldOf (c : Code) : Field := if c = [] then 0 else BitVec.ofNat 128 (2 ^ c.length + codeVal c)

/-- Byte j of a field, F[127−8j : 120−8j] (R97). -/
def fieldByte (F : Field) (j : Nat) : Byte := F.extractLsb' (120 - 8 * j) 8

/-- The 16 bytes of a field, most significant first (R77, R97). -/
def fieldBytes (F : Field) : List Byte := (List.range fieldByteCount).map (fieldByte F)

/-- The 128-bit big-endian value of the 16 bytes at offset a (R98, R155). -/
def fieldFrom (rd : Nat → Byte) (a : Nat) : Field :=
  BitVec.ofNat 128 ((List.range fieldByteCount).foldl (fun v j => 256 * v + (rd (a + j)).toNat) 0)

/-- The code of a field with a stop bit: L = ⌊log2 F⌋ bits, c[i] = F[L−1−i] (R98). -/
def codeOfField (F : Field) : Code :=
  (List.range (Nat.log2 F.toNat)).map fun i => F.getLsbD (Nat.log2 F.toNat - 1 - i)

/-- The header length H = 1 + 17·N (R95). -/
def headerLen (n : Nat) : Nat := 1 + recordByteCount * n

/-- The count byte, N mod 256 (R93). -/
def countByte (n : Nat) : Byte := BitVec.ofNat 8 n

/-- The number of records a count byte names: 0 means 256 (R93). -/
def countOf (c : Byte) : Nat := if c = 0 then 256 else c.toNat

/-- One header record: the symbol byte, then its field (R94). -/
def recordBytes (x : Byte) (c : Code) : List Byte := x :: fieldBytes (fieldOf c)

/-- ORDER[k]; an index past the table, which no run reaches (N_SYM ≤ 256, R36), reads 0
(assumption log 12). -/
def orderAt (order : Table Byte) (k : Nat) : Byte := order.toList.getD k 0

/-- The header bytes of a code table: the count byte, then N records in ORDER (R92 to R94, R150). -/
def headerBytes (n : Nat) (order : Table Byte) (code : Table Code) : List Byte :=
  countByte n :: (List.range n).flatMap fun k => recordBytes (orderAt order k) (tblGet code (orderAt order k))

/-- The longest code length of a table (MAX_LEN, R36). -/
def longestCode (code : Table Code) : Nat := code.toList.foldl (fun m c => max m c.length) 0

/-- Payload bytes of T bits: ⌈T/8⌉ (R100). -/
def payloadLen (bits : List Bool) : Nat := (bits.length + 7) / 8

/-- The padding-bit count, 8P − T (R101). -/
def padCount (bits : List Bool) : Nat := 8 * payloadLen bits - bits.length

/-- Payload byte k: stream bit 8k + t at bit 7 − t, and 0 past the last data bit (R76, R100, R170). -/
def payloadByte (bits : List Bool) (k : Nat) : Byte :=
  BitVec.ofNat 8 ((List.range 8).foldl (fun v t => 2 * v + (bits.getD (8 * k + t) false).toNat) 0)

/-- The payload bytes of a bit stream (R100). -/
def payloadBytes (bits : List Bool) : List Byte := (List.range (payloadLen bits)).map (payloadByte bits)

/-- Data bit j of the stream whose payload starts at offset h: bit 7 − (j mod 8) of the byte at h + ⌊j/8⌋ (R103). -/
def payloadBit (rd : Nat → Byte) (h j : Nat) : Bool := (rd (h + j / 8)).getLsbD (7 - j % 8)

end Sys2Proof.Machine
end

