-- ==== Sys2Proof/Machine/BitPacker.lean ====
section
/-! DEFINITION. Machine/BitPacker.lean: the family of spec/43_bit_packer.md: PACK (rule R170) and UNPACK (rule R178). -/

namespace Sys2Proof.Machine

/-- The bit stream S of R170 for input bytes that start at offset `i`: the codes in input order, or the first offset
whose symbol has no code (R173). -/
def gatherBits (code : Table Code) : Nat → List Byte → Except Nat (List Bool)
  | _, [] => .ok []
  | i, x :: xs =>
    if tblGet code x = [] then .error i
    else
      match gatherBits code (i + 1) xs with
      | .error j => .error j
      | .ok bits => .ok (tblGet code x ++ bits)

/-- The body of PACK (R170): the whole length is known before the first byte is written (R172). -/
def packBody (s : State) : BodyResult :=
  if s.cv = false then .raises s .sequence 3 0
  else if s.cfg.inCap.toNat < s.inLen.toNat then .raises s .length 0 0
  else if s.inLen.toNat = 0 then .raises s .emptyInput 0 0
  else
    match gatherBits s.code 0 s.inputBytes with
    | .error i => .raises s .noCode 0 (BitVec.ofNat 32 i)
    | .ok bits =>
      if s.cfg.outCap.toNat < s.outLen.toNat + payloadLen bits + 1 then .raises s .outOverflow 0 0
      else
        .completes
          { s with
            outMem :=
              s.outMem.writeBytes s.outLen.toNat (payloadBytes bits ++ [BitVec.ofNat 8 (padCount bits)])
            outLen := BitVec.ofNat 32 (s.outLen.toNat + payloadLen bits + 1)
            pad := BitVec.ofNat 3 (padCount bits) }

/-- A symbol whose code is `p` (R182); at most one in a prefix-free table (assumption log 13). -/
def symbolOf (code : Table Code) (p : Code) : Option Byte :=
  (code.toList.findIdx? fun c => !c.isEmpty && c == p).map (BitVec.ofNat 8)

/-- `p` is a proper prefix of some code (R182). -/
def startsCode (code : Table Code) (p : Code) : Bool :=
  code.toList.any fun c => !c.isEmpty && p.isPrefixOf c && p != c

/-- How the walk of UNPACK ends: the symbols emitted, or an error (R182 to R185). -/
inductive WalkEnd where
  | emitted (out : List Byte)
  | failed (e : CmdErr) (sub : Byte) (addr : Nat)
  deriving DecidableEq, Repr

/-- The walk of R178 and R182 over `n` data bits from bit `j` on, with the partial code `p` and the symbols `out` so far.
`bit j` is data bit j and `addrOf j` the offset of the byte that holds it. -/
def unpackWalk (code : Table Code) (cap : Nat) (bit : Nat → Bool) (addrOf : Nat → Nat) :
    Nat → Nat → Code → List Byte → WalkEnd
  | 0, j, p, out => if p = [] then .emitted out else .failed .corruptPayload 4 (addrOf (j - 1))
  | n + 1, j, p, out =>
    match symbolOf code (p ++ [bit j]) with
    | some x =>
      if out.length = cap then .failed .outOverflow 0 (addrOf j)
      else unpackWalk code cap bit addrOf n (j + 1) [] (out ++ [x])
    | none =>
      if startsCode code (p ++ [bit j]) then unpackWalk code cap bit addrOf n (j + 1) (p ++ [bit j]) out
      else .failed .corruptPayload 3 (addrOf j)

/-- The effects of an UNPACK error found during or at the end of the walk (R186): OUT_LEN ← 0, PAD unchanged, every byte
of OUT_MEM unspecified (a new draw, assumption log 3). -/
def State.dropOutput (s : State) : State :=
  { s with outLen := 0, outMem := Memory.unspecified s.draws, draws := s.draws + 1 }

/-- The body of UNPACK (R178). -/
def unpackBody (s : State) : BodyResult :=
  if s.hv = false then .raises s .sequence 4 0
  else if s.cfg.inCap.toNat < s.inLen.toNat then .raises s .length 0 0
  else
    let h := s.hdrLen.toNat
    if s.inLen.toNat < h + 1 then .raises s .truncatedInput 3 s.inLen
    else
      let pad := (s.inByte (s.inLen.toNat - 1)).toNat
      if 7 < pad then .raises s .corruptPayload 1 (BitVec.ofNat 32 (s.inLen.toNat - 1))
      else
        let p := s.inLen.toNat - h - 1
        if p = 0 then .raises s .corruptPayload 2 s.hdrLen
        else
          match unpackWalk s.code s.cfg.outCap.toNat (payloadBit s.inByte h) (fun j => h + j / 8) (8 * p - pad) 0 [] []
          with
          | .failed e sub a => .raises s.dropOutput e sub (BitVec.ofNat 32 a)
          | .emitted out =>
            .completes
              { s with
                outMem := s.outMem.writeBytes 0 out
                outLen := BitVec.ofNat 32 out.length
                pad := BitVec.ofNat 3 pad }

/-- PACK (R170). -/
def execPack (s : State) : Host.Outcome State Fault Refusal := runSingle .pack packBody s

/-- UNPACK (R178). -/
def execUnpack (s : State) : Host.Outcome State Fault Refusal := runSingle .unpack unpackBody s

end Sys2Proof.Machine
end

