-- ==== Sys2Proof/Machine/CountTree.lean ====
section
/-! DEFINITION. Machine/CountTree.lean: the family of spec/40_count_and_tree.md: COUNT (rule R111) and BUILD_TREE
(rule R115). -/

namespace Sys2Proof.Machine

/-- The frequency table of a byte sequence: for each symbol the number of its occurrences (R111). It fits 32 bits (R112). -/
def countTable (bs : List Byte) : Table Word := tblOf fun x => BitVec.ofNat 32 (bs.count x)

/-- The body of COUNT (R111). -/
def countBody (s : State) : BodyResult :=
  if s.cfg.inCap.toNat < s.inLen.toNat then .raises s .length 0 0
  else .completes { s with freq := countTable s.inputBytes }.freqFlags

/-- The frequency of a node (R42). -/
def nodeFreq : Node → NodeFreq
  | .leaf _ f => f
  | .internal f _ _ => f

/-- The symbol of a leaf (R42); an internal node has none. -/
def nodeSym : Node → Option Byte
  | .leaf x _ => some x
  | .internal _ _ _ => none

/-- One leaf for each symbol of positive frequency, in ascending symbol order: NODE[0..n−1] (R115, R117). -/
def leavesOf (freq : Table Word) : List Node :=
  ((tblEntries freq).filter fun e => e.2 != 0).map fun e => .leaf e.1 (e.2.setWidth 40)

/-- A priority key (NODE[i].freq, i) (R119). -/
abbrev Key := Nat × Nat

/-- The key order: by frequency, then by index (R119). -/
def keyLt (a b : Key) : Bool := a.1 < b.1 || (a.1 == b.1 && a.2 < b.2)

/-- Insert into the min-priority structure, which is held as a list in ascending key order, so that its head is the
argmin (R120; its organisation is not observable, 93_implementation_defined.md S2). -/
def insertKey (k : Key) : List Key → List Key
  | [] => [k]
  | h :: t => if keyLt k h then k :: h :: t else h :: insertKey k t

/-- The keys of a list of nodes whose first index is `i`. -/
def keysFrom : Nat → List Node → List Key
  | _, [] => []
  | i, n :: ns => ((nodeFreq n).toNat, i) :: keysFrom (i + 1) ns

/-- The leaf indices sorted by key ascending, with their keys: the list L of R115, which also seeds Q. -/
def sortedKeys (leaves : List Node) : List Key := (keysFrom 0 leaves).foldr insertKey []

/-- The combining loop of R115, R121 and R122, on the queue and the node store; the count bounds its rounds.
It answers the node store and the single element left in the queue. -/
def combine : Nat → List Key → List Node → List Node × Option Nat
  | n + 1, a :: b :: q, ns =>
    let f : NodeFreq := BitVec.ofNat 40 (a.1 + b.1)
    combine n (insertKey (f.toNat, ns.length) q) (ns ++ [.internal f a.2 (some b.2)])
  | _, q, ns => (ns, q.head?.map Prod.snd)

/-- NODE and ROOT for a list of leaves (R115): one leaf gets the internal root of R124, more leaves are combined. -/
def treeOf (leaves : List Node) : List Node × Option Nat :=
  match leaves with
  | [l] => ([l, .internal (nodeFreq l) 0 none], some 1)
  | _ => combine leaves.length (sortedKeys leaves) leaves

/-- The symbols of the leaves in ascending key order (R118). -/
def leafOrder (leaves : List Node) : List Byte :=
  (sortedKeys leaves).filterMap fun k => leaves[k.2]?.bind nodeSym

/-- The body of BUILD_TREE (R115). -/
def buildTreeBody (s : State) : BodyResult :=
  if s.fv = false then .raises s .sequence 1 0
  else if leavesOf s.freq = [] then .raises s .emptyInput 0 0
  else
    .completes
      { s with
        node := (treeOf (leavesOf s.freq)).1
        root := (treeOf (leavesOf s.freq)).2
        order := orderTable (leafOrder (leavesOf s.freq))
        nSym := BitVec.ofNat 9 (leavesOf s.freq).length }.treeFlags

/-- COUNT (R111). -/
def execCount (s : State) : Host.Outcome State Fault Refusal := runSingle .count countBody s

/-- BUILD_TREE (R115). -/
def execBuildTree (s : State) : Host.Outcome State Fault Refusal := runSingle .buildTree buildTreeBody s

end Sys2Proof.Machine
end

