-- ==== Sys2Proof/Machine/CodeTable.lean ====
section
/-! DEFINITION. Machine/CodeTable.lean: the family of spec/41_code_table.md: GEN_CODES (rule R140). -/

namespace Sys2Proof.Machine

/-- The walk of R140 and R141 from node `i` with path `p`: every leaf it reaches, with its path string.
The count bounds the depth; an index with no node, which no run reaches, ends the walk (assumption log 9). -/
def walk (ns : List Node) : Nat → Nat → Code → List (Byte × Code)
  | 0, _, _ => []
  | n + 1, i, p =>
    match ns[i]? with
    | none => []
    | some (.leaf x _) => [(x, p)]
    | some (.internal _ l r) =>
      walk ns n l (p ++ [false]) ++
        match r with
        | none => []
        | some r => walk ns n r (p ++ [true])

/-- The table with the given entries, (0, ε) elsewhere (R144, R162). -/
def codeTableOf (es : List (Byte × Code)) : Table Code :=
  es.foldl (fun t e => tblSet t e.1 e.2) (Vector.replicate 256 [])

/-- The scratch table C of R140 for a tree. -/
def treeCodes (ns : List Node) (root : Option Nat) : Table Code :=
  match root with
  | none => codeTableOf []
  | some r => codeTableOf (walk ns ns.length r [])

/-- The smallest symbol whose code is longer than MAXLEN (R143). -/
def tooLongSymbol (c : Table Code) : Option Byte :=
  ((tblEntries c).find? fun e => maxCodeLen < e.2.length).map Prod.fst

/-- The body of GEN_CODES (R140). -/
def genCodesBody (s : State) : BodyResult :=
  if s.tv = false then .raises s .sequence 2 0
  else
    match tooLongSymbol (treeCodes s.node s.root) with
    | some x => .raises s .codeTooLong 0 (x.setWidth 32)
    | none =>
      .completes
        { s with
          code := treeCodes s.node s.root
          maxLen := BitVec.ofNat 8 (longestCode (treeCodes s.node s.root)) }.codeFlags

/-- GEN_CODES (R140). -/
def execGenCodes (s : State) : Host.Outcome State Fault Refusal := runSingle .genCodes genCodesBody s

end Sys2Proof.Machine
end

