-- ==== Sys2Proof/Machine/Header.lean ====
section
/-! DEFINITION. Machine/Header.lean: the family of spec/42_header_codec.md: WRITE_HEADER (rule R150) and READ_HEADER
(rule R155). -/

namespace Sys2Proof.Machine

/-- The body of WRITE_HEADER (R150): the whole header is checked to fit before its first byte is written (R151). -/
def writeHeaderBody (s : State) : BodyResult :=
  if s.cv = false then .raises s .sequence 3 0
  else if s.cfg.outCap.toNat < headerLen s.nSym.toNat then .raises s .outOverflow 0 0
  else
    .completes
      { s with
        outMem := s.outMem.writeBytes 0 (headerBytes s.nSym.toNat s.order s.code)
        outLen := BitVec.ofNat 32 (headerLen s.nSym.toNat)
        hdrLen := BitVec.ofNat 32 (headerLen s.nSym.toNat) }

/-- One code is a prefix of the other, or they are equal (R13, R160). -/
def prefixClash (c d : Code) : Bool := c.isPrefixOf d || d.isPrefixOf c

/-- The record loop of R155 over `n` records from record `k` on, the accepted ones in `acc`: the records, or the
sub-code of MALFORMED_HEADER and the offset of the failing record's symbol byte (R157 to R160). -/
def readRecords (rd : Nat → Byte) : Nat → Nat → List (Byte × Code) → Except (Byte × Nat) (List (Byte × Code))
  | 0, _, acc => .ok acc
  | n + 1, k, acc =>
    let a := 1 + recordByteCount * k
    let x := rd a
    let F := fieldFrom rd (a + 1)
    let c := codeOfField F
    if F = 0 then .error (1, a)
    else if c = [] then .error (2, a)
    else if acc.any (fun r => r.1 == x) then .error (3, a)
    else if acc.any (fun r => prefixClash r.2 c) then .error (4, a)
    else readRecords rd n (k + 1) (acc ++ [(x, c)])

/-- The body of READ_HEADER (R155): no table, flag or register is written before every check passed (R162, R164). -/
def readHeaderBody (s : State) : BodyResult :=
  if s.cfg.inCap.toNat < s.inLen.toNat then .raises s .length 0 0
  else if s.inLen.toNat < 1 then .raises s .truncatedInput 1 0
  else
    let n := countOf (s.inByte 0)
    if s.inLen.toNat < headerLen n then .raises s .truncatedInput 2 s.inLen
    else
      match readRecords s.inByte n 0 [] with
      | .error (sub, a) => .raises s .malformedHeader sub (BitVec.ofNat 32 a)
      | .ok rs =>
        .completes
          { s with
            code := codeTableOf rs
            order := orderTable (rs.map Prod.fst)
            nSym := BitVec.ofNat 9 n
            hdrLen := BitVec.ofNat 32 (headerLen n)
            maxLen := BitVec.ofNat 8 (longestCode (codeTableOf rs)) }.headerFlags

/-- WRITE_HEADER (R150). -/
def execWriteHeader (s : State) : Host.Outcome State Fault Refusal := runSingle .writeHeader writeHeaderBody s

/-- READ_HEADER (R155). -/
def execReadHeader (s : State) : Host.Outcome State Fault Refusal := runSingle .readHeader readHeaderBody s

end Sys2Proof.Machine
end

