-- ==== Sys2Proof/Machine/Control.lean ====
section
/-! DEFINITION. Machine/Control.lean: the family of spec/44_codec_control.md: ENCODE (rule R190), DECODE (R195), CLEAR
(R201), and what an illegal command word does (R204). -/

namespace Sys2Proof.Machine

/-- ENCODE (R190): COUNT, BUILD_TREE, GEN_CODES, WRITE_HEADER, PACK. -/
def execEncode (s : State) : Host.Outcome State Fault Refusal :=
  runStages
    [(.count, countBody), (.buildTree, buildTreeBody), (.genCodes, genCodesBody), (.writeHeader, writeHeaderBody),
      (.pack, packBody)] s

/-- DECODE (R195): READ_HEADER, UNPACK. -/
def execDecode (s : State) : Host.Outcome State Fault Refusal :=
  runStages [(.readHeader, readHeaderBody), (.unpack, unpackBody)] s

/-- The soft reset of R201: every register but CMD, STATUS and IRQ_EN, and every table, at its reset value; ACCERR and
the valid flags cleared; IN_MEM and OUT_MEM kept. NODE is undefined afterwards (R44). -/
def State.softReset (s : State) : State :=
  { s with
    inLen := 0, outLen := 0, hdrLen := 0, nSym := 0, maxLen := 0, pad := 0,
    errSub := 0, errStage := 0, errAddr := 0, tblIdx := 0,
    freq := Vector.replicate 256 0, code := Vector.replicate 256 [], order := Vector.replicate 256 0,
    node := [], root := none, accErr := false }.clearFlags

/-- CLEAR (R201): always succeeds. -/
def execClear (s : State) : Host.Outcome State Fault Refusal := .next s.softReset.complete

/-- An illegal command word (R204): ILLEGAL_CMD with ERR_INFO.STAGE = CMD[7:0], nothing else changes. -/
def execIllegal (s : State) : Host.Outcome State Fault Refusal :=
  .next (s.errorComplete .illegalCmd 0 (opcodeField s.cmd) 0)

end Sys2Proof.Machine
end

