-- ==== Sys2Proof/Machine/Dispatch.lean ====
section
/-! DEFINITION. Machine/Dispatch.lean: one arm for each command, each a direct call of its meaning. -/

namespace Sys2Proof.Machine

def exec (i : Instr) (s : State) : Host.Outcome State Fault Refusal :=
  match i with
  | .encode => Sys2Proof.Machine.execEncode s
  | .decode => Sys2Proof.Machine.execDecode s
  | .count => Sys2Proof.Machine.execCount s
  | .buildTree => Sys2Proof.Machine.execBuildTree s
  | .genCodes => Sys2Proof.Machine.execGenCodes s
  | .writeHeader => Sys2Proof.Machine.execWriteHeader s
  | .pack => Sys2Proof.Machine.execPack s
  | .readHeader => Sys2Proof.Machine.execReadHeader s
  | .unpack => Sys2Proof.Machine.execUnpack s
  | .clear => Sys2Proof.Machine.execClear s

end Sys2Proof.Machine
end

