-- ==== Sys2Proof/Machine/HostPort.lean ====
section
/-! DEFINITION. Machine/HostPort.lean: the host's side: the register map (spec/10_state.md rules R22 to R51), the host
accesses and their refusals (20_memory.md rules R66 to R71, 70_reset_and_hazards.md rule R248), the reset input (R240),
and the host-program notation (30_encoding.md rules R105 to R109). -/

namespace Sys2Proof.Machine

/-- A 32-bit read of the register at a REG offset that is a multiple of 4 (10_state.md section 2). -/
def State.regRead (s : State) (off : Byte) : Word :=
  match off.toNat with
  | 0x00 => idValue
  | 0x04 => s.cmd
  | 0x08 => s.statusWord
  | 0x0C => flagBit s.ie 0
  | 0x10 => s.inLen
  | 0x14 => s.outLen
  | 0x18 => s.hdrLen
  | 0x1C => s.nSym.setWidth 32
  | 0x20 => s.maxLen.setWidth 32
  | 0x24 => s.pad.setWidth 32
  | 0x28 => s.errInfoWord
  | 0x2C => s.errAddr
  | 0x30 => s.tblIdx.setWidth 32
  | 0x34 => tblGet s.freq s.tblIdx
  | 0x38 => BitVec.ofNat 32 (tblGet s.code s.tblIdx).length
  | 0x3C => (fieldOf (tblGet s.code s.tblIdx)).extractLsb' 96 32
  | 0x40 => (fieldOf (tblGet s.code s.tblIdx)).extractLsb' 64 32
  | 0x44 => (fieldOf (tblGet s.code s.tblIdx)).extractLsb' 32 32
  | 0x48 => (fieldOf (tblGet s.code s.tblIdx)).extractLsb' 0 32
  | 0x4C => (tblGet s.order s.tblIdx).setWidth 32 ||| flagBit (decide (s.tblIdx.toNat < s.nSym.toNat)) 8
  | 0x50 => s.cfg.inCap
  | 0x54 => s.cfg.outCap
  | _ => 0

/-- An accepted 32-bit write of the register at a REG offset. RO registers and reserved offsets ignore it (R51). -/
def State.regWrite (s : State) (off : Byte) (v : Word) : State :=
  match off.toNat with
  | 0x04 => s.issue v
  | 0x08 => s.statusWrite v
  | 0x0C => { s with ie := v.getLsbD 0 }
  | 0x10 => { s with inLen := v }
  | 0x14 => { s with outLen := v }
  | 0x30 => { s with tblIdx := v.setWidth 8 }
  | 0x34 => { s with freq := tblSet s.freq s.tblIdx v }.freqFlags
  | _ => s

/-- The access has a form R67 to R69 do not refuse: 32 bits and aligned in REG, 8 bits and inside the capacity in IN and
OUT, and no write to OUT. -/
def formAllowed (cfg : Config) : Access → Bool
  | .read w (.reg off) => w == .w32 && off.toNat % 4 == 0
  | .write w (.reg off) _ => w == .w32 && off.toNat % 4 == 0
  | .read w (.inp a) => w == .w8 && decide (a < cfg.inCap.toNat)
  | .write w (.inp a) _ => w == .w8 && decide (a < cfg.inCap.toNat)
  | .read w (.out a) => w == .w8 && decide (a < cfg.outCap.toNat)
  | .write _ (.out _) _ => false

/-- The accesses R248 accepts while BUSY: a read of ID, a read or write of STATUS, a read or write of IRQ_EN.
A reserved offset and a write of ID are refused like every other access (DEDUCED, assumption log 10). -/
def busyAllowed : Access → Bool
  | .read _ (.reg off) => off == 0x00 || off == 0x08 || off == 0x0C
  | .write _ (.reg off) _ => off == 0x08 || off == 0x0C
  | _ => false

/-- The access is accepted (R67 to R70, R248). -/
def State.accepts (s : State) (a : Access) : Bool := formAllowed s.cfg a && (!s.busy || busyAllowed a)

/-- The value an accepted read returns (R70). -/
def State.readValue (s : State) : Place → Word
  | .reg off => s.regRead off
  | .inp a => (s.inMem.read a).setWidth 32
  | .out a => (s.outMem.read a).setWidth 32

/-- The effect of an accepted write (R70, R71). OUT has none: a host write to it is never accepted (R69). -/
def State.writeValue (s : State) (v : Word) : Place → State
  | .reg off => s.regWrite off v
  | .inp a => { s with inMem := s.inMem.write a (v.setWidth 8) }
  | .out _ => s

/-- One host access. A refused one changes nothing but ACCERR ← 1, and a refused read returns 0 (R67 to R70, R248). -/
def State.hostAccess (s : State) (a : Access) : State :=
  match a with
  | .read _ p => if s.accepts a then { s with rdata := s.readValue p } else { s with accErr := true, rdata := 0 }
  | .write _ p v => if s.accepts a then s.writeValue v p else { s with accErr := true }

/-- The reset input (R240, R241): the running command is aborted, every register, flag and table takes its reset value,
and both memories become unspecified (new draws). What the outside world does next is not the block's (assumption log 15). -/
def State.hardReset (s : State) : State :=
  { State.powerOn s.cfg with
    inMem := Memory.unspecified s.draws
    outMem := Memory.unspecified (s.draws + 1)
    draws := s.draws + 2
    inputs := s.inputs
    turns := s.turns
    rdata := s.rdata }

/-- `W32 <reg>, <value>` (R105). -/
def w32 (off : Byte) (v : Word) : HostOp := .access (.write .w32 (.reg off) v)

/-- `R32 <reg>` (R105). -/
def r32 (off : Byte) : HostOp := .access (.read .w32 (.reg off))

/-- `W8 IN[a], <value>` (R105). -/
def w8in (a : Nat) (v : Byte) : HostOp := .access (.write .w8 (.inp a) (v.setWidth 32))

/-- `ISSUE 0x<hex>` (R106). -/
def issueWord (w : Word) : HostOp := w32 0x04 w

/-- `ISSUE <mnemonic>` (R106). -/
def issueInstr (i : Instr) : HostOp := issueWord (encode i)

/-- `LOADIN b0 b1 ...` with the bytes at offsets from `a` on, then the write of IN_LEN (R108). -/
def loadInFrom (a : Nat) : List Byte → List HostOp
  | [] => [w32 0x10 (BitVec.ofNat 32 a)]
  | b :: bs => w8in a b :: loadInFrom (a + 1) bs

/-- `LOADIN b0 b1 ...` (R108). -/
def loadIn (bs : List Byte) : List HostOp := loadInFrom 0 bs

/-- `COPYOUT` when OUT_LEN is `n` (R108). -/
def copyOutOps (n : Word) : List HostOp :=
  ((List.range n.toNat).flatMap fun i => [.access (.read .w8 (.out i)), .writeBack i]) ++ [w32 0x10 n]

/-- `SETFREQ s, v` (R109). -/
def setFreq (x : Byte) (v : Word) : List HostOp := [w32 0x30 (x.setWidth 32), w32 0x34 v]

/-- `READCODE s` (R109). -/
def readCode (x : Byte) : List HostOp :=
  [w32 0x30 (x.setWidth 32), r32 0x38, r32 0x3C, r32 0x40, r32 0x44, r32 0x48]

/-- The host's turn, or the reset input's (R66, R107, R108, R240): the first pending line. WAIT reads STATUS and stays
pending while the value read has BUSY = 1; COPYOUT is replaced by its expansion. With nothing pending nothing happens. -/
def State.hostTurn (s : State) : State :=
  match s.inputs with
  | [] => s
  | .access a :: rest => { s with inputs := rest }.hostAccess a
  | .writeBack i :: rest => { s with inputs := rest }.hostAccess (.write .w8 (.inp i) s.rdata)
  | .wait :: rest =>
    if s.busy then s.hostAccess (.read .w32 (.reg 0x08))
    else { s with inputs := rest }.hostAccess (.read .w32 (.reg 0x08))
  | .copyOut :: rest => { s with inputs := copyOutOps s.outLen ++ rest }
  | .hardReset :: rest => { s with inputs := rest }.hardReset

end Sys2Proof.Machine
end

