-- ==== Sys2Proof/Machine/Schedule.lean ====
section
/-! DEFINITION. Machine/Schedule.lean: whose move it is (spec/00_scope.md rules R7 and R8, 60_exceptions.md rule R220,
70_reset_and_hazards.md rule R253), the engine's move, and how a word is placed for the engine to run. -/

namespace Sys2Proof.Machine

/-- The engine's turn: while BUSY it runs the latched command as one atomic transition (R8, R84, R90); while IDLE it
waits (R231, R242). `run` is the meaning of a legal command. -/
def engineTurn (run : Instr → State → Host.Outcome State Fault Refusal) (s : State) :
    Host.Outcome State Fault Refusal :=
  if s.busy then
    match decode s.cmd with
    | .ok i => run i s
    | .error _ => execIllegal s
  else .next s

/-- One step. `turns` says who moves; when it says nothing a BUSY engine moves, so a command completes after a finite
delay (R253), and otherwise the host does. -/
def stepWith (run : Instr → State → Host.Outcome State Fault Refusal) (s : State) : Host.Outcome State Fault Refusal :=
  match s.turns with
  | .engine :: ts => engineTurn run { s with turns := ts }
  | .host :: ts => .next { s with turns := ts }.hostTurn
  | [] => if s.busy then engineTurn run s else .next s.hostTurn

/-- Whose turns come after a command was placed for the engine: the engine is next. -/
def engineNext : List Agent → List Agent
  | [] => []
  | ts => .engine :: ts

/-- The state after the command word `w` has been issued (R212), with the engine to move next. -/
def State.placeWord (s : State) (w : Word) : State := { s with turns := engineNext s.turns }.issue w

end Sys2Proof.Machine
end

