-- ==== Sys2Proof/Machine/Step.lean ====
section
/-! DEFINITION. Machine/Step.lean: one step of the machine, and the placing of a command word where the step takes its
next command (spec/20_memory.md rule R84: the engine fetches no instructions; the command is the word latched in CMD). -/

namespace Sys2Proof.Machine

/-- One step: a host access, a reset, or a whole command (R8, R66). -/
def step (s : State) : Host.Outcome State Fault Refusal := stepWith exec s

/-- The state in which the table's word `w` has been accepted as a CMD write and the engine moves next, so that the very
next step runs it. Assumption log 8. -/
def State.withFetchWord (s : State) (nbits w : Nat) : State := s.placeWord (tableWord nbits w)

end Sys2Proof.Machine
end

