-- ==== Sys2Proof/WellFormed.lean ====
section
/-! DEFINITION. WellFormed.lean: the checks on terms that come from outside the machine.
A command has no operand (spec/30_encoding.md rule R88), so every term of `Instr` is well formed; what can be ill formed
is a command WORD (R85, R86) and the parameters (R10). The forms of a host access are checked where they are
performed (Machine/HostPort.lean, R67 to R70), because a refused access has an effect. -/

namespace Sys2Proof

/-- Every command is well formed: there are no register numbers, no immediates, no modifiers (R85, R88). -/
def Instr.wellFormed (_ : Instr) : Bool := true

/-- Check 1 of a command word: bits [31:8] are reserved and must be 0 (R85). -/
def reservedBitsClear (w : Word) : Bool := w.toNat < 256

/-- The ten opcodes of R86. -/
def assignedOpcodes : List Byte := [0x01, 0x02, 0x10, 0x11, 0x12, 0x13, 0x14, 0x20, 0x21, 0x3F]

/-- Check 2 of a command word: its low byte is one of the ten opcodes (R86, R87). -/
def opcodeAssigned (w : Word) : Bool := assignedOpcodes.contains (w.setWidth 8)

/-- A command word that R87 does not call illegal. -/
def wordWellFormed (w : Word) : Bool := reservedBitsClear w && opcodeAssigned w

/-- The legal parameter values: 1 ≤ CAP ≤ 2^32 − 1 (R10). The upper bound is the width of the field. -/
def Config.wellFormed (c : Config) : Bool := decide (1 ≤ c.inCap.toNat) && decide (1 ≤ c.outCap.toNat)

end Sys2Proof
end

