-- ==== Sys2Proof/Safety.lean ====
section
/-! DEFINITION. Safety.lean: the terms the statements use: what a good state is (the invariants of spec/10_state.md
section 7 and of the memories), what the tree, the code table and the stream of the spec are, said without the
algorithms that make them. -/

namespace Sys2Proof.Machine

/-! ### The tree (R56, R116, R119, R121) -/

/-- The frequency of node `i` as a number; an index with no node counts as 0. -/
def freqAt (ns : List Node) (i : Nat) : Nat := ((ns[i]?).map nodeFreq).elim 0 BitVec.toNat

/-- The children of a node, left before right (R42). -/
def childrenOf : Node → List Nat
  | .leaf _ _ => []
  | .internal _ l none => [l]
  | .internal _ l (some r) => [l, r]

/-- All child edges of a node store, by parent index. -/
def childEdges (ns : List Node) : List Nat := ns.flatMap childrenOf

/-- Node `i` is an internal node as R56 asks, with children of lower index (R116) and the sum of their frequencies;
only the root of a one-symbol tree has no right child (R124). -/
def internalOk (ns : List Node) (n i : Nat) : Bool :=
  match ns[i]? with
  | some (.internal f l (some r)) =>
    decide (2 ≤ n) && decide (l < i) && decide (r < i) && decide (f.toNat = freqAt ns l + freqAt ns r)
  | some (.internal f l none) => decide (n = 1) && decide (l = 0) && decide (f.toNat = freqAt ns 0)
  | _ => false

/-- The symbols of the first `n` nodes. -/
def leafSymbols (ns : List Node) (n : Nat) : List Byte := (ns.take n).filterMap nodeSym

/-- The first `n` entries of ORDER. -/
def orderList (order : Table Byte) (n : Nat) : List Byte := (List.range n).map (orderAt order)

/-- What TV = 1 promises of NODE, ROOT, ORDER and N_SYM (R31, R56, R116): `n` leaves in ascending symbol order, then the
internal nodes, ROOT the last of them, every other node the child of exactly one node, and ORDER a listing of the leaves. -/
abbrev TreeOk (ns : List Node) (root : Option Nat) (order : Table Byte) (n : Nat) : Prop :=
  1 ≤ n ∧ n ≤ 256 ∧ ns.length = (if n = 1 then 2 else 2 * n - 1) ∧ root = some (ns.length - 1) ∧
  (leafSymbols ns n).length = n ∧ (leafSymbols ns n).Pairwise (fun x y => x.toNat < y.toNat) ∧
  (∀ i, i < ns.length → n ≤ i → internalOk ns n i = true) ∧
  (childEdges ns).Perm (List.range (ns.length - 1)) ∧
  (orderList order n).Perm (leafSymbols ns n)

/-- Node `i` waits in the priority structure when node `k` is created: it exists, and no node before `k` took it as a
child (R120, R121). -/
def waitsAt (ns : List Node) (k i : Nat) : Prop := i < k ∧ i ∉ childEdges (ns.take k)

/-- The key of node `i` (R119). -/
def keyAt (ns : List Node) (i : Nat) : Key := (freqAt ns i, i)

/-- Every combine step takes the two least keys of the waiting nodes, the least as the left child (R119, R121). -/
def GreedyTree (ns : List Node) : Prop :=
  ∀ k f l r, ns[k]? = some (.internal f l (some r)) →
    waitsAt ns k l ∧ waitsAt ns k r ∧ l ≠ r ∧
      (∀ i, waitsAt ns k i → i = l ∨ keyLt (keyAt ns l) (keyAt ns i) = true) ∧
      (∀ i, waitsAt ns k i → i = l ∨ i = r ∨ keyLt (keyAt ns r) (keyAt ns i) = true)

/-- `p` is the path string from node `i` to the leaf of symbol `x`: left edges append 0, right edges 1 (R141). -/
inductive PathTo (ns : List Node) : Nat → Code → Byte → Prop where
  | here (i : Nat) (x : Byte) (f : NodeFreq) : ns[i]? = some (.leaf x f) → PathTo ns i [] x
  | left (i : Nat) (f : NodeFreq) (l : Nat) (r : Option Nat) (p : Code) (x : Byte) :
      ns[i]? = some (.internal f l r) → PathTo ns l p x → PathTo ns i (false :: p) x
  | right (i : Nat) (f : NodeFreq) (l r : Nat) (p : Code) (x : Byte) :
      ns[i]? = some (.internal f l (some r)) → PathTo ns r p x → PathTo ns i (true :: p) x

/-! ### The code table (R55) -/

/-- No code is a prefix of another (R55, R147). -/
def PrefixFree (code : Table Code) : Prop :=
  ∀ x y : Byte, x ≠ y → tblGet code x ≠ [] → tblGet code y ≠ [] → ¬ tblGet code x <+: tblGet code y

/-- What CV = 1 promises of CODE, ORDER and N_SYM (R55): exactly the first N_SYM symbols of ORDER, all distinct, have a code,
and the set of codes is prefix-free. The rest of R55 (no code above 127 bits, MAX_LEN the largest) is in `RegistersOk`. -/
def CodeOk (code : Table Code) (order : Table Byte) (n : Nat) : Prop :=
  1 ≤ n ∧ n ≤ 256 ∧ (orderList order n).Nodup ∧
    (∀ x : Byte, tblGet code x ≠ [] ↔ x ∈ orderList order n) ∧ PrefixFree code

/-! ### The invariants -/

/-- R57, R58 and X8: HV = 1 implies CV = 1; TV = 1 implies FV = 1; while BUSY, DONE, ERR and the error report are 0;
ERRCODE is one of the codes 0 to 10. -/
abbrev FlagsOk (s : State) : Prop :=
  (s.hv = true → s.cv = true) ∧ (s.tv = true → s.fv = true) ∧
  (s.busy = true → s.done = false ∧ s.err = false ∧ s.errCode = 0 ∧ s.errSub = 0 ∧ s.errStage = 0 ∧ s.errAddr = 0) ∧
  s.errCode.toNat ≤ 10

/-- The memories: the parameters are legal (R10), both memories are in canonical form and inside their capacity (R60, R73),
and they belong to two different draws already made (R64). -/
abbrev MemoriesOk (s : State) : Prop :=
  s.cfg.wellFormed = true ∧ s.inMem.wf ∧ s.outMem.wf ∧
  (∀ c ∈ s.inMem.cells, c.1 < s.cfg.inCap.toNat) ∧ (∀ c ∈ s.outMem.cells, c.1 < s.cfg.outCap.toNat) ∧
  s.inMem.epoch < s.draws ∧ s.outMem.epoch < s.draws ∧ s.inMem.epoch ≠ s.outMem.epoch

/-- The result registers (R36, R39, R41): N_SYM ≤ 256, ORDER is 0 from N_SYM on, no code is longer than 127 bits, MAX_LEN
is the longest code length, and with HV = 1 HDR_LEN is the length of the header read (R31). -/
abbrev RegistersOk (s : State) : Prop :=
  s.nSym.toNat ≤ 256 ∧ (∀ k, k < 256 → s.nSym.toNat ≤ k → orderAt s.order k = 0) ∧
  longestCode s.code ≤ maxCodeLen ∧ s.maxLen.toNat = longestCode s.code ∧
  (s.hv = true → s.hdrLen.toNat = headerLen s.nSym.toNat)

/-- R55 and R56: a valid flag vouches for its tables. -/
def TablesOk (s : State) : Prop :=
  (s.tv = true → TreeOk s.node s.root s.order s.nSym.toNat) ∧ (s.cv = true → CodeOk s.code s.order s.nSym.toNat)

/-! ### The stream (R92 to R103) -/

/-- The code bits of a symbol sequence, in order: the stream S of R100. -/
def bitsOf (code : Table Code) (xs : List Byte) : List Bool := xs.flatMap (tblGet code)

/-- The header bytes of a list of records (R92 to R94). -/
def serialize (rs : List (Byte × Code)) : List Byte :=
  countByte rs.length :: rs.flatMap fun r => recordBytes r.1 r.2

/-- Records READ_HEADER accepts one after the other (R155): distinct symbols, codes of 1 to 127 bits, none a prefix of
another. -/
abbrev RecordsOk (rs : List (Byte × Code)) : Prop :=
  (rs.map Prod.fst).Nodup ∧ (∀ r ∈ rs, 1 ≤ r.2.length ∧ r.2.length ≤ maxCodeLen) ∧
  rs.Pairwise (fun r q => prefixClash r.2 q.2 = false)

/-- The bytes of a memory at the offsets from `a` on are `bs`. -/
abbrev Memory.holds (m : Memory) (a : Nat) (bs : List Byte) : Prop :=
  ∀ i, i < bs.length → m.read (a + i) = bs.getD i 0

/-- The first `d` data bits of the payload at offset `h` of IN_MEM (R103). -/
def dataBits (s : State) (h d : Nat) : List Bool := (List.range d).map (payloadBit s.inByte h)

/-- The codes the encoder builds for a byte sequence: COUNT, BUILD_TREE and GEN_CODES on it (R190). -/
def codesFor (xs : List Byte) : Table Code :=
  treeCodes (treeOf (leavesOf (countTable xs))).1 (treeOf (leavesOf (countTable xs))).2

/-- The symbols with a positive frequency (R38), in ascending order. -/
def presentSymbols (freq : Table Word) : List Byte := allSymbols.filter fun x => tblGet freq x != 0

/-- The sum of all frequencies, W of R128. -/
def totalFreq (freq : Table Word) : Nat := (allSymbols.map fun x => (tblGet freq x).toNat).sum

/-! ### Runs -/

/-- The state with an error completion of the given report (R214). -/
def failed (s : State) (code sub stage : Byte) (addr : Word) : State :=
  { s with
    errCode := code, errSub := sub, errStage := stage, errAddr := addr, err := true, busy := false, done := true }

/-- The state with other platform parameters (R10, R79, R222). -/
def withPlatform (rb ib ob il : Nat) (s : State) : State :=
  { s with cfg := { s.cfg with regBase := rb, inBase := ib, outBase := ob, irqLine := il } }

/-- A host access that R67, R68 or R69 refuses whatever the engine does. -/
def badForm (cfg : Config) : Access → Prop
  | .read w (.reg off) => w ≠ .w32 ∨ off.toNat % 4 ≠ 0
  | .write w (.reg off) _ => w ≠ .w32 ∨ off.toNat % 4 ≠ 0
  | .read w (.inp a) => w ≠ .w8 ∨ cfg.inCap.toNat ≤ a
  | .write w (.inp a) _ => w ≠ .w8 ∨ cfg.inCap.toNat ≤ a
  | .read w (.out a) => w ≠ .w8 ∨ cfg.outCap.toNat ≤ a
  | .write _ (.out _) _ => True

/-- The five accesses R248 accepts while BUSY. -/
def allowedWhileBusy : Access → Prop
  | .read .w32 (.reg off) => off = 0x00 ∨ off = 0x08 ∨ off = 0x0C
  | .write .w32 (.reg off) _ => off = 0x08 ∨ off = 0x0C
  | _ => False

/-- What a refused access does (R67 to R70, R248): ACCERR ← 1, and a read returns 0. -/
def refusedBy (a : Access) (s : State) : State :=
  match a with
  | .read _ _ => { s with accErr := true, rdata := 0 }
  | .write _ _ _ => { s with accErr := true }

end Sys2Proof.Machine
end

