-- ==== Sys2Proof/Certificates/Slice0/Obligations.lean ====
section
/-! DEFINITION. Obligations.lean: the statements about the model. Each docstring names the rule of spec/ it formalises.
A statement of what a command does gives its whole next state: every field not named in the record is unchanged. -/

open Sys2Proof Sys2Proof.Machine

/-! ### Encoding -/

/-- R86: the ten words of the opcode map, and some illegal words of R87. -/
def Obligations.OpcodeMapWords : Prop :=
  decode 0x00000001 = .ok .encode ∧ decode 0x00000002 = .ok .decode ∧ decode 0x00000010 = .ok .count ∧
  decode 0x00000011 = .ok .buildTree ∧ decode 0x00000012 = .ok .genCodes ∧ decode 0x00000013 = .ok .writeHeader ∧
  decode 0x00000014 = .ok .pack ∧ decode 0x00000020 = .ok .readHeader ∧ decode 0x00000021 = .ok .unpack ∧
  decode 0x0000003F = .ok .clear ∧
  decode 0x00000000 = .error .unassignedOpcode ∧ decode 0x00000003 = .error .unassignedOpcode ∧
  decode 0x00000110 = .error .reservedBits ∧ decode 0x80000001 = .error .reservedBits

/-- R86, R87, R90: over all 2^32 words, a word decodes to a command exactly when it is that command's word, and the legal
words are exactly those with bits [31:8] = 0 and one of the ten opcodes. -/
def Obligations.DecodeInvertsEncodeOnAllWords : Prop :=
  ∀ w : Word,
    (∀ i, decode w = .ok i ↔ w = encode i) ∧
    ((∃ i, decode w = .ok i) ↔ w.toNat < 256 ∧
      w.toNat ∈ [0x01, 0x02, 0x10, 0x11, 0x12, 0x13, 0x14, 0x20, 0x21, 0x3F])

/-- R93, R97, R98, R40: the header's encodings round-trip. The count byte names every N from 1 to 256 and every byte names
one. The field of a code of 1 to 127 bits has its zero bits, its stop bit and its code bits where R97 puts them (b[i] is the
i-th most significant bit), its bytes carry them most significant first, and reading it gives the code back; reading any
field but 0 finds the stop bit as R98 says. -/
def Obligations.HeaderEncodingsRoundTrip : Prop :=
  (∀ n, 1 ≤ n → n ≤ 256 → (countByte n).toNat = n % 256 ∧ countOf (countByte n) = n) ∧
  (∀ c : Byte, 1 ≤ countOf c ∧ countOf c ≤ 256 ∧ countByte (countOf c) = c) ∧
  fieldOf [] = 0 ∧
  (∀ c : Code, 1 ≤ c.length → c.length ≤ 127 →
    (fieldOf c).toNat = 2 ^ c.length + codeVal c ∧
    (∀ i, i < 127 - c.length → (fieldOf c).getMsbD i = false) ∧
    (fieldOf c).getMsbD (127 - c.length) = true ∧
    (∀ i, i < c.length → (fieldOf c).getMsbD (128 - c.length + i) = c.getD i false) ∧
    (∀ j k, j < 16 → k < 8 → ((fieldBytes (fieldOf c)).getD j 0).getMsbD k = (fieldOf c).getMsbD (8 * j + k)) ∧
    codeOfField (fieldOf c) = c) ∧
  (∀ F : Field, F ≠ 0 →
    (codeOfField F).length = Nat.log2 F.toNat ∧ Nat.log2 F.toNat ≤ 127 ∧ F.getLsbD (Nat.log2 F.toNat) = true ∧
    (∀ i, Nat.log2 F.toNat < i → F.getLsbD i = false) ∧
    (∀ i, i < Nat.log2 F.toNat → (codeOfField F).getD i false = F.getLsbD (Nat.log2 F.toNat - 1 - i)) ∧
    (F ≠ 1 → fieldOf (codeOfField F) = F))

/-! ### The step -/

/-- R8, R84, R231, R242 with the model's own schedule (assumption log 6): on the engine's turn a BUSY engine runs the
latched command and an IDLE engine waits; with no turn given a BUSY engine moves, and otherwise the host does. A word
placed by `withFetchWord` is run by the very next step. -/
def Obligations.StepRunsTheDecodedCommand : Prop :=
  (∀ (s : State) (i : Instr), s.busy = true → decode s.cmd = .ok i → s.turns = [] → step s = exec i s) ∧
  (∀ (s : State) (i : Instr) (ts : List Agent), s.busy = true → decode s.cmd = .ok i → s.turns = .engine :: ts →
    step s = exec i { s with turns := ts }) ∧
  (∀ (s : State) (ts : List Agent), s.busy = false → s.turns = .engine :: ts → step s = .next { s with turns := ts }) ∧
  (∀ (s : State) (ts : List Agent), s.turns = .host :: ts → step s = .next { s with turns := ts }.hostTurn) ∧
  (∀ s : State, s.busy = false → s.turns = [] → step s = .next s.hostTurn) ∧
  (∀ (s : State) (w : Nat) (i : Instr), decodeTableWord 32 w = some i →
    step (s.withFetchWord 32 w) = exec i (s.issue (BitVec.ofNat 32 (w % 2 ^ 32))))

/-- R87, R204: an illegal word completes with ILLEGAL_CMD, STAGE = CMD[7:0], SUBCODE = 0 and ERR_ADDR = 0, and no other
state changes: just after the CMD write, and in every BUSY state whose CMD holds an illegal word (whatever host turns came
since), on the engine's turn or with no turn given (the schedule is the model's, assumption log 6). -/
def Obligations.IllegalWordCompletesWithError : Prop :=
  (∀ (s : State) (w : Word), s.busy = false → s.turns = [] →
    (256 ≤ w.toNat ∨ w.toNat ∉ [0x01, 0x02, 0x10, 0x11, 0x12, 0x13, 0x14, 0x20, 0x21, 0x3F]) →
    step (s.hostAccess (.write .w32 (.reg 0x04) w)) =
      .next { s with
        cmd := w, busy := false, done := true, err := true, errCode := 5, errSub := 0,
        errStage := w.setWidth 8, errAddr := 0 }) ∧
  ∀ s : State, s.busy = true →
    (256 ≤ s.cmd.toNat ∨ s.cmd.toNat ∉ [0x01, 0x02, 0x10, 0x11, 0x12, 0x13, 0x14, 0x20, 0x21, 0x3F]) →
    (s.turns = [] → step s = .next (failed s 5 0 (s.cmd.setWidth 8) 0)) ∧
    ∀ ts : List Agent, s.turns = .engine :: ts →
      step s = .next (failed { s with turns := ts } 5 0 (s.cmd.setWidth 8) 0)

/-- R253 (a BUSY engine eventually completes), over every schedule of the model: within one step more than the given
turns the engine is IDLE. -/
def Obligations.BusyEngineBecomesIdle : Prop :=
  ∀ s : State, s.busy = true → ∃ k t, k ≤ s.turns.length + 1 ∧ Sys2Proof.core.run k s = .next t ∧ t.busy = false

/-! ### Reset, issue and completion -/

/-- R241: the reset state. -/
def Obligations.ResetStateValues : Prop :=
  State.reset.statusWord = 0 ∧ State.reset.irq = false ∧ State.reset.ie = false ∧ State.reset.cmd = 0 ∧
  State.reset.inLen = 0 ∧ State.reset.outLen = 0 ∧ State.reset.hdrLen = 0 ∧ State.reset.nSym = 0 ∧
  State.reset.maxLen = 0 ∧ State.reset.pad = 0 ∧ State.reset.errInfoWord = 0 ∧ State.reset.errAddr = 0 ∧
  State.reset.tblIdx = 0 ∧ State.reset.regRead 0x00 = 0x48554631 ∧
  State.reset.regRead 0x50 = State.reset.cfg.inCap ∧ State.reset.regRead 0x54 = State.reset.cfg.outCap ∧
  (∀ x : Byte, tblGet State.reset.freq x = 0 ∧ tblGet State.reset.code x = [] ∧ tblGet State.reset.order x = 0) ∧
  State.reset.root = none

/-- R240, R241, R52, R64: the reset input, IDLE or BUSY, gives the reset value of every register, flag and table, and
every byte of both memories becomes an unspecified byte of a new draw; no completion is signalled. -/
def Obligations.HardResetFromAnyState : Prop :=
  ∀ (s : State) (rest : List HostOp), s.inputs = .hardReset :: rest →
    ∃ t, s.hostTurn = t ∧ t = { State.powerOn s.cfg with
        inMem := t.inMem, outMem := t.outMem, draws := t.draws, inputs := rest, turns := s.turns, rdata := s.rdata } ∧
      t.statusWord = 0 ∧ t.irq = false ∧
      (∀ off : Byte, 0x04 ≤ off.toNat → off.toNat ≠ 0x50 → off.toNat ≠ 0x54 → t.regRead off = 0) ∧
      s.draws ≤ t.inMem.epoch ∧ t.inMem.epoch < t.outMem.epoch ∧ t.outMem.epoch < t.draws ∧
      (∀ a, t.inMem.read a = Config.freeByte t.inMem.epoch a ∧ t.outMem.read a = Config.freeByte t.outMem.epoch a)

/-- R212: command issue, with no change of any other register; and on its next turn the engine runs decode(w). -/
def Obligations.CommandIssue : Prop :=
  ∀ (s : State) (w : Word), s.busy = false →
    s.hostAccess (.write .w32 (.reg 0x04) w) =
      { s with
        cmd := w, busy := true, done := false, err := false, errCode := 0, errSub := 0, errStage := 0, errAddr := 0 } ∧
    (s.hostAccess (.write .w32 (.reg 0x04) w)).irq = false ∧
    ∀ (i : Instr) (ts : List Agent), decode w = .ok i →
      step { s.hostAccess (.write .w32 (.reg 0x04) w) with turns := .engine :: ts } =
        exec i { s.hostAccess (.write .w32 (.reg 0x04) w) with turns := ts }

/-- R213, R214, R222 (a command ends IDLE with DONE = 1, and then `irq` is IE), R210 and 93_implementation_defined.md ("No
item of HUFFCORE is stuck"): every command completes, and every step answers a next state. -/
def Obligations.EveryCommandCompletes : Prop :=
  (∀ (i : Instr) (s : State), ∃ t, exec i s = .next t ∧ t.busy = false ∧ t.done = true ∧ t.irq = s.ie) ∧
  (∀ s : State, ∃ t, step s = .next t)

/-- R62, R34, R33, R23, R212: no command changes the parameters, CMD, IRQ_EN or IN_MEM, and none but CLEAR changes IN_LEN,
TBL_IDX or ACCERR. -/
def Obligations.CommandsKeepTheHostSide : Prop :=
  ∀ (i : Instr) (s t : State), exec i s = .next t →
    t.cfg = s.cfg ∧ t.cmd = s.cmd ∧ t.ie = s.ie ∧ t.inMem = s.inMem ∧ t.inputs = s.inputs ∧ t.turns = s.turns ∧
      t.rdata = s.rdata ∧ (i ≠ .clear → t.inLen = s.inLen ∧ t.tblIdx = s.tblIdx ∧ t.accErr = s.accErr)

/-! ### The host's accesses -/

/-- R248: while BUSY only a read of ID, a read or write of STATUS, and a read or write of IRQ_EN are accepted; every other
access changes nothing but ACCERR ← 1, and a read returns 0. For the reserved offsets 0x58 to 0xFC and for a write of ID this
is the model's reading (DEDUCED, assumption log 10): R51 and R22 could be read otherwise. -/
def Obligations.BusyAccessRule : Prop :=
  ∀ (s : State) (a : Access), s.busy = true →
    (¬ allowedWhileBusy a → s.hostAccess a = refusedBy a s) ∧
    (∀ off, allowedWhileBusy (.read .w32 (.reg off)) →
      s.hostAccess (.read .w32 (.reg off)) = { s with rdata := s.regRead off }) ∧
    (∀ v, s.hostAccess (.write .w32 (.reg 0x08) v) = s.statusWrite v) ∧
    (∀ v, s.hostAccess (.write .w32 (.reg 0x0C) v) = { s with ie := v.getLsbD 0 })

/-- R67, R68, R69, R28: an access of a wrong width, misaligned, at or beyond the capacity, or a write to OUT is refused, IDLE
or BUSY; and an access sets ACCERR only when one of these rules or R248 refuses it. -/
def Obligations.BadFormIsRefused : Prop :=
  ∀ (s : State) (a : Access),
    (badForm s.cfg a → s.hostAccess a = refusedBy a s) ∧
    (s.accErr = false → (s.hostAccess a).accErr = true → badForm s.cfg a ∨ (s.busy = true ∧ ¬ allowedWhileBusy a))

/-- R70, R71: while IDLE an access of a good form to IN or OUT reads the byte, in OUT whether or not the offset is below
OUT_LEN, or writes it; a read changes nothing (the value goes to the host, assumption log 7), and a write to IN changes
that byte alone. -/
def Obligations.IdleMemoryAccess : Prop :=
  ∀ (s : State) (a : Nat), s.busy = false →
    (a < s.cfg.inCap.toNat → s.hostAccess (.read .w8 (.inp a)) = { s with rdata := (s.inMem.read a).setWidth 32 }) ∧
    (a < s.cfg.outCap.toNat → s.hostAccess (.read .w8 (.out a)) = { s with rdata := (s.outMem.read a).setWidth 32 }) ∧
    (a < s.cfg.inCap.toNat → ∀ v : Word, ∃ t, s.hostAccess (.write .w8 (.inp a) v) = t ∧ t = { s with inMem := t.inMem } ∧
      t.inMem.read a = v.setWidth 8 ∧ ∀ b, b ≠ a → t.inMem.read b = s.inMem.read b)

/-- R33, R34, R35, R46, R47, R51 and the access column of 10_state.md section 2: what an aligned 32-bit write does while IDLE:
IN_LEN and OUT_LEN store it, TBL_IDX and IRQ_EN store their fields, FREQ_DATA writes the selected entry and begins a new
table, and a read-only register or a reserved offset ignores it; a reserved offset reads 0. -/
def Obligations.IdleRegisterWrites : Prop :=
  ∀ (s : State) (off : Byte) (v : Word), s.busy = false → off.toNat % 4 = 0 →
    s.hostAccess (.write .w32 (.reg 0x10) v) = { s with inLen := v } ∧
    s.hostAccess (.write .w32 (.reg 0x14) v) = { s with outLen := v } ∧
    s.hostAccess (.write .w32 (.reg 0x30) v) = { s with tblIdx := v.setWidth 8 } ∧
    s.hostAccess (.write .w32 (.reg 0x0C) v) = { s with ie := v.getLsbD 0 } ∧
    (∃ t, s.hostAccess (.write .w32 (.reg 0x34) v) = t ∧
      t = { s with freq := t.freq, fv := true, tv := false, cv := false, hv := false } ∧
      tblGet t.freq s.tblIdx = v ∧ ∀ x, x ≠ s.tblIdx → tblGet t.freq x = tblGet s.freq x) ∧
    (off.toNat ∉ [0x04, 0x08, 0x0C, 0x10, 0x14, 0x30, 0x34] → s.hostAccess (.write .w32 (.reg off) v) = s) ∧
    (0x58 ≤ off.toNat → s.hostAccess (.read .w32 (.reg off)) = { s with rdata := 0 })

/-- R32: a write of STATUS clears DONE, ERR and ACCERR where bits 1, 2 and 3 of the value are 1, IDLE or BUSY, and changes
nothing else. -/
def Obligations.StatusWriteOneToClear : Prop :=
  ∀ (s : State) (v : Word),
    s.hostAccess (.write .w32 (.reg 0x08) v) =
      { s with
        done := if v.getLsbD 1 then false else s.done
        err := if v.getLsbD 2 then false else s.err
        accErr := if v.getLsbD 3 then false else s.accErr }

/-- R24: every bit of STATUS as the host reads it, IDLE or BUSY. -/
def Obligations.StatusWordLayout : Prop :=
  ∀ s : State,
    s.statusWord.getLsbD 0 = s.busy ∧ s.statusWord.getLsbD 1 = s.done ∧ s.statusWord.getLsbD 2 = s.err ∧
    s.statusWord.getLsbD 3 = s.accErr ∧ s.statusWord.getLsbD 4 = (s.done && s.ie) ∧
    (∀ k, 5 ≤ k → k < 8 → s.statusWord.getLsbD k = false) ∧ s.statusWord.extractLsb' 8 8 = s.errCode ∧
    s.statusWord.getLsbD 16 = s.fv ∧ s.statusWord.getLsbD 17 = s.tv ∧ s.statusWord.getLsbD 18 = s.cv ∧
    s.statusWord.getLsbD 19 = s.hv ∧ (∀ k, 20 ≤ k → s.statusWord.getLsbD k = false) ∧
    s.hostAccess (.read .w32 (.reg 0x08)) = { s with rdata := s.statusWord }

/-- R22, R23, R33 to R37, R40, R46 to R50: what an aligned 32-bit read of every register but STATUS (StatusWordLayout) returns
while IDLE: each register under its own offset, its upper bits 0; ERR_INFO with SUBCODE in [7:0], STAGE in [15:8] and 0 above;
the windows on FREQ, CODE and ORDER, where the four words CODE_F0 to CODE_F3 are the field of the selected symbol, most
significant word first. -/
def Obligations.TableWindows : Prop :=
  ∀ s : State, s.busy = false →
    (∀ off : Byte, off.toNat ∈ [0x34, 0x38, 0x3C, 0x40, 0x44, 0x48, 0x4C] →
      s.hostAccess (.read .w32 (.reg off)) = { s with rdata := s.regRead off }) ∧
    s.hostAccess (.read .w32 (.reg 0x00)) = { s with rdata := 0x48554631 } ∧
    s.hostAccess (.read .w32 (.reg 0x04)) = { s with rdata := s.cmd } ∧
    s.hostAccess (.read .w32 (.reg 0x0C)) = { s with rdata := if s.ie then 1 else 0 } ∧
    s.hostAccess (.read .w32 (.reg 0x10)) = { s with rdata := s.inLen } ∧
    s.hostAccess (.read .w32 (.reg 0x14)) = { s with rdata := s.outLen } ∧
    s.hostAccess (.read .w32 (.reg 0x18)) = { s with rdata := s.hdrLen } ∧
    s.hostAccess (.read .w32 (.reg 0x1C)) = { s with rdata := BitVec.ofNat 32 s.nSym.toNat } ∧
    s.hostAccess (.read .w32 (.reg 0x20)) = { s with rdata := BitVec.ofNat 32 s.maxLen.toNat } ∧
    s.hostAccess (.read .w32 (.reg 0x24)) = { s with rdata := BitVec.ofNat 32 s.pad.toNat } ∧
    (∃ v : Word, s.hostAccess (.read .w32 (.reg 0x28)) = { s with rdata := v } ∧
      v.extractLsb' 0 8 = s.errSub ∧ v.extractLsb' 8 8 = s.errStage ∧ v.extractLsb' 16 16 = 0) ∧
    s.hostAccess (.read .w32 (.reg 0x2C)) = { s with rdata := s.errAddr } ∧
    s.hostAccess (.read .w32 (.reg 0x30)) = { s with rdata := BitVec.ofNat 32 s.tblIdx.toNat } ∧
    s.hostAccess (.read .w32 (.reg 0x50)) = { s with rdata := s.cfg.inCap } ∧
    s.hostAccess (.read .w32 (.reg 0x54)) = { s with rdata := s.cfg.outCap } ∧
    s.regRead 0x34 = tblGet s.freq s.tblIdx ∧
    ((tblGet s.code s.tblIdx).length ≤ 127 →
      (s.regRead 0x38).toNat = (tblGet s.code s.tblIdx).length ∧
      (s.regRead 0x3C).toNat * 2 ^ 96 + (s.regRead 0x40).toNat * 2 ^ 64 + (s.regRead 0x44).toNat * 2 ^ 32 +
          (s.regRead 0x48).toNat =
        if tblGet s.code s.tblIdx = [] then 0
        else 2 ^ (tblGet s.code s.tblIdx).length + codeVal (tblGet s.code s.tblIdx)) ∧
    (s.regRead 0x4C).extractLsb' 0 8 = tblGet s.order s.tblIdx ∧
    (s.regRead 0x4C).getLsbD 8 = decide (s.tblIdx.toNat < s.nSym.toNat) ∧
    (∀ k, 9 ≤ k → (s.regRead 0x4C).getLsbD k = false)

/-- R63: the host never writes OUT_MEM, and R65: of the tables it reaches only FREQ. -/
def Obligations.HostWritesOnlyFreqAndInput : Prop :=
  ∀ (s : State) (a : Access),
    let t := s.hostAccess a
    t.outMem = s.outMem ∧ t.code = s.code ∧ t.order = s.order ∧ t.node = s.node ∧ t.root = s.root ∧
      t.nSym = s.nSym ∧ t.maxLen = s.maxLen ∧ t.hdrLen = s.hdrLen ∧ t.pad = s.pad ∧ t.cfg = s.cfg

/-- R108: LOADIN puts the bytes at the offsets from 0 on and their number into IN_LEN, one access a step; COPYOUT copies the
OUT_LEN output bytes into IN_MEM and OUT_LEN into IN_LEN (its first step replaces the line by its expansion, assumption
log 5). -/
def Obligations.LoadInAndCopyOut : Prop :=
  (∀ (s : State) (bs : List Byte) (rest : List HostOp), s.busy = false → s.turns = [] → s.inputs = loadIn bs ++ rest →
    bs.length ≤ s.cfg.inCap.toNat →
    ∃ t, Sys2Proof.core.run (bs.length + 1) s = .next t ∧
      t = { s with inMem := t.inMem, inLen := t.inLen, inputs := rest } ∧ t.inLen.toNat = bs.length ∧
      t.inMem.holds 0 bs ∧ ∀ a, bs.length ≤ a → t.inMem.read a = s.inMem.read a) ∧
  (∀ (s : State) (rest : List HostOp), s.busy = false → s.turns = [] → s.inputs = .copyOut :: rest →
    s.outLen.toNat ≤ s.cfg.inCap.toNat → s.outLen.toNat ≤ s.cfg.outCap.toNat →
    ∃ t, Sys2Proof.core.run (2 * s.outLen.toNat + 2) s = .next t ∧
      t = { s with inMem := t.inMem, inLen := s.outLen, inputs := rest, rdata := t.rdata } ∧
      (∀ a, a < s.outLen.toNat → t.inMem.read a = s.outMem.read a) ∧
      ∀ a, s.outLen.toNat ≤ a → t.inMem.read a = s.inMem.read a)

/-! ### COUNT and BUILD_TREE -/

/-- R111, R112, R114: COUNT stores for each symbol the number of input offsets that hold it, and changes nothing else but
the valid flags and the completion bits; IN_LEN > IN_CAP is LENGTH, and then nothing is written. -/
def Obligations.CountStoresOccurrences : Prop :=
  (∀ s : State, s.inLen.toNat ≤ s.cfg.inCap.toNat →
    ∃ t, exec .count s = .next t ∧
      t = { s with freq := t.freq, fv := true, tv := false, cv := false, hv := false, busy := false, done := true } ∧
      ∀ x, (tblGet t.freq x).toNat = ((List.range s.inLen.toNat).filter fun i => s.inMem.read i == x).length) ∧
  ∀ s : State, s.cfg.inCap.toNat < s.inLen.toNat → exec .count s = .next (failed s 7 0 0x10 0)

/-- R115 to R123 and R118: BUILD_TREE makes one leaf for each symbol of positive frequency in ascending symbol order, a
tree as R56 and R116 say, in which every combine takes the two least keys of the nodes that wait, and ORDER lists the
leaves by ascending (frequency, symbol), then 0. -/
def Obligations.BuildTreeBuildsHuffmanTree : Prop :=
  ∀ s : State, s.fv = true → presentSymbols s.freq ≠ [] →
    ∃ t, exec .buildTree s = .next t ∧
      t = { s with
        node := t.node, root := t.root, order := t.order, nSym := t.nSym, tv := true, cv := false, hv := false,
        busy := false, done := true } ∧
      t.nSym.toNat = (presentSymbols s.freq).length ∧
      t.node.take t.nSym.toNat = (presentSymbols s.freq).map (fun x => .leaf x ((tblGet s.freq x).setWidth 40)) ∧
      TreeOk t.node t.root t.order t.nSym.toNat ∧ GreedyTree t.node ∧
      (orderList t.order t.nSym.toNat).Pairwise (fun x y =>
        (tblGet s.freq x).toNat < (tblGet s.freq y).toNat ∨ (tblGet s.freq x = tblGet s.freq y ∧ x.toNat < y.toNat)) ∧
      ∀ k, k < 256 → t.nSym.toNat ≤ k → orderAt t.order k = 0

/-- R124, R146: with exactly one present symbol BUILD_TREE makes the two-node tree of R124, and GEN_CODES after it gives
that symbol the code "0" and no other symbol a code. -/
def Obligations.SingleSymbolGetsCodeZero : Prop :=
  ∀ (s : State) (x : Byte), s.fv = true → presentSymbols s.freq = [x] →
    ∃ t u, exec .buildTree s = .next t ∧ exec .genCodes t = .next u ∧
      t.node = [.leaf x ((tblGet s.freq x).setWidth 40), .internal ((tblGet s.freq x).setWidth 40) 0 none] ∧
      t.root = some 1 ∧ t.nSym = 1 ∧ orderAt t.order 0 = x ∧
      tblGet u.code x = [false] ∧ (∀ y, y ≠ x → tblGet u.code y = []) ∧ u.maxLen = 1 ∧ u.cv = true

/-- R115 (errors), R113, R193, R170 (errors): nothing to encode is EMPTY_INPUT: BUILD_TREE with no present symbol and PACK
with IN_LEN = 0 change nothing else; ENCODE of an empty input fails at stage BUILD_TREE after COUNT has set FV = 1 and
FREQ to all 0. -/
def Obligations.EmptyInputErrors : Prop :=
  (∀ s : State, s.fv = true → presentSymbols s.freq = [] → exec .buildTree s = .next (failed s 1 0 0x11 0)) ∧
  (∀ s : State, s.cv = true → s.inLen = 0 → exec .pack s = .next (failed s 1 0 0x14 0)) ∧
  (∀ s : State, s.inLen = 0 →
    exec .encode s = .next (failed
      { s with freq := Vector.replicate 256 0, fv := true, tv := false, cv := false, hv := false, outLen := 0 }
      1 0 0x11 0))

/-- R127: a symbol of higher frequency has no longer code than one of lower frequency, for the codes BUILD_TREE and
GEN_CODES make of any frequency table. -/
def Obligations.HigherFrequencyNoLongerCode : Prop :=
  ∀ (s t u : State), s.fv = true → s.err = false → exec .buildTree s = .next t → t.err = false →
    exec .genCodes t = .next u → u.err = false →
    ∀ a b : Byte, (tblGet s.freq b).toNat < (tblGet s.freq a).toNat → 0 < (tblGet s.freq b).toNat →
      (tblGet u.code a).length ≤ (tblGet u.code b).length

/-- R128: the depth bound: with two or more present symbols of total W, Fib(L + 2) ≤ W for every code length L; so no code
of a table with W < 2^32 is longer than 45 bits and none at all is longer than 57. -/
def Obligations.FibonacciDepthBound : Prop :=
  ∀ (freq : Table Word) (x : Byte), tblGet freq x ≠ 0 →
    let code := treeCodes (treeOf (leavesOf freq)).1 (treeOf (leavesOf freq)).2
    (2 ≤ (presentSymbols freq).length → Nat.fib ((tblGet code x).length + 2) ≤ totalFreq freq) ∧
    ((presentSymbols freq).length = 1 → (tblGet code x).length = 1) ∧
    (totalFreq freq < 2 ^ 32 → (tblGet code x).length ≤ 45) ∧ (tblGet code x).length ≤ 57

/-! ### GEN_CODES -/

/-- R140, R141, R142, R144: on a tree whose paths have at most 127 edges GEN_CODES gives every leaf's symbol its path
string, every other symbol no code, and MAX_LEN the longest length. -/
def Obligations.GenCodesAssignsPathStrings : Prop :=
  ∀ (s : State) (root : Nat), s.tv = true → s.root = some root → TreeOk s.node s.root s.order s.nSym.toNat →
    (∀ p x, PathTo s.node root p x → p.length ≤ 127) →
    ∃ t, exec .genCodes s = .next t ∧
      t = { s with
        code := t.code, maxLen := t.maxLen, cv := true, hv := false, busy := false, done := true } ∧
      (∀ x, x ∈ leafSymbols s.node s.nSym.toNat → 1 ≤ (tblGet t.code x).length ∧ PathTo s.node root (tblGet t.code x) x) ∧
      (∀ p x, PathTo s.node root p x → tblGet t.code x = p) ∧
      (∀ x, x ∉ leafSymbols s.node s.nSym.toNat → tblGet t.code x = []) ∧
      (∀ x, (tblGet t.code x).length ≤ t.maxLen.toNat) ∧ ∃ x, (tblGet t.code x).length = t.maxLen.toNat

/-- R143: a code longer than 127 bits is CODE_TOO_LONG with the smallest such symbol, and nothing else changes. -/
def Obligations.GenCodesTooLong : Prop :=
  ∀ (s : State) (x : Byte), s.tv = true → 127 < (tblGet (treeCodes s.node s.root) x).length →
    (∀ y : Byte, y.toNat < x.toNat → (tblGet (treeCodes s.node s.root) y).length ≤ 127) →
    exec .genCodes s = .next (failed s 9 0 0x12 (x.setWidth 32))

/-- R147: the code set GEN_CODES writes is prefix-free; and it meets the rest of R55: exactly the first N_SYM symbols of ORDER,
all distinct, have a code, no code is longer than 127 bits, and MAX_LEN is the largest length. -/
def Obligations.GenCodesPrefixFree : Prop :=
  ∀ s t : State, TreeOk s.node s.root s.order s.nSym.toNat → s.err = false → exec .genCodes s = .next t →
    t.err = false → PrefixFree t.code ∧ CodeOk t.code t.order t.nSym.toNat ∧
      (∀ x, (tblGet t.code x).length ≤ 127 ∧ (tblGet t.code x).length ≤ t.maxLen.toNat) ∧
      ∃ x, (tblGet t.code x).length = t.maxLen.toNat

/-! ### WRITE_HEADER and READ_HEADER -/

/-- R150, R152, R93, R94, R97: WRITE_HEADER writes the count byte, then for each k the symbol ORDER[k] and the 16 bytes of
its own field, sets OUT_LEN and HDR_LEN to H, and changes nothing else. -/
def Obligations.WriteHeaderWritesRecords : Prop :=
  ∀ s : State, s.cv = true → s.nSym.toNat ≤ 256 → 1 + 17 * s.nSym.toNat ≤ s.cfg.outCap.toNat →
    ∃ t, exec .writeHeader s = .next t ∧
      t = { s with outMem := t.outMem, outLen := t.outLen, hdrLen := t.hdrLen, busy := false, done := true } ∧
      t.outLen.toNat = 1 + 17 * s.nSym.toNat ∧ t.hdrLen.toNat = 1 + 17 * s.nSym.toNat ∧
      (t.outMem.read 0).toNat = s.nSym.toNat % 256 ∧
      (∀ k, k < s.nSym.toNat → t.outMem.read (1 + 17 * k) = orderAt s.order k) ∧
      (∀ k j, k < s.nSym.toNat → j < 16 → t.outMem.read (2 + 17 * k + j) =
        (fieldOf (tblGet s.code (orderAt s.order k))).extractLsb' (120 - 8 * j) 8) ∧
      ∀ a, 1 + 17 * s.nSym.toNat ≤ a → t.outMem.read a = s.outMem.read a

/-- R151, R172: a header or a payload that does not fit OUT_CAP is OUT_OVERFLOW with SUBCODE 0 and ERR_ADDR 0, the PACK sum
taken without wrap-around, and nothing else changes. -/
def Obligations.OutputThatDoesNotFit : Prop :=
  (∀ s : State, s.cv = true → s.cfg.outCap.toNat < 1 + 17 * s.nSym.toNat →
    exec .writeHeader s = .next (failed s 8 0 0x13 0)) ∧
  (∀ s : State, s.cv = true → 1 ≤ s.inLen.toNat → s.inLen.toNat ≤ s.cfg.inCap.toNat →
    (∀ i, i < s.inLen.toNat → tblGet s.code (s.inMem.read i) ≠ []) →
    s.cfg.outCap.toNat < s.outLen.toNat + ((bitsOf s.code s.inputBytes).length + 7) / 8 + 1 →
    exec .pack s = .next (failed s 8 0 0x14 0))

/-- R155, R162, R99: an input that begins with the header of records READ_HEADER accepts, in any order, completes with
exactly those codes, that order, that count and length, and the longest code as MAX_LEN; later bytes do not matter. -/
def Obligations.ReadHeaderReadsRecords : Prop :=
  ∀ (s : State) (rs : List (Byte × Code)), 1 ≤ rs.length → rs.length ≤ 256 → RecordsOk rs →
    s.inLen.toNat ≤ s.cfg.inCap.toNat → 1 + 17 * rs.length ≤ s.inLen.toNat → s.inMem.holds 0 (serialize rs) →
    ∃ t, exec .readHeader s = .next t ∧
      t = { s with
        code := t.code, order := t.order, nSym := t.nSym, maxLen := t.maxLen, hdrLen := t.hdrLen,
        tv := false, cv := true, hv := true, busy := false, done := true } ∧
      (∀ r ∈ rs, tblGet t.code r.1 = r.2) ∧ (∀ x, x ∉ rs.map Prod.fst → tblGet t.code x = []) ∧
      orderList t.order rs.length = rs.map Prod.fst ∧ (∀ k, k < 256 → rs.length ≤ k → orderAt t.order k = 0) ∧
      t.nSym.toNat = rs.length ∧ t.hdrLen.toNat = 1 + 17 * rs.length ∧
      (∀ r ∈ rs, r.2.length ≤ t.maxLen.toNat) ∧ ∃ r ∈ rs, r.2.length = t.maxLen.toNat

/-- R156: the truncation checks of READ_HEADER, before any record is examined. -/
def Obligations.ReadHeaderTruncated : Prop :=
  ∀ s : State, s.inLen.toNat ≤ s.cfg.inCap.toNat →
    (s.inLen = 0 → exec .readHeader s = .next (failed s 4 1 0x20 0)) ∧
    (1 ≤ s.inLen.toNat →
      s.inLen.toNat < 1 + 17 * (if s.inMem.read 0 = 0 then 256 else (s.inMem.read 0).toNat) →
      exec .readHeader s = .next (failed s 4 2 0x20 s.inLen))

/-- R157, R158, R159, R160: the first bad record, after `rs` good ones, is reported with the sub-code of the first check it
fails and the offset of its symbol byte, and nothing else changes (R164). -/
def Obligations.ReadHeaderBadRecord : Prop :=
  ∀ (s : State) (rs : List (Byte × Code)) (x : Byte) (F : Field),
    s.inLen.toNat ≤ s.cfg.inCap.toNat → rs.length < countOf (s.inMem.read 0) →
    1 + 17 * countOf (s.inMem.read 0) ≤ s.inLen.toNat → RecordsOk rs →
    s.inMem.holds 1 (rs.flatMap fun r => recordBytes r.1 r.2) →
    s.inMem.holds (1 + 17 * rs.length) (x :: fieldBytes F) →
    (F = 0 → exec .readHeader s = .next (failed s 2 1 0x20 (BitVec.ofNat 32 (1 + 17 * rs.length)))) ∧
    (F = 1 → exec .readHeader s = .next (failed s 2 2 0x20 (BitVec.ofNat 32 (1 + 17 * rs.length)))) ∧
    (1 < F.toNat → x ∈ rs.map Prod.fst →
      exec .readHeader s = .next (failed s 2 3 0x20 (BitVec.ofNat 32 (1 + 17 * rs.length)))) ∧
    (1 < F.toNat → x ∉ rs.map Prod.fst → (∃ r ∈ rs, r.2 <+: codeOfField F ∨ codeOfField F <+: r.2) →
      exec .readHeader s = .next (failed s 2 4 0x20 (BitVec.ofNat 32 (1 + 17 * rs.length))))

/-- R153: a READ_HEADER of the bytes WRITE_HEADER wrote, on any machine and followed by any bytes, succeeds and yields the
same CODE, ORDER, N_SYM and MAX_LEN. -/
def Obligations.HeaderRoundTrip : Prop :=
  ∀ s t u : State, s.cv = true → CodeOk s.code s.order s.nSym.toNat → RegistersOk s → s.err = false →
    exec .writeHeader s = .next t → t.err = false →
    u.inLen.toNat ≤ u.cfg.inCap.toNat → t.hdrLen.toNat ≤ u.inLen.toNat →
    (∀ a, a < t.hdrLen.toNat → u.inMem.read a = t.outMem.read a) →
    ∃ v, exec .readHeader u = .next v ∧ v.err = u.err ∧ v.cv = true ∧ v.hv = true ∧ v.code = s.code ∧
      v.order = s.order ∧ v.nSym = s.nSym ∧ v.maxLen = s.maxLen ∧ v.hdrLen = t.hdrLen

/-- R154: WRITE_HEADER after a successful READ_HEADER writes exactly the header bytes read. -/
def Obligations.RewrittenHeaderIsTheHeaderRead : Prop :=
  ∀ u v : State, u.err = false → exec .readHeader u = .next v → v.err = false →
    v.hdrLen.toNat ≤ v.cfg.outCap.toNat →
    ∃ t, exec .writeHeader v = .next t ∧ t.err = false ∧ t.outLen = v.hdrLen ∧
      ∀ a, a < v.hdrLen.toNat → t.outMem.read a = u.inMem.read a

/-! ### PACK and UNPACK -/

/-- R170, R100, R101, R171, R174: PACK appends at OUT_LEN the codes of the input symbols in input order, MSB-first, with zero
pad bits, then the pad byte, and changes nothing else. -/
def Obligations.PackAppendsPayload : Prop :=
  ∀ s : State, s.cv = true → 1 ≤ s.inLen.toNat → s.inLen.toNat ≤ s.cfg.inCap.toNat →
    (∀ i, i < s.inLen.toNat → tblGet s.code (s.inMem.read i) ≠ []) →
    let S := bitsOf s.code s.inputBytes
    let P := (S.length + 7) / 8
    s.outLen.toNat + P + 1 ≤ s.cfg.outCap.toNat →
    ∃ t, exec .pack s = .next t ∧
      t = { s with outMem := t.outMem, outLen := t.outLen, pad := t.pad, busy := false, done := true } ∧
      t.outLen.toNat = s.outLen.toNat + P + 1 ∧ t.pad.toNat = 8 * P - S.length ∧
      (∀ j, j < 8 * P → (t.outMem.read (s.outLen.toNat + j / 8)).getLsbD (7 - j % 8) = S.getD j false) ∧
      (t.outMem.read (s.outLen.toNat + P)).toNat = 8 * P - S.length ∧
      ∀ a, a < s.outLen.toNat ∨ s.outLen.toNat + P + 1 ≤ a → t.outMem.read a = s.outMem.read a

/-- R173: the first input byte without a code is NO_CODE at its offset, and nothing else changes. -/
def Obligations.PackWithoutCode : Prop :=
  ∀ (s : State) (i : Nat), s.cv = true → s.inLen.toNat ≤ s.cfg.inCap.toNat → i < s.inLen.toNat →
    tblGet s.code (s.inMem.read i) = [] → (∀ j, j < i → tblGet s.code (s.inMem.read j) ≠ []) →
    exec .pack s = .next (failed s 10 0 0x14 (BitVec.ofNat 32 i))

/-- R178, R182, R103: when the data bits are the codes of a symbol sequence that fits OUT_CAP, UNPACK writes that sequence
from offset 0, sets OUT_LEN and PAD, and changes nothing else. -/
def Obligations.UnpackDecodesSymbols : Prop :=
  ∀ (s : State) (xs : List Byte), s.hv = true → PrefixFree s.code → s.inLen.toNat ≤ s.cfg.inCap.toNat →
    s.hdrLen.toNat + 2 ≤ s.inLen.toNat →
    let pad := (s.inMem.read (s.inLen.toNat - 1)).toNat
    pad ≤ 7 → (∀ x ∈ xs, tblGet s.code x ≠ []) → xs.length ≤ s.cfg.outCap.toNat →
    dataBits s s.hdrLen.toNat (8 * (s.inLen.toNat - s.hdrLen.toNat - 1) - pad) = bitsOf s.code xs →
    ∃ t, exec .unpack s = .next t ∧
      t = { s with outMem := t.outMem, outLen := t.outLen, pad := t.pad, busy := false, done := true } ∧
      t.outLen.toNat = xs.length ∧ t.pad.toNat = pad ∧ t.outMem.holds 0 xs ∧
      ∀ a, xs.length ≤ a → t.outMem.read a = s.outMem.read a

/-- R179, R180, R181: the checks of UNPACK before the walk; each error changes nothing else (R186). -/
def Obligations.UnpackChecksBeforeTheWalk : Prop :=
  ∀ s : State, s.hv = true → s.inLen.toNat ≤ s.cfg.inCap.toNat →
    (s.inLen.toNat < s.hdrLen.toNat + 1 → exec .unpack s = .next (failed s 4 3 0x21 s.inLen)) ∧
    (s.hdrLen.toNat + 1 ≤ s.inLen.toNat → 7 < (s.inMem.read (s.inLen.toNat - 1)).toNat →
      exec .unpack s = .next (failed s 3 1 0x21 (BitVec.ofNat 32 (s.inLen.toNat - 1)))) ∧
    (s.inLen.toNat = s.hdrLen.toNat + 1 → (s.inMem.read (s.inLen.toNat - 1)).toNat ≤ 7 →
      exec .unpack s = .next (failed s 3 2 0x21 s.hdrLen))

/-- R183, R184, R185, R186: the errors of UNPACK's walk, after the codes of the symbols `xs`: the symbol that does not fit, a
bit after which no code goes on, and data bits that end inside a code. Each sets OUT_LEN to 0, leaves PAD unchanged, and
leaves every byte of OUT_MEM unspecified (a new draw). -/
def Obligations.UnpackWalkErrors : Prop :=
  ∀ (s : State) (xs : List Byte) (p : List Bool) (rest : List Bool),
    s.hv = true → PrefixFree s.code → s.inLen.toNat ≤ s.cfg.inCap.toNat → s.hdrLen.toNat + 2 ≤ s.inLen.toNat →
    let h := s.hdrLen.toNat
    let pad := (s.inMem.read (s.inLen.toNat - 1)).toNat
    let dropped : State := { s with outLen := 0, outMem := { epoch := s.draws, cells := [] }, draws := s.draws + 1 }
    let done := (bitsOf s.code xs).length
    pad ≤ 7 → (∀ x ∈ xs, tblGet s.code x ≠ []) → xs.length ≤ s.cfg.outCap.toNat → p ≠ [] →
    dataBits s h (8 * (s.inLen.toNat - h - 1) - pad) = bitsOf s.code xs ++ p ++ rest →
    (xs.length = s.cfg.outCap.toNat → (∃ x, tblGet s.code x = p) →
      exec .unpack s = .next (failed dropped 8 0 0x21 (BitVec.ofNat 32 (h + (done + p.length - 1) / 8)))) ∧
    ((∀ x, tblGet s.code x ≠ [] → ¬ p <+: tblGet s.code x) →
      (p.length = 1 ∨ ∃ x, tblGet s.code x ≠ p.dropLast ∧ p.dropLast <+: tblGet s.code x) →
      exec .unpack s = .next (failed dropped 3 3 0x21 (BitVec.ofNat 32 (h + (done + p.length - 1) / 8)))) ∧
    (rest = [] → (∃ x, p <+: tblGet s.code x ∧ p ≠ tblGet s.code x) →
      exec .unpack s = .next (failed dropped 3 4 0x21 (BitVec.ofNat 32 (h + (done + p.length - 1) / 8))))

/-- R177: UNPACK of a payload PACK wrote, with the same prefix-free table, stops exactly after the last code and gives the
input back. -/
def Obligations.PackUnpackRoundTrip : Prop :=
  ∀ s t u : State, s.cv = true → PrefixFree s.code → s.err = false → exec .pack s = .next t → t.err = false →
    u.hv = true → u.code = s.code → u.inLen.toNat ≤ u.cfg.inCap.toNat →
    u.inLen.toNat = u.hdrLen.toNat + (t.outLen.toNat - s.outLen.toNat) →
    (∀ k, k < t.outLen.toNat - s.outLen.toNat →
      u.inMem.read (u.hdrLen.toNat + k) = t.outMem.read (s.outLen.toNat + k)) →
    s.inLen.toNat ≤ u.cfg.outCap.toNat →
    ∃ v, exec .unpack u = .next v ∧ v.err = u.err ∧ v.outLen = s.inLen ∧ v.pad = t.pad ∧
      ∀ a, a < s.inLen.toNat → v.outMem.read a = s.inMem.read a

/-! ### ENCODE, DECODE and CLEAR -/

/-- R190, R194, R100 to R102: ENCODE of a non-empty input whose codes have at most 127 bits and whose stream fits OUT_CAP
leaves the header, the payload of the input's codes, the pad byte and the lengths, and changes no other output byte. -/
def Obligations.EncodeWritesStream : Prop :=
  ∀ s : State, 1 ≤ s.inLen.toNat → s.inLen.toNat ≤ s.cfg.inCap.toNat →
    let xs := s.inputBytes
    let N := xs.dedup.length
    let S := bitsOf (codesFor xs) xs
    let P := (S.length + 7) / 8
    longestCode (codesFor xs) ≤ 127 → 1 + 17 * N + P + 1 ≤ s.cfg.outCap.toNat →
    ∃ t, exec .encode s = .next t ∧
      t = { s with
        freq := t.freq, node := t.node, root := t.root, order := t.order, nSym := t.nSym, code := t.code,
        maxLen := t.maxLen, outMem := t.outMem, outLen := t.outLen, hdrLen := t.hdrLen, pad := t.pad,
        fv := true, tv := true, cv := true, hv := false, busy := false, done := true } ∧
      (∀ x, (tblGet t.freq x).toNat = xs.count x) ∧ t.code = codesFor xs ∧
      t.nSym.toNat = N ∧ t.hdrLen.toNat = 1 + 17 * N ∧ t.outLen.toNat = 1 + 17 * N + P + 1 ∧
      t.maxLen.toNat = longestCode t.code ∧ t.pad.toNat = 8 * P - S.length ∧
      (t.outMem.read 0).toNat = N % 256 ∧
      (∀ k, k < N → t.outMem.read (1 + 17 * k) = orderAt t.order k ∧
        ∀ j, j < 16 → t.outMem.read (2 + 17 * k + j) = fieldByte (fieldOf (tblGet t.code (orderAt t.order k))) j) ∧
      (∀ j, j < 8 * P → (t.outMem.read (1 + 17 * N + j / 8)).getLsbD (7 - j % 8) = S.getD j false) ∧
      (t.outMem.read (1 + 17 * N + P)).toNat = 8 * P - S.length ∧
      ∀ a, 1 + 17 * N + P + 1 ≤ a → t.outMem.read a = s.outMem.read a

/-- R195, R103: DECODE of a stream (the header of acceptable records, then data bits that are the codes of a symbol
sequence, then the pad byte) leaves that sequence, the tables of the header, and changes no other output byte. -/
def Obligations.DecodeReadsStream : Prop :=
  ∀ (s : State) (rs : List (Byte × Code)) (code : Table Code) (xs : List Byte),
    1 ≤ rs.length → rs.length ≤ 256 → RecordsOk rs → s.inMem.holds 0 (serialize rs) →
    (∀ r ∈ rs, tblGet code r.1 = r.2) → (∀ x, x ∉ rs.map Prod.fst → tblGet code x = []) →
    s.inLen.toNat ≤ s.cfg.inCap.toNat →
    let H := 1 + 17 * rs.length
    H + 2 ≤ s.inLen.toNat →
    let pad := (s.inMem.read (s.inLen.toNat - 1)).toNat
    pad ≤ 7 → (∀ x ∈ xs, tblGet code x ≠ []) → xs.length ≤ s.cfg.outCap.toNat →
    dataBits s H (8 * (s.inLen.toNat - H - 1) - pad) = bitsOf code xs →
    ∃ t, exec .decode s = .next t ∧
      t = { s with
        code := code, order := t.order, nSym := t.nSym, maxLen := t.maxLen, hdrLen := t.hdrLen,
        outMem := t.outMem, outLen := t.outLen, pad := t.pad,
        tv := false, cv := true, hv := true, busy := false, done := true } ∧
      orderList t.order rs.length = rs.map Prod.fst ∧ t.nSym.toNat = rs.length ∧ t.hdrLen.toNat = H ∧
      t.maxLen.toNat = longestCode code ∧ t.outLen.toNat = xs.length ∧ t.pad.toNat = pad ∧ t.outMem.holds 0 xs ∧
      ∀ a, xs.length ≤ a → t.outMem.read a = s.outMem.read a

/-- R189, R197: the round trip. ENCODE of a non-empty input whose stream fits OUT_CAP succeeds, and DECODE on any machine whose
IN_MEM holds the OUT_LEN bytes of the stream, and whose capacities hold the stream and the input, gives the input back. -/
def Obligations.EncodeDecodeRoundTrip : Prop :=
  ∀ s u : State, s.err = false → 1 ≤ s.inLen.toNat → s.inLen.toNat ≤ s.cfg.inCap.toNat →
    let xs := s.inputBytes
    1 + 17 * xs.dedup.length + ((bitsOf (codesFor xs) xs).length + 7) / 8 + 1 ≤ s.cfg.outCap.toNat →
    ∃ t, exec .encode s = .next t ∧ t.err = false ∧
      (u.inLen = t.outLen → (∀ a, a < t.outLen.toNat → u.inMem.read a = t.outMem.read a) →
        t.outLen.toNat ≤ u.cfg.inCap.toNat → s.inLen.toNat ≤ u.cfg.outCap.toNat →
        ∃ v, exec .decode u = .next v ∧ v.err = u.err ∧ v.outLen = s.inLen ∧
          ∀ a, a < s.inLen.toNat → v.outMem.read a = s.inMem.read a)

/-- R188: a successful UNPACK or DECODE emits at least one symbol. -/
def Obligations.DecodeNeverEmpty : Prop :=
  ∀ s t : State, s.err = false → t.err = false → (exec .unpack s = .next t ∨ exec .decode s = .next t) →
    1 ≤ t.outLen.toNat

/-- R198, R191, R192, R196: ENCODE is its five steps and DECODE its two, run as separate commands up to the first that fails;
a failing composite is in the failing step's state (whose STAGE names the step), but for OUT_LEN, which is 0. -/
def Obligations.CompositesAreTheirSteps : Prop :=
  (∀ s a b c d e : State, s.err = false →
    exec .count s = .next a → exec .buildTree a = .next b → exec .genCodes b = .next c →
    exec .writeHeader c = .next d → exec .pack d = .next e →
    (a.err = true → exec .encode s = .next { a with outLen := 0 }) ∧
    (a.err = false → b.err = true → exec .encode s = .next { b with outLen := 0 }) ∧
    (a.err = false → b.err = false → c.err = true → exec .encode s = .next { c with outLen := 0 }) ∧
    (a.err = false → b.err = false → c.err = false → d.err = true → exec .encode s = .next { d with outLen := 0 }) ∧
    (a.err = false → b.err = false → c.err = false → d.err = false → e.err = true →
      exec .encode s = .next { e with outLen := 0 }) ∧
    (a.err = false → b.err = false → c.err = false → d.err = false → e.err = false → exec .encode s = .next e)) ∧
  (∀ s a b : State, s.err = false → exec .readHeader s = .next a → exec .unpack a = .next b →
    (a.err = true → exec .decode s = .next { a with outLen := 0 }) ∧
    (a.err = false → b.err = true → exec .decode s = .next { b with outLen := 0 }) ∧
    (a.err = false → b.err = false → exec .decode s = .next b))

/-- R199, R200: the results of ENCODE and DECODE depend only on IN_LEN, the input bytes and the capacities: two machines that
agree on these, each with the command just issued, end with the same report, and after success with the same lengths,
code table and output bytes. -/
def Obligations.CompositesReadNoOldTables : Prop :=
  ∀ (i : Instr) (s s' t t' : State) (w w' : Word), (i = .encode ∨ i = .decode) →
    s.cfg.inCap = s'.cfg.inCap → s.cfg.outCap = s'.cfg.outCap → s.inLen = s'.inLen →
    (∀ a, a < s.inLen.toNat → s.inMem.read a = s'.inMem.read a) →
    exec i (s.issue w) = .next t → exec i (s'.issue w') = .next t' →
    t.err = t'.err ∧ t.errCode = t'.errCode ∧ t.errSub = t'.errSub ∧ t.errStage = t'.errStage ∧
      t.errAddr = t'.errAddr ∧
      (t.err = false → t.outLen = t'.outLen ∧ t.code = t'.code ∧ t.order = t'.order ∧ t.nSym = t'.nSym ∧
        t.maxLen = t'.maxLen ∧ t.hdrLen = t'.hdrLen ∧ t.pad = t'.pad ∧
        ∀ a, a < t.outLen.toNat → t.outMem.read a = t'.outMem.read a)

/-- R201, R202, R243: CLEAR gives every register but CMD, STATUS and IRQ_EN, and every table, its reset value, clears ACCERR
and the valid flags, keeps IN_MEM, OUT_MEM and IRQ_EN, and completes with DONE = 1. -/
def Obligations.ClearIsSoftReset : Prop :=
  ∀ s : State, ∃ t, exec .clear s = .next t ∧
    t = { State.powerOn s.cfg with
      cmd := s.cmd, done := true, err := s.err, errCode := s.errCode, ie := s.ie, inMem := s.inMem, outMem := s.outMem,
      draws := s.draws, inputs := s.inputs, turns := s.turns, rdata := s.rdata } ∧
    (s.err = false → s.errCode = 0 → t.statusWord = if s.ie then 0x12 else 0x02)

/-! ### Rules over all commands -/

/-- R206: the prerequisites. The five commands fail with SEQUENCE when their flag is 0, and no command fails with SEQUENCE
otherwise. -/
def Obligations.PrerequisiteFlags : Prop :=
  ∀ s : State,
    (s.fv = false → exec .buildTree s = .next (failed s 6 1 0x11 0)) ∧
    (s.tv = false → exec .genCodes s = .next (failed s 6 2 0x12 0)) ∧
    (s.cv = false → exec .writeHeader s = .next (failed s 6 3 0x13 0)) ∧
    (s.cv = false → exec .pack s = .next (failed s 6 3 0x14 0)) ∧
    (s.hv = false → exec .unpack s = .next (failed s 6 4 0x21 0)) ∧
    (∀ (i : Instr) (t : State), s.errCode ≠ 6 → exec i s = .next t → t.errCode = 6 →
      (i = .buildTree ∧ s.fv = false) ∨ (i = .genCodes ∧ s.tv = false) ∨ (i = .writeHeader ∧ s.cv = false) ∨
        (i = .pack ∧ s.cv = false) ∨ (i = .unpack ∧ s.hv = false))

/-- R34, R211, R219: IN_LEN > IN_CAP is LENGTH, whatever else is wrong with the input, in COUNT, READ_HEADER, ENCODE and DECODE,
in PACK when CV = 1 and in UNPACK when HV = 1 (without their flag these two are SEQUENCE first, PrerequisiteFlags). -/
def Obligations.LengthErrors : Prop :=
  ∀ s : State, s.cfg.inCap.toNat < s.inLen.toNat →
    exec .count s = .next (failed s 7 0 0x10 0) ∧ exec .readHeader s = .next (failed s 7 0 0x20 0) ∧
    (s.cv = true → exec .pack s = .next (failed s 7 0 0x14 0)) ∧
    (s.hv = true → exec .unpack s = .next (failed s 7 0 0x21 0)) ∧
    exec .encode s = .next (failed { s with outLen := 0 } 7 0 0x10 0) ∧
    exec .decode s = .next (failed { s with outLen := 0 } 7 0 0x20 0)

/-- R216, R176, R164: a failing sub-command changes nothing but the report, except that an UNPACK may also drop its output
(R186). -/
def Obligations.FailingSubcommandChangesNothing : Prop :=
  ∀ (i : Instr) (s t : State), i ≠ .encode → i ≠ .decode → s.err = false → exec i s = .next t → t.err = true →
    t = failed s t.errCode t.errSub (opcode i) t.errAddr ∨
    (i = .unpack ∧ t = failed { s with outLen := 0, outMem := { epoch := s.draws, cells := [] }, draws := s.draws + 1 }
      t.errCode t.errSub (opcode i) t.errAddr)

/-- R205: the valid flags after a successful command. -/
def Obligations.ValidFlagWrites : Prop :=
  ∀ (i : Instr) (s t : State), s.err = false → exec i s = .next t → t.err = false →
    (t.fv, t.tv, t.cv, t.hv) =
      match i with
      | .count => (true, false, false, false)
      | .buildTree => (s.fv, true, false, false)
      | .genCodes => (s.fv, s.tv, true, false)
      | .writeHeader => (s.fv, s.tv, s.cv, s.hv)
      | .pack => (s.fv, s.tv, s.cv, s.hv)
      | .readHeader => (s.fv, false, true, true)
      | .unpack => (s.fv, s.tv, s.cv, s.hv)
      | .encode => (true, true, true, false)
      | .decode => (s.fv, false, true, true)
      | .clear => (false, false, false, false)

/-- R220: a refused access during BUSY sets ACCERR and does not change the running command's outcome. That an access to a
reserved offset and a write of ID are refused while BUSY, and so set ACCERR, is the model's reading (DEDUCED, assumption
log 10): R51 and R22 could be read otherwise. -/
def Obligations.RefusedAccessLeavesOutcome : Prop :=
  ∀ (i : Instr) (s t : State) (a : Access), s.busy = true → ¬ allowedWhileBusy a → exec i s = .next t →
    exec i (s.hostAccess a) =
      .next { t with accErr := (i != .clear), rdata := (s.hostAccess a).rdata }

/-- R10, R79, R222: the block does not depend on REG_BASE, IN_BASE, OUT_BASE or IRQ_LINE. -/
def Obligations.PlatformParametersIgnored : Prop :=
  ∀ (rb ib ob il : Nat) (s t : State), step s = .next t →
    step (withPlatform rb ib ob il s) = .next (withPlatform rb ib ob il t)

/-! ### Invariants -/

/-- At reset every invariant holds. -/
def Obligations.ResetMeetsInvariants : Prop :=
  FlagsOk State.reset ∧ MemoriesOk State.reset ∧ RegistersOk State.reset ∧ TablesOk State.reset

/-- R57, R58, R211: every step keeps the flag invariant. -/
def Obligations.StepKeepsFlags : Prop := ∀ s t : State, FlagsOk s → step s = .next t → FlagsOk t

/-- R60, R62, R63, R73: every step keeps both memories in canonical form and inside their capacity. -/
def Obligations.StepKeepsMemories : Prop := ∀ s t : State, MemoriesOk s → step s = .next t → MemoriesOk t

/-- R31, R36, R39, R41: every step keeps the result registers in their ranges and in agreement with the tables. -/
def Obligations.StepKeepsRegisters : Prop := ∀ s t : State, RegistersOk s → step s = .next t → RegistersOk t

/-- R55, R56: every step keeps what the valid flags promise of the tree and of the code table, but for the bound of 127 bits and
MAX_LEN, which StepKeepsRegisters keeps. -/
def Obligations.StepKeepsTables : Prop := ∀ s t : State, TablesOk s → step s = .next t → TablesOk t
end

