-- ==== Sys2Proof/Laws/Bodies.lean ====
section
/-! SUPPORT. Laws/Bodies.lean: what each sub-command's body can do, once: the conditions under which it completes and the
state it leaves, and that an error leaves the state as it was (with the output dropped, in UNPACK's walk). Later proofs
cite these and do not unfold a body. -/

namespace Sys2Proof.Machine

theorem runSingle_completes {i : Instr} {body : State → BodyResult} {s t : State} (h : body s = .completes t) :
    runSingle i body s = .next t.complete := by
  simp [runSingle, h]

theorem runSingle_raises {i : Instr} {body : State → BodyResult} {s t : State} {e : CmdErr} {sub : Byte} {a : Word}
    (h : body s = .raises t e sub a) : runSingle i body s = .next (t.errorComplete e sub (opcode i) a) := by
  simp [runSingle, h]

/-- What a sub-command on its own can do. -/
theorem runSingle_cases (i : Instr) (body : State → BodyResult) (s : State) :
    (∃ t, body s = .completes t ∧ runSingle i body s = .next t.complete) ∨
    (∃ t e sub a, body s = .raises t e sub a ∧
      runSingle i body s = .next (t.errorComplete e sub (opcode i) a)) := by
  cases h : body s with
  | completes t => exact .inl ⟨t, rfl, runSingle_completes h⟩
  | raises t e sub a => exact .inr ⟨t, e, sub, a, rfl, runSingle_raises h⟩

@[simp] theorem runStages_nil (s : State) : runStages [] s = .next s.complete := rfl

theorem runStages_completes {i : Instr} {body : State → BodyResult} {s t : State} (h : body s = .completes t)
    (rest : List (Instr × (State → BodyResult))) : runStages ((i, body) :: rest) s = runStages rest t := by
  simp [runStages, h]

theorem runStages_raises {i : Instr} {body : State → BodyResult} {s t : State} {e : CmdErr} {sub : Byte} {a : Word}
    (h : body s = .raises t e sub a) (rest : List (Instr × (State → BodyResult))) :
    runStages ((i, body) :: rest) s = .next ({ t with outLen := 0 }.errorComplete e sub (opcode i) a) := by
  simp [runStages, h]

/-- COUNT (R111). -/
theorem countBody_cases (s : State) :
    (s.cfg.inCap.toNat < s.inLen.toNat ∧ countBody s = .raises s .length 0 0) ∨
    (s.inLen.toNat ≤ s.cfg.inCap.toNat ∧
      countBody s = .completes { s with freq := countTable s.inputBytes }.freqFlags) := by
  unfold countBody
  split
  · exact .inl ⟨‹_›, rfl⟩
  · exact .inr ⟨Nat.le_of_not_lt ‹_›, rfl⟩

/-- BUILD_TREE (R115). -/
theorem buildTreeBody_cases (s : State) :
    (s.fv = false ∧ buildTreeBody s = .raises s .sequence 1 0) ∨
    (s.fv = true ∧ leavesOf s.freq = [] ∧ buildTreeBody s = .raises s .emptyInput 0 0) ∨
    (s.fv = true ∧ leavesOf s.freq ≠ [] ∧
      buildTreeBody s =
        .completes
          { s with
            node := (treeOf (leavesOf s.freq)).1
            root := (treeOf (leavesOf s.freq)).2
            order := orderTable (leafOrder (leavesOf s.freq))
            nSym := BitVec.ofNat 9 (leavesOf s.freq).length }.treeFlags) := by
  unfold buildTreeBody
  split
  · exact .inl ⟨‹_›, rfl⟩
  · rename_i hf
    have hf : s.fv = true := by simpa using hf
    split
    · exact .inr (.inl ⟨hf, ‹_›, rfl⟩)
    · exact .inr (.inr ⟨hf, ‹_›, rfl⟩)

/-- GEN_CODES (R140). -/
theorem genCodesBody_cases (s : State) :
    (s.tv = false ∧ genCodesBody s = .raises s .sequence 2 0) ∨
    (∃ x, s.tv = true ∧ tooLongSymbol (treeCodes s.node s.root) = some x ∧
      genCodesBody s = .raises s .codeTooLong 0 (x.setWidth 32)) ∨
    (s.tv = true ∧ tooLongSymbol (treeCodes s.node s.root) = none ∧
      genCodesBody s =
        .completes
          { s with
            code := treeCodes s.node s.root
            maxLen := BitVec.ofNat 8 (longestCode (treeCodes s.node s.root)) }.codeFlags) := by
  unfold genCodesBody
  split
  · exact .inl ⟨‹_›, rfl⟩
  · rename_i hf
    have hf : s.tv = true := by simpa using hf
    split
    · exact .inr (.inl ⟨_, hf, ‹_›, rfl⟩)
    · exact .inr (.inr ⟨hf, ‹_›, rfl⟩)

/-- WRITE_HEADER (R150, R151). -/
theorem writeHeaderBody_cases (s : State) :
    (s.cv = false ∧ writeHeaderBody s = .raises s .sequence 3 0) ∨
    (s.cv = true ∧ s.cfg.outCap.toNat < headerLen s.nSym.toNat ∧ writeHeaderBody s = .raises s .outOverflow 0 0) ∨
    (s.cv = true ∧ headerLen s.nSym.toNat ≤ s.cfg.outCap.toNat ∧
      writeHeaderBody s =
        .completes
          { s with
            outMem := s.outMem.writeBytes 0 (headerBytes s.nSym.toNat s.order s.code)
            outLen := BitVec.ofNat 32 (headerLen s.nSym.toNat)
            hdrLen := BitVec.ofNat 32 (headerLen s.nSym.toNat) }) := by
  unfold writeHeaderBody
  split
  · exact .inl ⟨‹_›, rfl⟩
  · rename_i hf
    have hf : s.cv = true := by simpa using hf
    split
    · exact .inr (.inl ⟨hf, ‹_›, rfl⟩)
    · exact .inr (.inr ⟨hf, Nat.le_of_not_lt ‹_›, rfl⟩)

/-- READ_HEADER (R155): an error leaves the state as it was (R164). -/
theorem readHeaderBody_cases (s : State) :
    (∃ e sub a, readHeaderBody s = .raises s e sub a ∧ e ≠ .sequence) ∨
    (∃ rs, s.inLen.toNat ≤ s.cfg.inCap.toNat ∧ headerLen (countOf (s.inByte 0)) ≤ s.inLen.toNat ∧
      readRecords s.inByte (countOf (s.inByte 0)) 0 [] = .ok rs ∧
      readHeaderBody s =
        .completes
          { s with
            code := codeTableOf rs
            order := orderTable (rs.map Prod.fst)
            nSym := BitVec.ofNat 9 (countOf (s.inByte 0))
            hdrLen := BitVec.ofNat 32 (headerLen (countOf (s.inByte 0)))
            maxLen := BitVec.ofNat 8 (longestCode (codeTableOf rs)) }.headerFlags) := by
  unfold readHeaderBody
  split
  · exact .inl ⟨_, _, _, rfl, by decide⟩
  · split
    · exact .inl ⟨_, _, _, rfl, by decide⟩
    · simp only
      split
      · exact .inl ⟨_, _, _, rfl, by decide⟩
      · split
        · exact .inl ⟨_, _, _, rfl, by decide⟩
        · exact .inr ⟨_, Nat.le_of_not_lt ‹_›, Nat.le_of_not_lt ‹_›, ‹_›, rfl⟩

/-- PACK (R170): an error leaves the state as it was (R176). -/
theorem packBody_cases (s : State) :
    (s.cv = false ∧ packBody s = .raises s .sequence 3 0) ∨
    (∃ e sub a, s.cv = true ∧ packBody s = .raises s e sub a ∧ e ≠ .sequence) ∨
    (∃ bits, s.cv = true ∧ s.inLen.toNat ≤ s.cfg.inCap.toNat ∧ 1 ≤ s.inLen.toNat ∧
      gatherBits s.code 0 s.inputBytes = .ok bits ∧
      s.outLen.toNat + payloadLen bits + 1 ≤ s.cfg.outCap.toNat ∧
      packBody s =
        .completes
          { s with
            outMem :=
              s.outMem.writeBytes s.outLen.toNat (payloadBytes bits ++ [BitVec.ofNat 8 (padCount bits)])
            outLen := BitVec.ofNat 32 (s.outLen.toNat + payloadLen bits + 1)
            pad := BitVec.ofNat 3 (padCount bits) }) := by
  unfold packBody
  split
  · exact .inl ⟨‹_›, rfl⟩
  · rename_i hf
    have hf : s.cv = true := by simpa using hf
    refine .inr ?_
    split
    · exact .inl ⟨_, _, _, hf, rfl, by decide⟩
    · split
      · exact .inl ⟨_, _, _, hf, rfl, by decide⟩
      · split
        · exact .inl ⟨_, _, _, hf, rfl, by decide⟩
        · split
          · exact .inl ⟨_, _, _, hf, rfl, by decide⟩
          · exact .inr ⟨_, hf, by omega, by omega, ‹_›, by omega, rfl⟩

/-- UNPACK (R178, R186): an error before the walk leaves the state as it was, an error of the walk drops the output. -/
theorem unpackBody_cases (s : State) :
    (s.hv = false ∧ unpackBody s = .raises s .sequence 4 0) ∨
    (∃ e sub a, s.hv = true ∧ unpackBody s = .raises s e sub a ∧ e ≠ .sequence) ∨
    (∃ e sub a, s.hv = true ∧ unpackBody s = .raises s.dropOutput e sub (BitVec.ofNat 32 a) ∧
      unpackWalk s.code s.cfg.outCap.toNat (payloadBit s.inByte s.hdrLen.toNat) (fun j => s.hdrLen.toNat + j / 8)
        (8 * (s.inLen.toNat - s.hdrLen.toNat - 1) - (s.inByte (s.inLen.toNat - 1)).toNat) 0 [] [] =
          .failed e sub a) ∨
    (∃ out, s.hv = true ∧ s.inLen.toNat ≤ s.cfg.inCap.toNat ∧ s.hdrLen.toNat + 2 ≤ s.inLen.toNat ∧
      (s.inByte (s.inLen.toNat - 1)).toNat ≤ 7 ∧
      unpackWalk s.code s.cfg.outCap.toNat (payloadBit s.inByte s.hdrLen.toNat) (fun j => s.hdrLen.toNat + j / 8)
        (8 * (s.inLen.toNat - s.hdrLen.toNat - 1) - (s.inByte (s.inLen.toNat - 1)).toNat) 0 [] [] = .emitted out ∧
      unpackBody s =
        .completes
          { s with
            outMem := s.outMem.writeBytes 0 out
            outLen := BitVec.ofNat 32 out.length
            pad := BitVec.ofNat 3 (s.inByte (s.inLen.toNat - 1)).toNat }) := by
  unfold unpackBody
  split
  · exact .inl ⟨‹_›, rfl⟩
  · rename_i hf
    have hf : s.hv = true := by simpa using hf
    refine .inr ?_
    split
    · exact .inl ⟨_, _, _, hf, rfl, by decide⟩
    · simp only
      split
      · exact .inl ⟨_, _, _, hf, rfl, by decide⟩
      · split
        · exact .inl ⟨_, _, _, hf, rfl, by decide⟩
        · split
          · exact .inl ⟨_, _, _, hf, rfl, by decide⟩
          · split
            · exact .inr (.inl ⟨_, _, _, hf, rfl, ‹_›⟩)
            · exact .inr (.inr ⟨_, hf, by omega, by omega, by omega, ‹_›, rfl⟩)

/-- The walk emits at most `cap` symbols (R183). -/
theorem unpackWalk_length_le {code : Table Code} {cap : Nat} {bit : Nat → Bool} {addrOf : Nat → Nat} {n j : Nat}
    {p : Code} {out res : List Byte} (hout : out.length ≤ cap)
    (h : unpackWalk code cap bit addrOf n j p out = .emitted res) : res.length ≤ cap := by
  induction n generalizing j p out with
  | zero =>
    simp only [unpackWalk] at h
    split at h
    · cases h; exact hout
    · cases h
  | succ n ih =>
    simp only [unpackWalk] at h
    split at h
    · split at h
      · cases h
      · exact ih (by simp only [List.length_append, List.length_cons, List.length_nil]; omega) h
    · split at h
      · exact ih hout h
      · cases h

/-- The walk answers no SEQUENCE error (R211). -/
theorem unpackWalk_failed {code : Table Code} {cap : Nat} {bit : Nat → Bool} {addrOf : Nat → Nat} {n j : Nat}
    {p : Code} {out : List Byte} {e : CmdErr} {sub : Byte} {a : Nat}
    (h : unpackWalk code cap bit addrOf n j p out = .failed e sub a) : e = .outOverflow ∨ e = .corruptPayload := by
  induction n generalizing j p out with
  | zero =>
    simp only [unpackWalk] at h
    split at h
    · cases h
    · cases h; exact .inr rfl
  | succ n ih =>
    simp only [unpackWalk] at h
    split at h
    · split at h
      · cases h; exact .inl rfl
      · exact ih h
    · split at h
      · exact ih h
      · cases h; exact .inr rfl

end Sys2Proof.Machine
end

