-- ==== Sys2Proof/Laws/Tables.lean ====
section
/-! SUPPORT. Laws/Tables.lean: the laws of the tables indexed by a byte, of ORDER as commands write it, of the code table of
a list of entries, and of the sorted queue of the tree builder. -/

namespace Sys2Proof.Machine

@[simp] theorem tblGet_tblSet_same {α : Type} (t : Table α) (x : Byte) (v : α) : tblGet (tblSet t x v) x = v := by
  simp [tblGet, tblSet]

theorem tblGet_tblSet_other {α : Type} (t : Table α) {x y : Byte} (h : y ≠ x) (v : α) :
    tblGet (tblSet t x v) y = tblGet t y := by
  have : x.toNat ≠ y.toNat := fun e => h (BitVec.eq_of_toNat_eq e.symm)
  simp [tblGet, tblSet, this]

@[simp] theorem tblGet_tblOf {α : Type} (f : Byte → α) (x : Byte) : tblGet (tblOf f) x = f x := by
  simp [tblGet, tblOf, allSymbols]

@[simp] theorem tblGet_replicate {α : Type} (v : α) (x : Byte) : tblGet (Vector.replicate 256 v : Table α) x = v := by
  simp [tblGet]

/-- A table is its entries. -/
theorem tbl_ext {α : Type} {t u : Table α} (h : ∀ x, tblGet t x = tblGet u x) : t = u := by
  apply Vector.ext
  intro i hi
  have := h (BitVec.ofNat 8 i)
  simpa [tblGet, Nat.mod_eq_of_lt hi] using this

/-- The entries of a table are its values at the symbols in ascending order. -/
theorem tblEntries_eq {α : Type} (t : Table α) : tblEntries t = allSymbols.map fun x => (x, tblGet t x) := by
  apply List.ext_getElem
  · simp [tblEntries, allSymbols]
  · intro i h1 h2
    have hi : i < 256 := by simpa [allSymbols] using h2
    simp [tblEntries, allSymbols, tblGet, Nat.mod_eq_of_lt hi]

/-- The leaves in terms of the table's values: one for each symbol of positive frequency, in ascending order (R117). -/
theorem leavesOf_eq (freq : Table Word) :
    leavesOf freq =
      (allSymbols.filter fun x => tblGet freq x != 0).map fun x => .leaf x ((tblGet freq x).setWidth 40) := by
  simp [leavesOf, tblEntries_eq, List.filter_map, Function.comp_def]

/-- The smallest symbol with a code longer than MAXLEN, in terms of the table's values (R143). -/
theorem tooLongSymbol_eq (c : Table Code) :
    tooLongSymbol c = allSymbols.find? fun x => decide (maxCodeLen < (tblGet c x).length) := by
  simp [tooLongSymbol, tblEntries_eq, List.find?_map, Function.comp_def]

/-- ORDER as a command writes it: the list, then 0. -/
theorem orderAt_orderTable (xs : List Byte) (k : Nat) (hk : k < 256) : orderAt (orderTable xs) k = xs.getD k 0 := by
  have h : (orderTable xs).toList.length = 256 := by simp
  have hv : (orderTable xs)[k]'hk = xs.getD k 0 := by
    have := tblGet_tblOf (fun j : Byte => xs.getD j.toNat 0) (BitVec.ofNat 8 k)
    simpa [tblGet, orderTable, Nat.mod_eq_of_lt hk] using this
  rw [orderAt, List.getD_eq_getElem _ _ (by omega)]
  simpa using hv

theorem codeTableOf_foldl_absent (es : List (Byte × Code)) (t : Table Code) (x : Byte)
    (h : x ∉ es.map Prod.fst) : tblGet (es.foldl (fun t e => tblSet t e.1 e.2) t) x = tblGet t x := by
  induction es generalizing t with
  | nil => rfl
  | cons e es ih =>
    simp only [List.map_cons, List.mem_cons, not_or] at h
    rw [List.foldl_cons, ih _ h.2, tblGet_tblSet_other _ h.1]

/-- A symbol that no entry names has no code. -/
theorem codeTableOf_absent (es : List (Byte × Code)) (x : Byte) (h : x ∉ es.map Prod.fst) :
    tblGet (codeTableOf es) x = [] := by
  rw [codeTableOf, codeTableOf_foldl_absent es _ x h, tblGet_replicate]

theorem codeTableOf_foldl_present (es : List (Byte × Code)) (t : Table Code) (hn : (es.map Prod.fst).Nodup)
    (e : Byte × Code) (he : e ∈ es) : tblGet (es.foldl (fun t e => tblSet t e.1 e.2) t) e.1 = e.2 := by
  induction es generalizing t with
  | nil => simp at he
  | cons d es ih =>
    simp only [List.map_cons, List.nodup_cons] at hn
    rcases List.mem_cons.1 he with rfl | he
    · rw [List.foldl_cons, codeTableOf_foldl_absent es _ _ hn.1, tblGet_tblSet_same]
    · exact ih _ hn.2 he

/-- With distinct symbols every entry is the code of its symbol. -/
theorem codeTableOf_present (es : List (Byte × Code)) (hn : (es.map Prod.fst).Nodup) (e : Byte × Code) (he : e ∈ es) :
    tblGet (codeTableOf es) e.1 = e.2 :=
  codeTableOf_foldl_present es _ hn e he

/-- The queue holds the inserted key and the old ones (R120). -/
theorem insertKey_perm (k : Key) (q : List Key) : (insertKey k q).Perm (k :: q) := by
  induction q with
  | nil => exact List.Perm.refl _
  | cons h t ih =>
    simp only [insertKey]
    split
    · exact List.Perm.refl _
    · exact (ih.cons h).trans (List.Perm.swap k h t)

theorem keyLt_iff (a b : Key) : keyLt a b = true ↔ a.1 < b.1 ∨ (a.1 = b.1 ∧ a.2 < b.2) := by
  simp [keyLt]

theorem keyLt_trans {a b c : Key} (h : keyLt a b = true) (h' : keyLt b c = true) : keyLt a c = true := by
  rw [keyLt_iff] at *
  omega

/-- Keys of different indices are ordered one way or the other (R119: each argmin has exactly one answer). -/
theorem keyLt_total {a b : Key} (h : a.2 ≠ b.2) (h' : keyLt a b = false) : keyLt b a = true := by
  rw [keyLt_iff]
  have : ¬ (a.1 < b.1 ∨ (a.1 = b.1 ∧ a.2 < b.2)) := by
    rw [← keyLt_iff]
    simp [h']
  omega

/-- Inserting keeps the queue in ascending key order, so that its head is the argmin (R120). -/
theorem insertKey_sorted {k : Key} {q : List Key} (h : q.Pairwise (fun a b => keyLt a b = true))
    (hk : ∀ a ∈ q, a.2 ≠ k.2) : (insertKey k q).Pairwise (fun a b => keyLt a b = true) := by
  induction q with
  | nil => simp [insertKey]
  | cons a t ih =>
    rw [List.pairwise_cons] at h
    simp only [insertKey]
    split
    · rename_i hka
      rw [List.pairwise_cons, List.pairwise_cons]
      refine ⟨?_, h.1, h.2⟩
      intro b hb
      rcases List.mem_cons.1 hb with rfl | hb
      · exact hka
      · exact keyLt_trans hka (h.1 b hb)
    · rename_i hka
      rw [List.pairwise_cons]
      refine ⟨?_, ih h.2 (fun b hb => hk b (List.mem_cons_of_mem _ hb))⟩
      intro b hb
      rcases List.mem_cons.1 ((insertKey_perm k t).mem_iff.1 hb) with rfl | hb
      · exact keyLt_total (fun e => hk a List.mem_cons_self e.symm) (by simpa using hka)
      · exact h.1 b hb

/-- The sorted keys are the keys of the nodes, rearranged (R115). -/
theorem sortedKeys_perm (leaves : List Node) : (sortedKeys leaves).Perm (keysFrom 0 leaves) := by
  have (q : List Key) : (q.foldr insertKey []).Perm q := by
    induction q with
    | nil => exact List.Perm.refl _
    | cons k q ih => exact (insertKey_perm k _).trans (ih.cons k)
  exact this _

end Sys2Proof.Machine
end

