-- ==== Sys2Proof/Laws/Codes.lean ====
section
/-! SUPPORT. Laws/Codes.lean: code tables made from a list of entries are prefix-free when the entries are, and a path in a
node store whose children have lower indices is no longer than the index it starts from. -/

namespace Sys2Proof.Machine

/-- The entries carry distinct symbols and non-empty codes, none the prefix of another entry's. -/
abbrev EntriesOk (es : List (Byte × Code)) : Prop :=
  (es.map Prod.fst).Nodup ∧ (∀ e ∈ es, e.2 ≠ []) ∧ ∀ d ∈ es, ∀ e ∈ es, d.1 ≠ e.1 → ¬ d.2 <+: e.2

/-- A symbol has a code in the table of the entries exactly when an entry names it. -/
theorem tblGet_codeTableOf_ne {es : List (Byte × Code)} (h : EntriesOk es) (x : Byte) :
    tblGet (codeTableOf es) x ≠ [] ↔ x ∈ es.map Prod.fst := by
  constructor
  · intro hx
    by_contra hn
    exact hx (codeTableOf_absent es x hn)
  · intro hx
    obtain ⟨e, he, rfl⟩ := List.mem_map.1 hx
    rw [codeTableOf_present es h.1 e he]
    exact h.2.1 e he

theorem prefixFree_codeTableOf {es : List (Byte × Code)} (h : EntriesOk es) : PrefixFree (codeTableOf es) := by
  intro x y hxy hx hy
  obtain ⟨d, hd, rfl⟩ := List.mem_map.1 ((tblGet_codeTableOf_ne h x).1 hx)
  obtain ⟨e, he, rfl⟩ := List.mem_map.1 ((tblGet_codeTableOf_ne h y).1 hy)
  rw [codeTableOf_present es h.1 d hd, codeTableOf_present es h.1 e he]
  exact h.2.2 d hd e he hxy

/-- ORDER as READ_HEADER writes it lists the symbols (R162). -/
theorem orderList_orderTable (xs : List Byte) (h : xs.length ≤ 256) : orderList (orderTable xs) xs.length = xs := by
  apply List.ext_getElem
  · simp [orderList]
  · intro i h1 h2
    simp only [orderList, List.getElem_map, List.getElem_range]
    rw [orderAt_orderTable xs i (by omega), List.getD_eq_getElem _ _ h2]

/-- A table of acceptable entries, with ORDER listing them, is what CV = 1 promises (R55). -/
theorem codeOk_codeTableOf {es : List (Byte × Code)} (h : EntriesOk es) (h1 : 1 ≤ es.length) (h2 : es.length ≤ 256) :
    CodeOk (codeTableOf es) (orderTable (es.map Prod.fst)) es.length := by
  have hl : orderList (orderTable (es.map Prod.fst)) es.length = es.map Prod.fst := by
    have := orderList_orderTable (es.map Prod.fst) (by simpa using h2)
    simpa using this
  exact ⟨h1, h2, by rw [hl]; exact h.1, fun x => by rw [hl]; exact tblGet_codeTableOf_ne h x,
    prefixFree_codeTableOf h⟩

theorem presentSymbols_eq (freq : Table Word) :
    presentSymbols freq = ((tblEntries freq).filter fun e => e.2 != 0).map Prod.fst := by
  simp [presentSymbols, tblEntries_eq, List.filter_map, Function.comp_def]

theorem totalFreq_eq (freq : Table Word) : totalFreq freq = ((tblEntries freq).map fun e => e.2.toNat).sum := by
  simp [totalFreq, tblEntries_eq, Function.comp_def]

/-- Every child has a lower index than its parent (R116). -/
abbrev ChildrenBelow (ns : List Node) : Prop :=
  ∀ i, i < ns.length → ∀ c ∈ (ns[i]?.map childrenOf).getD [], c < i

/-- A path from node `i` has at most `i` edges. -/
theorem PathTo.length_le {ns : List Node} (hc : ChildrenBelow ns) {i : Nat} {p : Code} {x : Byte}
    (h : PathTo ns i p x) : p.length ≤ i := by
  have below {i : Nat} {n : Node} (hi : ns[i]? = some n) : ∀ c ∈ childrenOf n, c < i := by
    have hl : i < ns.length := (List.getElem?_eq_some_iff.1 hi).1
    simpa [hi] using hc i hl
  induction h with
  | here i x f _ => simp
  | left i f l r p x hi _ ih =>
    have : l < i := below hi l (by cases r <;> simp [childrenOf])
    simp only [List.length_cons]
    omega
  | right i f l r p x hi _ ih =>
    have : r < i := below hi r (by simp [childrenOf])
    simp only [List.length_cons]
    omega

end Sys2Proof.Machine
end

