-- ==== Sys2Proof/Laws/Memory.lean ====
section
/-! SUPPORT. Laws/Memory.lean: the laws of the byte memories (spec/20_memory.md): a read after a write, a write leaves every
other offset alone, every operation keeps the canonical form, and equal contents are equal data. -/

namespace Sys2Proof.Machine

@[simp] theorem lookup_cons_same (a : Nat) (v : Byte) (r : List Host.Cell) : List.lookup a ((a, v) :: r) = some v := by
  simp

theorem lookup_cons_other {a b : Nat} (h : b ≠ a) (v : Byte) (r : List Host.Cell) :
    List.lookup b ((a, v) :: r) = List.lookup b r := by
  have h' : (b == a) = false := by simpa using h
  simp only [List.lookup_cons, h']

theorem lookup_putCell_same (a : Nat) (v : Byte) (l : List Host.Cell) : (putCell a v l).lookup a = some v := by
  induction l with
  | nil => simp [putCell]
  | cons c r ih =>
    obtain ⟨b, w⟩ := c
    simp only [putCell]
    split
    · simp
    · split
      · simp
      · rename_i h1 h2
        rw [lookup_cons_other h2, ih]

theorem lookup_putCell_other {a b : Nat} (h : b ≠ a) (v : Byte) (l : List Host.Cell) :
    (putCell a v l).lookup b = l.lookup b := by
  induction l with
  | nil => exact lookup_cons_other h v []
  | cons c r ih =>
    obtain ⟨d, w⟩ := c
    simp only [putCell]
    split
    · exact lookup_cons_other h v _
    · split
      · rename_i h1 h2
        subst h2
        rw [lookup_cons_other h, lookup_cons_other h]
      · rw [List.lookup_cons, List.lookup_cons, ih]

/-- The offsets of the cells after a write: the written one and the old ones. -/
theorem mem_putCell_fst {a x : Nat} {v : Byte} {l : List Host.Cell} (h : x ∈ (putCell a v l).map Prod.fst) :
    x = a ∨ x ∈ l.map Prod.fst := by
  induction l with
  | nil => simpa [putCell] using h
  | cons c r ih =>
    obtain ⟨b, w⟩ := c
    simp only [putCell] at h
    split at h
    · simpa [putCell] using h
    · split at h
      · rename_i h1 h2
        subst h2
        simp only [List.map_cons, List.mem_cons] at h ⊢
        tauto
      · simp only [List.map_cons, List.mem_cons] at h ⊢
        rcases h with h | h
        · tauto
        · have := ih h
          tauto

theorem pairwise_putCell {a : Nat} {v : Byte} {l : List Host.Cell} (h : (l.map Prod.fst).Pairwise (· < ·)) :
    ((putCell a v l).map Prod.fst).Pairwise (· < ·) := by
  induction l with
  | nil => simp [putCell]
  | cons c r ih =>
    obtain ⟨b, w⟩ := c
    simp only [List.map_cons, List.pairwise_cons] at h
    simp only [putCell]
    split
    · rename_i hab
      simp only [List.map_cons, List.pairwise_cons, List.mem_cons]
      refine ⟨?_, h.1, h.2⟩
      rintro x (rfl | hx)
      · exact hab
      · exact Nat.lt_trans hab (h.1 x hx)
    · split
      · rename_i h1 h2
        subst h2
        simp only [List.map_cons, List.pairwise_cons]
        exact h
      · rename_i h1 h2
        simp only [List.map_cons, List.pairwise_cons]
        refine ⟨?_, ih h.2⟩
        intro x hx
        rcases mem_putCell_fst hx with rfl | hx
        · omega
        · exact h.1 x hx

@[simp] theorem Memory.epoch_write (m : Memory) (a : Nat) (v : Byte) : (m.write a v).epoch = m.epoch := rfl

@[simp] theorem Memory.find_write_same (m : Memory) (a : Nat) (v : Byte) : (m.write a v).find a = some v :=
  lookup_putCell_same a v m.cells

theorem Memory.find_write_other (m : Memory) {a b : Nat} (h : b ≠ a) (v : Byte) :
    (m.write a v).find b = m.find b :=
  lookup_putCell_other h v m.cells

/-- A read after a write to the same offset gives the byte written. -/
@[simp] theorem Memory.read_write_same (m : Memory) (a : Nat) (v : Byte) : (m.write a v).read a = v := by
  simp [Memory.read]

/-- A write leaves every other offset alone. -/
theorem Memory.read_write_other (m : Memory) {a b : Nat} (h : b ≠ a) (v : Byte) :
    (m.write a v).read b = m.read b := by
  simp [Memory.read, Memory.find_write_other m h]

/-- An unspecified memory reads the draws of its epoch (R64, R186). -/
@[simp] theorem Memory.read_unspecified (e a : Nat) : (Memory.unspecified e).read a = Config.freeByte e a := rfl

theorem Memory.wf_write {m : Memory} (h : m.wf) (a : Nat) (v : Byte) : (m.write a v).wf := pairwise_putCell h

theorem Memory.wf_unspecified (e : Nat) : (Memory.unspecified e).wf := List.Pairwise.nil

theorem Memory.bounded_write {m : Memory} {n a : Nat} (h : ∀ c ∈ m.cells, c.1 < n) (ha : a < n) (v : Byte) :
    ∀ c ∈ (m.write a v).cells, c.1 < n := by
  intro c hc
  have : c.1 ∈ (putCell a v m.cells).map Prod.fst := List.mem_map_of_mem hc
  rcases mem_putCell_fst this with h' | h'
  · omega
  · obtain ⟨d, hd, he⟩ := List.mem_map.1 h'
    exact he ▸ h d hd

@[simp] theorem Memory.writeBytes_nil (m : Memory) (a : Nat) : m.writeBytes a [] = m := rfl

theorem Memory.writeBytes_cons (m : Memory) (a : Nat) (b : Byte) (bs : List Byte) :
    m.writeBytes a (b :: bs) = (m.write a b).writeBytes (a + 1) bs := rfl

@[simp] theorem Memory.epoch_writeBytes (m : Memory) (a : Nat) (bs : List Byte) :
    (m.writeBytes a bs).epoch = m.epoch := by
  induction bs generalizing m a with
  | nil => rfl
  | cons b bs ih => rw [Memory.writeBytes_cons, ih, Memory.epoch_write]

/-- Outside the bytes written every offset reads as before. -/
theorem Memory.read_writeBytes_outside (m : Memory) (a x : Nat) (bs : List Byte) (h : x < a ∨ a + bs.length ≤ x) :
    (m.writeBytes a bs).read x = m.read x := by
  induction bs generalizing m a with
  | nil => rfl
  | cons b bs ih =>
    simp only [List.length_cons] at h
    rw [Memory.writeBytes_cons, ih _ _ (by omega), Memory.read_write_other _ (by omega)]

/-- The bytes written read back. -/
theorem Memory.read_writeBytes_inside (m : Memory) (a i : Nat) (bs : List Byte) (h : i < bs.length) :
    (m.writeBytes a bs).read (a + i) = bs.getD i 0 := by
  induction bs generalizing m a i with
  | nil => simp at h
  | cons b bs ih =>
    rw [Memory.writeBytes_cons]
    cases i with
    | zero => simp [Memory.read_writeBytes_outside _ (a + 1) a bs (by omega)]
    | succ i =>
      have hi : i < bs.length := by simpa using h
      have := ih (m.write a b) (a + 1) i hi
      rw [show a + (i + 1) = a + 1 + i by omega, this]
      simp

theorem Memory.wf_writeBytes {m : Memory} (h : m.wf) (a : Nat) (bs : List Byte) : (m.writeBytes a bs).wf := by
  induction bs generalizing m a with
  | nil => exact h
  | cons b bs ih => exact ih (Memory.wf_write h a b) (a + 1)

theorem Memory.bounded_writeBytes {m : Memory} {n : Nat} (a : Nat) (bs : List Byte) (h : ∀ c ∈ m.cells, c.1 < n)
    (ha : a + bs.length ≤ n) : ∀ c ∈ (m.writeBytes a bs).cells, c.1 < n := by
  induction bs generalizing m a with
  | nil => exact h
  | cons b bs ih =>
    simp only [List.length_cons] at ha
    exact ih (a + 1) (Memory.bounded_write h (by omega) b) (by omega)

theorem lookup_eq_none_of_lt {a : Nat} {l : List Host.Cell} (h : ∀ x ∈ l.map Prod.fst, a < x) : l.lookup a = none := by
  induction l with
  | nil => rfl
  | cons c r ih =>
    simp only [List.map_cons, List.mem_cons, forall_eq_or_imp] at h
    have : a ≠ c.1 := by omega
    rw [lookup_cons_other (v := c.2) this, ih h.2]

theorem cells_ext {l k : List Host.Cell} (hl : (l.map Prod.fst).Pairwise (· < ·))
    (hk : (k.map Prod.fst).Pairwise (· < ·)) (h : ∀ a, l.lookup a = k.lookup a) : l = k := by
  induction l generalizing k with
  | nil =>
    cases k with
    | nil => rfl
    | cons c r =>
      have := h c.1
      rw [lookup_cons_same c.1 c.2 r] at this
      cases this
  | cons c r ih =>
    cases k with
    | nil =>
      have := h c.1
      rw [lookup_cons_same c.1 c.2 r] at this
      cases this
    | cons d q =>
      simp only [List.map_cons, List.pairwise_cons] at hl hk
      have hcd : c.1 = d.1 := by
        rcases Nat.lt_trichotomy c.1 d.1 with h' | h' | h'
        · have hn : (d :: q).lookup c.1 = none := by
            apply lookup_eq_none_of_lt
            intro x hx
            simp only [List.map_cons, List.mem_cons] at hx
            rcases hx with rfl | hx
            · exact h'
            · exact Nat.lt_trans h' (hk.1 x hx)
          have := h c.1
          rw [hn, lookup_cons_same c.1 c.2 r] at this
          cases this
        · exact h'
        · have hn : (c :: r).lookup d.1 = none := by
            apply lookup_eq_none_of_lt
            intro x hx
            simp only [List.map_cons, List.mem_cons] at hx
            rcases hx with rfl | hx
            · exact h'
            · exact Nat.lt_trans h' (hl.1 x hx)
          have := h d.1
          rw [hn, lookup_cons_same d.1 d.2 q] at this
          cases this
      have hv : c.2 = d.2 := by
        have := h c.1
        obtain ⟨c1, c2⟩ := c
        obtain ⟨d1, d2⟩ := d
        simp only at hcd
        subst hcd
        simpa using this
      have hcd' : c = d := Prod.ext hcd hv
      subst hcd'
      congr 1
      apply ih hl.2 hk.2
      intro a
      by_cases ha : a = c.1
      · subst ha
        rw [lookup_eq_none_of_lt (fun x hx => hl.1 x hx), lookup_eq_none_of_lt (fun x hx => hk.1 x hx)]
      · have := h a
        rwa [lookup_cons_other (v := c.2) ha, lookup_cons_other (v := c.2) ha] at this

/-- Two memories in canonical form, of one draw, that hold the same bytes at every offset are equal data. -/
theorem Memory.ext_of_find {m k : Memory} (hm : m.wf) (hk : k.wf) (he : m.epoch = k.epoch)
    (h : ∀ a, m.find a = k.find a) : m = k := by
  obtain ⟨e, l⟩ := m
  obtain ⟨e', l'⟩ := k
  simp only at he
  subst he
  congr 1
  exact cells_ext hm hk h

end Sys2Proof.Machine
end

