-- ==== Sys2Proof/Laws/PerInstr.lean ====
section
/-! SUPPORT. Laws/PerInstr.lean: the family `Encoding` over the commands as syntax: the word of a command is well formed
and decodes to it (spec/30_encoding.md rules R85, R86, R90). -/

namespace Sys2Proof.Laws.Encoding

/-- The command's word has bits [31:8] = 0 and an assigned opcode, and both decoders read the command from it. -/
def Statement (i : Instr) : Prop :=
  wordWellFormed (encode i) = true ∧ decode (encode i) = .ok i ∧ decodeTableWord 32 (encode i).toNat = some i

theorem encode : Statement .encode := by unfold Statement; decide
theorem decode : Statement .decode := by unfold Statement; decide
theorem count : Statement .count := by unfold Statement; decide
theorem buildTree : Statement .buildTree := by unfold Statement; decide
theorem genCodes : Statement .genCodes := by unfold Statement; decide
theorem writeHeader : Statement .writeHeader := by unfold Statement; decide
theorem pack : Statement .pack := by unfold Statement; decide
theorem readHeader : Statement .readHeader := by unfold Statement; decide
theorem unpack : Statement .unpack := by unfold Statement; decide
theorem clear : Statement .clear := by unfold Statement; decide

end Sys2Proof.Laws.Encoding
end

