-- ==== Sys2Proof/Laws/State.lean ====
section
/-! SUPPORT. Laws/State.lean: one lemma per field for each named update of the state, true by definition, so that no
later proof unfolds a record update. -/

namespace Sys2Proof.Machine

/-! ### command issue (R212) -/

@[simp] theorem State.issue_cfg (s : State) (w : Word) : (s.issue w).cfg = s.cfg := rfl
@[simp] theorem State.issue_cmd (s : State) (w : Word) : (s.issue w).cmd = w := rfl
@[simp] theorem State.issue_busy (s : State) (w : Word) : (s.issue w).busy = true := rfl
@[simp] theorem State.issue_done (s : State) (w : Word) : (s.issue w).done = false := rfl
@[simp] theorem State.issue_err (s : State) (w : Word) : (s.issue w).err = false := rfl
@[simp] theorem State.issue_accErr (s : State) (w : Word) : (s.issue w).accErr = s.accErr := rfl
@[simp] theorem State.issue_errCode (s : State) (w : Word) : (s.issue w).errCode = 0 := rfl
@[simp] theorem State.issue_fv (s : State) (w : Word) : (s.issue w).fv = s.fv := rfl
@[simp] theorem State.issue_tv (s : State) (w : Word) : (s.issue w).tv = s.tv := rfl
@[simp] theorem State.issue_cv (s : State) (w : Word) : (s.issue w).cv = s.cv := rfl
@[simp] theorem State.issue_hv (s : State) (w : Word) : (s.issue w).hv = s.hv := rfl
@[simp] theorem State.issue_ie (s : State) (w : Word) : (s.issue w).ie = s.ie := rfl
@[simp] theorem State.issue_inLen (s : State) (w : Word) : (s.issue w).inLen = s.inLen := rfl
@[simp] theorem State.issue_outLen (s : State) (w : Word) : (s.issue w).outLen = s.outLen := rfl
@[simp] theorem State.issue_hdrLen (s : State) (w : Word) : (s.issue w).hdrLen = s.hdrLen := rfl
@[simp] theorem State.issue_nSym (s : State) (w : Word) : (s.issue w).nSym = s.nSym := rfl
@[simp] theorem State.issue_maxLen (s : State) (w : Word) : (s.issue w).maxLen = s.maxLen := rfl
@[simp] theorem State.issue_pad (s : State) (w : Word) : (s.issue w).pad = s.pad := rfl
@[simp] theorem State.issue_errSub (s : State) (w : Word) : (s.issue w).errSub = 0 := rfl
@[simp] theorem State.issue_errStage (s : State) (w : Word) : (s.issue w).errStage = 0 := rfl
@[simp] theorem State.issue_errAddr (s : State) (w : Word) : (s.issue w).errAddr = 0 := rfl
@[simp] theorem State.issue_tblIdx (s : State) (w : Word) : (s.issue w).tblIdx = s.tblIdx := rfl
@[simp] theorem State.issue_freq (s : State) (w : Word) : (s.issue w).freq = s.freq := rfl
@[simp] theorem State.issue_code (s : State) (w : Word) : (s.issue w).code = s.code := rfl
@[simp] theorem State.issue_order (s : State) (w : Word) : (s.issue w).order = s.order := rfl
@[simp] theorem State.issue_node (s : State) (w : Word) : (s.issue w).node = s.node := rfl
@[simp] theorem State.issue_root (s : State) (w : Word) : (s.issue w).root = s.root := rfl
@[simp] theorem State.issue_inMem (s : State) (w : Word) : (s.issue w).inMem = s.inMem := rfl
@[simp] theorem State.issue_outMem (s : State) (w : Word) : (s.issue w).outMem = s.outMem := rfl
@[simp] theorem State.issue_draws (s : State) (w : Word) : (s.issue w).draws = s.draws := rfl
@[simp] theorem State.issue_inputs (s : State) (w : Word) : (s.issue w).inputs = s.inputs := rfl
@[simp] theorem State.issue_turns (s : State) (w : Word) : (s.issue w).turns = s.turns := rfl
@[simp] theorem State.issue_rdata (s : State) (w : Word) : (s.issue w).rdata = s.rdata := rfl

/-! ### successful completion (R213) -/

@[simp] theorem State.complete_cfg (s : State) : (s.complete).cfg = s.cfg := rfl
@[simp] theorem State.complete_cmd (s : State) : (s.complete).cmd = s.cmd := rfl
@[simp] theorem State.complete_busy (s : State) : (s.complete).busy = false := rfl
@[simp] theorem State.complete_done (s : State) : (s.complete).done = true := rfl
@[simp] theorem State.complete_err (s : State) : (s.complete).err = s.err := rfl
@[simp] theorem State.complete_accErr (s : State) : (s.complete).accErr = s.accErr := rfl
@[simp] theorem State.complete_errCode (s : State) : (s.complete).errCode = s.errCode := rfl
@[simp] theorem State.complete_fv (s : State) : (s.complete).fv = s.fv := rfl
@[simp] theorem State.complete_tv (s : State) : (s.complete).tv = s.tv := rfl
@[simp] theorem State.complete_cv (s : State) : (s.complete).cv = s.cv := rfl
@[simp] theorem State.complete_hv (s : State) : (s.complete).hv = s.hv := rfl
@[simp] theorem State.complete_ie (s : State) : (s.complete).ie = s.ie := rfl
@[simp] theorem State.complete_inLen (s : State) : (s.complete).inLen = s.inLen := rfl
@[simp] theorem State.complete_outLen (s : State) : (s.complete).outLen = s.outLen := rfl
@[simp] theorem State.complete_hdrLen (s : State) : (s.complete).hdrLen = s.hdrLen := rfl
@[simp] theorem State.complete_nSym (s : State) : (s.complete).nSym = s.nSym := rfl
@[simp] theorem State.complete_maxLen (s : State) : (s.complete).maxLen = s.maxLen := rfl
@[simp] theorem State.complete_pad (s : State) : (s.complete).pad = s.pad := rfl
@[simp] theorem State.complete_errSub (s : State) : (s.complete).errSub = s.errSub := rfl
@[simp] theorem State.complete_errStage (s : State) : (s.complete).errStage = s.errStage := rfl
@[simp] theorem State.complete_errAddr (s : State) : (s.complete).errAddr = s.errAddr := rfl
@[simp] theorem State.complete_tblIdx (s : State) : (s.complete).tblIdx = s.tblIdx := rfl
@[simp] theorem State.complete_freq (s : State) : (s.complete).freq = s.freq := rfl
@[simp] theorem State.complete_code (s : State) : (s.complete).code = s.code := rfl
@[simp] theorem State.complete_order (s : State) : (s.complete).order = s.order := rfl
@[simp] theorem State.complete_node (s : State) : (s.complete).node = s.node := rfl
@[simp] theorem State.complete_root (s : State) : (s.complete).root = s.root := rfl
@[simp] theorem State.complete_inMem (s : State) : (s.complete).inMem = s.inMem := rfl
@[simp] theorem State.complete_outMem (s : State) : (s.complete).outMem = s.outMem := rfl
@[simp] theorem State.complete_draws (s : State) : (s.complete).draws = s.draws := rfl
@[simp] theorem State.complete_inputs (s : State) : (s.complete).inputs = s.inputs := rfl
@[simp] theorem State.complete_turns (s : State) : (s.complete).turns = s.turns := rfl
@[simp] theorem State.complete_rdata (s : State) : (s.complete).rdata = s.rdata := rfl

/-! ### error completion (R214) -/

@[simp] theorem State.errorComplete_cfg (s : State) (e : CmdErr) (sub st : Byte) (a : Word) : (s.errorComplete e sub st a).cfg = s.cfg := rfl
@[simp] theorem State.errorComplete_cmd (s : State) (e : CmdErr) (sub st : Byte) (a : Word) : (s.errorComplete e sub st a).cmd = s.cmd := rfl
@[simp] theorem State.errorComplete_busy (s : State) (e : CmdErr) (sub st : Byte) (a : Word) : (s.errorComplete e sub st a).busy = false := rfl
@[simp] theorem State.errorComplete_done (s : State) (e : CmdErr) (sub st : Byte) (a : Word) : (s.errorComplete e sub st a).done = true := rfl
@[simp] theorem State.errorComplete_err (s : State) (e : CmdErr) (sub st : Byte) (a : Word) : (s.errorComplete e sub st a).err = true := rfl
@[simp] theorem State.errorComplete_accErr (s : State) (e : CmdErr) (sub st : Byte) (a : Word) : (s.errorComplete e sub st a).accErr = s.accErr := rfl
@[simp] theorem State.errorComplete_errCode (s : State) (e : CmdErr) (sub st : Byte) (a : Word) : (s.errorComplete e sub st a).errCode = e.code := rfl
@[simp] theorem State.errorComplete_fv (s : State) (e : CmdErr) (sub st : Byte) (a : Word) : (s.errorComplete e sub st a).fv = s.fv := rfl
@[simp] theorem State.errorComplete_tv (s : State) (e : CmdErr) (sub st : Byte) (a : Word) : (s.errorComplete e sub st a).tv = s.tv := rfl
@[simp] theorem State.errorComplete_cv (s : State) (e : CmdErr) (sub st : Byte) (a : Word) : (s.errorComplete e sub st a).cv = s.cv := rfl
@[simp] theorem State.errorComplete_hv (s : State) (e : CmdErr) (sub st : Byte) (a : Word) : (s.errorComplete e sub st a).hv = s.hv := rfl
@[simp] theorem State.errorComplete_ie (s : State) (e : CmdErr) (sub st : Byte) (a : Word) : (s.errorComplete e sub st a).ie = s.ie := rfl
@[simp] theorem State.errorComplete_inLen (s : State) (e : CmdErr) (sub st : Byte) (a : Word) : (s.errorComplete e sub st a).inLen = s.inLen := rfl
@[simp] theorem State.errorComplete_outLen (s : State) (e : CmdErr) (sub st : Byte) (a : Word) : (s.errorComplete e sub st a).outLen = s.outLen := rfl
@[simp] theorem State.errorComplete_hdrLen (s : State) (e : CmdErr) (sub st : Byte) (a : Word) : (s.errorComplete e sub st a).hdrLen = s.hdrLen := rfl
@[simp] theorem State.errorComplete_nSym (s : State) (e : CmdErr) (sub st : Byte) (a : Word) : (s.errorComplete e sub st a).nSym = s.nSym := rfl
@[simp] theorem State.errorComplete_maxLen (s : State) (e : CmdErr) (sub st : Byte) (a : Word) : (s.errorComplete e sub st a).maxLen = s.maxLen := rfl
@[simp] theorem State.errorComplete_pad (s : State) (e : CmdErr) (sub st : Byte) (a : Word) : (s.errorComplete e sub st a).pad = s.pad := rfl
@[simp] theorem State.errorComplete_errSub (s : State) (e : CmdErr) (sub st : Byte) (a : Word) : (s.errorComplete e sub st a).errSub = sub := rfl
@[simp] theorem State.errorComplete_errStage (s : State) (e : CmdErr) (sub st : Byte) (a : Word) : (s.errorComplete e sub st a).errStage = st := rfl
@[simp] theorem State.errorComplete_errAddr (s : State) (e : CmdErr) (sub st : Byte) (a : Word) : (s.errorComplete e sub st a).errAddr = a := rfl
@[simp] theorem State.errorComplete_tblIdx (s : State) (e : CmdErr) (sub st : Byte) (a : Word) : (s.errorComplete e sub st a).tblIdx = s.tblIdx := rfl
@[simp] theorem State.errorComplete_freq (s : State) (e : CmdErr) (sub st : Byte) (a : Word) : (s.errorComplete e sub st a).freq = s.freq := rfl
@[simp] theorem State.errorComplete_code (s : State) (e : CmdErr) (sub st : Byte) (a : Word) : (s.errorComplete e sub st a).code = s.code := rfl
@[simp] theorem State.errorComplete_order (s : State) (e : CmdErr) (sub st : Byte) (a : Word) : (s.errorComplete e sub st a).order = s.order := rfl
@[simp] theorem State.errorComplete_node (s : State) (e : CmdErr) (sub st : Byte) (a : Word) : (s.errorComplete e sub st a).node = s.node := rfl
@[simp] theorem State.errorComplete_root (s : State) (e : CmdErr) (sub st : Byte) (a : Word) : (s.errorComplete e sub st a).root = s.root := rfl
@[simp] theorem State.errorComplete_inMem (s : State) (e : CmdErr) (sub st : Byte) (a : Word) : (s.errorComplete e sub st a).inMem = s.inMem := rfl
@[simp] theorem State.errorComplete_outMem (s : State) (e : CmdErr) (sub st : Byte) (a : Word) : (s.errorComplete e sub st a).outMem = s.outMem := rfl
@[simp] theorem State.errorComplete_draws (s : State) (e : CmdErr) (sub st : Byte) (a : Word) : (s.errorComplete e sub st a).draws = s.draws := rfl
@[simp] theorem State.errorComplete_inputs (s : State) (e : CmdErr) (sub st : Byte) (a : Word) : (s.errorComplete e sub st a).inputs = s.inputs := rfl
@[simp] theorem State.errorComplete_turns (s : State) (e : CmdErr) (sub st : Byte) (a : Word) : (s.errorComplete e sub st a).turns = s.turns := rfl
@[simp] theorem State.errorComplete_rdata (s : State) (e : CmdErr) (sub st : Byte) (a : Word) : (s.errorComplete e sub st a).rdata = s.rdata := rfl

/-! ### a STATUS write (R32) -/

@[simp] theorem State.statusWrite_cfg (s : State) (v : Word) : (s.statusWrite v).cfg = s.cfg := rfl
@[simp] theorem State.statusWrite_cmd (s : State) (v : Word) : (s.statusWrite v).cmd = s.cmd := rfl
@[simp] theorem State.statusWrite_busy (s : State) (v : Word) : (s.statusWrite v).busy = s.busy := rfl
@[simp] theorem State.statusWrite_done (s : State) (v : Word) : (s.statusWrite v).done = (s.done && !v.getLsbD 1) := rfl
@[simp] theorem State.statusWrite_err (s : State) (v : Word) : (s.statusWrite v).err = (s.err && !v.getLsbD 2) := rfl
@[simp] theorem State.statusWrite_accErr (s : State) (v : Word) : (s.statusWrite v).accErr = (s.accErr && !v.getLsbD 3) := rfl
@[simp] theorem State.statusWrite_errCode (s : State) (v : Word) : (s.statusWrite v).errCode = s.errCode := rfl
@[simp] theorem State.statusWrite_fv (s : State) (v : Word) : (s.statusWrite v).fv = s.fv := rfl
@[simp] theorem State.statusWrite_tv (s : State) (v : Word) : (s.statusWrite v).tv = s.tv := rfl
@[simp] theorem State.statusWrite_cv (s : State) (v : Word) : (s.statusWrite v).cv = s.cv := rfl
@[simp] theorem State.statusWrite_hv (s : State) (v : Word) : (s.statusWrite v).hv = s.hv := rfl
@[simp] theorem State.statusWrite_ie (s : State) (v : Word) : (s.statusWrite v).ie = s.ie := rfl
@[simp] theorem State.statusWrite_inLen (s : State) (v : Word) : (s.statusWrite v).inLen = s.inLen := rfl
@[simp] theorem State.statusWrite_outLen (s : State) (v : Word) : (s.statusWrite v).outLen = s.outLen := rfl
@[simp] theorem State.statusWrite_hdrLen (s : State) (v : Word) : (s.statusWrite v).hdrLen = s.hdrLen := rfl
@[simp] theorem State.statusWrite_nSym (s : State) (v : Word) : (s.statusWrite v).nSym = s.nSym := rfl
@[simp] theorem State.statusWrite_maxLen (s : State) (v : Word) : (s.statusWrite v).maxLen = s.maxLen := rfl
@[simp] theorem State.statusWrite_pad (s : State) (v : Word) : (s.statusWrite v).pad = s.pad := rfl
@[simp] theorem State.statusWrite_errSub (s : State) (v : Word) : (s.statusWrite v).errSub = s.errSub := rfl
@[simp] theorem State.statusWrite_errStage (s : State) (v : Word) : (s.statusWrite v).errStage = s.errStage := rfl
@[simp] theorem State.statusWrite_errAddr (s : State) (v : Word) : (s.statusWrite v).errAddr = s.errAddr := rfl
@[simp] theorem State.statusWrite_tblIdx (s : State) (v : Word) : (s.statusWrite v).tblIdx = s.tblIdx := rfl
@[simp] theorem State.statusWrite_freq (s : State) (v : Word) : (s.statusWrite v).freq = s.freq := rfl
@[simp] theorem State.statusWrite_code (s : State) (v : Word) : (s.statusWrite v).code = s.code := rfl
@[simp] theorem State.statusWrite_order (s : State) (v : Word) : (s.statusWrite v).order = s.order := rfl
@[simp] theorem State.statusWrite_node (s : State) (v : Word) : (s.statusWrite v).node = s.node := rfl
@[simp] theorem State.statusWrite_root (s : State) (v : Word) : (s.statusWrite v).root = s.root := rfl
@[simp] theorem State.statusWrite_inMem (s : State) (v : Word) : (s.statusWrite v).inMem = s.inMem := rfl
@[simp] theorem State.statusWrite_outMem (s : State) (v : Word) : (s.statusWrite v).outMem = s.outMem := rfl
@[simp] theorem State.statusWrite_draws (s : State) (v : Word) : (s.statusWrite v).draws = s.draws := rfl
@[simp] theorem State.statusWrite_inputs (s : State) (v : Word) : (s.statusWrite v).inputs = s.inputs := rfl
@[simp] theorem State.statusWrite_turns (s : State) (v : Word) : (s.statusWrite v).turns = s.turns := rfl
@[simp] theorem State.statusWrite_rdata (s : State) (v : Word) : (s.statusWrite v).rdata = s.rdata := rfl

/-! ### the valid flags of COUNT and FREQ_DATA (R205) -/

@[simp] theorem State.freqFlags_cfg (s : State) : (s.freqFlags).cfg = s.cfg := rfl
@[simp] theorem State.freqFlags_cmd (s : State) : (s.freqFlags).cmd = s.cmd := rfl
@[simp] theorem State.freqFlags_busy (s : State) : (s.freqFlags).busy = s.busy := rfl
@[simp] theorem State.freqFlags_done (s : State) : (s.freqFlags).done = s.done := rfl
@[simp] theorem State.freqFlags_err (s : State) : (s.freqFlags).err = s.err := rfl
@[simp] theorem State.freqFlags_accErr (s : State) : (s.freqFlags).accErr = s.accErr := rfl
@[simp] theorem State.freqFlags_errCode (s : State) : (s.freqFlags).errCode = s.errCode := rfl
@[simp] theorem State.freqFlags_fv (s : State) : (s.freqFlags).fv = true := rfl
@[simp] theorem State.freqFlags_tv (s : State) : (s.freqFlags).tv = false := rfl
@[simp] theorem State.freqFlags_cv (s : State) : (s.freqFlags).cv = false := rfl
@[simp] theorem State.freqFlags_hv (s : State) : (s.freqFlags).hv = false := rfl
@[simp] theorem State.freqFlags_ie (s : State) : (s.freqFlags).ie = s.ie := rfl
@[simp] theorem State.freqFlags_inLen (s : State) : (s.freqFlags).inLen = s.inLen := rfl
@[simp] theorem State.freqFlags_outLen (s : State) : (s.freqFlags).outLen = s.outLen := rfl
@[simp] theorem State.freqFlags_hdrLen (s : State) : (s.freqFlags).hdrLen = s.hdrLen := rfl
@[simp] theorem State.freqFlags_nSym (s : State) : (s.freqFlags).nSym = s.nSym := rfl
@[simp] theorem State.freqFlags_maxLen (s : State) : (s.freqFlags).maxLen = s.maxLen := rfl
@[simp] theorem State.freqFlags_pad (s : State) : (s.freqFlags).pad = s.pad := rfl
@[simp] theorem State.freqFlags_errSub (s : State) : (s.freqFlags).errSub = s.errSub := rfl
@[simp] theorem State.freqFlags_errStage (s : State) : (s.freqFlags).errStage = s.errStage := rfl
@[simp] theorem State.freqFlags_errAddr (s : State) : (s.freqFlags).errAddr = s.errAddr := rfl
@[simp] theorem State.freqFlags_tblIdx (s : State) : (s.freqFlags).tblIdx = s.tblIdx := rfl
@[simp] theorem State.freqFlags_freq (s : State) : (s.freqFlags).freq = s.freq := rfl
@[simp] theorem State.freqFlags_code (s : State) : (s.freqFlags).code = s.code := rfl
@[simp] theorem State.freqFlags_order (s : State) : (s.freqFlags).order = s.order := rfl
@[simp] theorem State.freqFlags_node (s : State) : (s.freqFlags).node = s.node := rfl
@[simp] theorem State.freqFlags_root (s : State) : (s.freqFlags).root = s.root := rfl
@[simp] theorem State.freqFlags_inMem (s : State) : (s.freqFlags).inMem = s.inMem := rfl
@[simp] theorem State.freqFlags_outMem (s : State) : (s.freqFlags).outMem = s.outMem := rfl
@[simp] theorem State.freqFlags_draws (s : State) : (s.freqFlags).draws = s.draws := rfl
@[simp] theorem State.freqFlags_inputs (s : State) : (s.freqFlags).inputs = s.inputs := rfl
@[simp] theorem State.freqFlags_turns (s : State) : (s.freqFlags).turns = s.turns := rfl
@[simp] theorem State.freqFlags_rdata (s : State) : (s.freqFlags).rdata = s.rdata := rfl

/-! ### the valid flags of BUILD_TREE (R205) -/

@[simp] theorem State.treeFlags_cfg (s : State) : (s.treeFlags).cfg = s.cfg := rfl
@[simp] theorem State.treeFlags_cmd (s : State) : (s.treeFlags).cmd = s.cmd := rfl
@[simp] theorem State.treeFlags_busy (s : State) : (s.treeFlags).busy = s.busy := rfl
@[simp] theorem State.treeFlags_done (s : State) : (s.treeFlags).done = s.done := rfl
@[simp] theorem State.treeFlags_err (s : State) : (s.treeFlags).err = s.err := rfl
@[simp] theorem State.treeFlags_accErr (s : State) : (s.treeFlags).accErr = s.accErr := rfl
@[simp] theorem State.treeFlags_errCode (s : State) : (s.treeFlags).errCode = s.errCode := rfl
@[simp] theorem State.treeFlags_fv (s : State) : (s.treeFlags).fv = s.fv := rfl
@[simp] theorem State.treeFlags_tv (s : State) : (s.treeFlags).tv = true := rfl
@[simp] theorem State.treeFlags_cv (s : State) : (s.treeFlags).cv = false := rfl
@[simp] theorem State.treeFlags_hv (s : State) : (s.treeFlags).hv = false := rfl
@[simp] theorem State.treeFlags_ie (s : State) : (s.treeFlags).ie = s.ie := rfl
@[simp] theorem State.treeFlags_inLen (s : State) : (s.treeFlags).inLen = s.inLen := rfl
@[simp] theorem State.treeFlags_outLen (s : State) : (s.treeFlags).outLen = s.outLen := rfl
@[simp] theorem State.treeFlags_hdrLen (s : State) : (s.treeFlags).hdrLen = s.hdrLen := rfl
@[simp] theorem State.treeFlags_nSym (s : State) : (s.treeFlags).nSym = s.nSym := rfl
@[simp] theorem State.treeFlags_maxLen (s : State) : (s.treeFlags).maxLen = s.maxLen := rfl
@[simp] theorem State.treeFlags_pad (s : State) : (s.treeFlags).pad = s.pad := rfl
@[simp] theorem State.treeFlags_errSub (s : State) : (s.treeFlags).errSub = s.errSub := rfl
@[simp] theorem State.treeFlags_errStage (s : State) : (s.treeFlags).errStage = s.errStage := rfl
@[simp] theorem State.treeFlags_errAddr (s : State) : (s.treeFlags).errAddr = s.errAddr := rfl
@[simp] theorem State.treeFlags_tblIdx (s : State) : (s.treeFlags).tblIdx = s.tblIdx := rfl
@[simp] theorem State.treeFlags_freq (s : State) : (s.treeFlags).freq = s.freq := rfl
@[simp] theorem State.treeFlags_code (s : State) : (s.treeFlags).code = s.code := rfl
@[simp] theorem State.treeFlags_order (s : State) : (s.treeFlags).order = s.order := rfl
@[simp] theorem State.treeFlags_node (s : State) : (s.treeFlags).node = s.node := rfl
@[simp] theorem State.treeFlags_root (s : State) : (s.treeFlags).root = s.root := rfl
@[simp] theorem State.treeFlags_inMem (s : State) : (s.treeFlags).inMem = s.inMem := rfl
@[simp] theorem State.treeFlags_outMem (s : State) : (s.treeFlags).outMem = s.outMem := rfl
@[simp] theorem State.treeFlags_draws (s : State) : (s.treeFlags).draws = s.draws := rfl
@[simp] theorem State.treeFlags_inputs (s : State) : (s.treeFlags).inputs = s.inputs := rfl
@[simp] theorem State.treeFlags_turns (s : State) : (s.treeFlags).turns = s.turns := rfl
@[simp] theorem State.treeFlags_rdata (s : State) : (s.treeFlags).rdata = s.rdata := rfl

/-! ### the valid flags of GEN_CODES (R205) -/

@[simp] theorem State.codeFlags_cfg (s : State) : (s.codeFlags).cfg = s.cfg := rfl
@[simp] theorem State.codeFlags_cmd (s : State) : (s.codeFlags).cmd = s.cmd := rfl
@[simp] theorem State.codeFlags_busy (s : State) : (s.codeFlags).busy = s.busy := rfl
@[simp] theorem State.codeFlags_done (s : State) : (s.codeFlags).done = s.done := rfl
@[simp] theorem State.codeFlags_err (s : State) : (s.codeFlags).err = s.err := rfl
@[simp] theorem State.codeFlags_accErr (s : State) : (s.codeFlags).accErr = s.accErr := rfl
@[simp] theorem State.codeFlags_errCode (s : State) : (s.codeFlags).errCode = s.errCode := rfl
@[simp] theorem State.codeFlags_fv (s : State) : (s.codeFlags).fv = s.fv := rfl
@[simp] theorem State.codeFlags_tv (s : State) : (s.codeFlags).tv = s.tv := rfl
@[simp] theorem State.codeFlags_cv (s : State) : (s.codeFlags).cv = true := rfl
@[simp] theorem State.codeFlags_hv (s : State) : (s.codeFlags).hv = false := rfl
@[simp] theorem State.codeFlags_ie (s : State) : (s.codeFlags).ie = s.ie := rfl
@[simp] theorem State.codeFlags_inLen (s : State) : (s.codeFlags).inLen = s.inLen := rfl
@[simp] theorem State.codeFlags_outLen (s : State) : (s.codeFlags).outLen = s.outLen := rfl
@[simp] theorem State.codeFlags_hdrLen (s : State) : (s.codeFlags).hdrLen = s.hdrLen := rfl
@[simp] theorem State.codeFlags_nSym (s : State) : (s.codeFlags).nSym = s.nSym := rfl
@[simp] theorem State.codeFlags_maxLen (s : State) : (s.codeFlags).maxLen = s.maxLen := rfl
@[simp] theorem State.codeFlags_pad (s : State) : (s.codeFlags).pad = s.pad := rfl
@[simp] theorem State.codeFlags_errSub (s : State) : (s.codeFlags).errSub = s.errSub := rfl
@[simp] theorem State.codeFlags_errStage (s : State) : (s.codeFlags).errStage = s.errStage := rfl
@[simp] theorem State.codeFlags_errAddr (s : State) : (s.codeFlags).errAddr = s.errAddr := rfl
@[simp] theorem State.codeFlags_tblIdx (s : State) : (s.codeFlags).tblIdx = s.tblIdx := rfl
@[simp] theorem State.codeFlags_freq (s : State) : (s.codeFlags).freq = s.freq := rfl
@[simp] theorem State.codeFlags_code (s : State) : (s.codeFlags).code = s.code := rfl
@[simp] theorem State.codeFlags_order (s : State) : (s.codeFlags).order = s.order := rfl
@[simp] theorem State.codeFlags_node (s : State) : (s.codeFlags).node = s.node := rfl
@[simp] theorem State.codeFlags_root (s : State) : (s.codeFlags).root = s.root := rfl
@[simp] theorem State.codeFlags_inMem (s : State) : (s.codeFlags).inMem = s.inMem := rfl
@[simp] theorem State.codeFlags_outMem (s : State) : (s.codeFlags).outMem = s.outMem := rfl
@[simp] theorem State.codeFlags_draws (s : State) : (s.codeFlags).draws = s.draws := rfl
@[simp] theorem State.codeFlags_inputs (s : State) : (s.codeFlags).inputs = s.inputs := rfl
@[simp] theorem State.codeFlags_turns (s : State) : (s.codeFlags).turns = s.turns := rfl
@[simp] theorem State.codeFlags_rdata (s : State) : (s.codeFlags).rdata = s.rdata := rfl

/-! ### the valid flags of READ_HEADER (R205) -/

@[simp] theorem State.headerFlags_cfg (s : State) : (s.headerFlags).cfg = s.cfg := rfl
@[simp] theorem State.headerFlags_cmd (s : State) : (s.headerFlags).cmd = s.cmd := rfl
@[simp] theorem State.headerFlags_busy (s : State) : (s.headerFlags).busy = s.busy := rfl
@[simp] theorem State.headerFlags_done (s : State) : (s.headerFlags).done = s.done := rfl
@[simp] theorem State.headerFlags_err (s : State) : (s.headerFlags).err = s.err := rfl
@[simp] theorem State.headerFlags_accErr (s : State) : (s.headerFlags).accErr = s.accErr := rfl
@[simp] theorem State.headerFlags_errCode (s : State) : (s.headerFlags).errCode = s.errCode := rfl
@[simp] theorem State.headerFlags_fv (s : State) : (s.headerFlags).fv = s.fv := rfl
@[simp] theorem State.headerFlags_tv (s : State) : (s.headerFlags).tv = false := rfl
@[simp] theorem State.headerFlags_cv (s : State) : (s.headerFlags).cv = true := rfl
@[simp] theorem State.headerFlags_hv (s : State) : (s.headerFlags).hv = true := rfl
@[simp] theorem State.headerFlags_ie (s : State) : (s.headerFlags).ie = s.ie := rfl
@[simp] theorem State.headerFlags_inLen (s : State) : (s.headerFlags).inLen = s.inLen := rfl
@[simp] theorem State.headerFlags_outLen (s : State) : (s.headerFlags).outLen = s.outLen := rfl
@[simp] theorem State.headerFlags_hdrLen (s : State) : (s.headerFlags).hdrLen = s.hdrLen := rfl
@[simp] theorem State.headerFlags_nSym (s : State) : (s.headerFlags).nSym = s.nSym := rfl
@[simp] theorem State.headerFlags_maxLen (s : State) : (s.headerFlags).maxLen = s.maxLen := rfl
@[simp] theorem State.headerFlags_pad (s : State) : (s.headerFlags).pad = s.pad := rfl
@[simp] theorem State.headerFlags_errSub (s : State) : (s.headerFlags).errSub = s.errSub := rfl
@[simp] theorem State.headerFlags_errStage (s : State) : (s.headerFlags).errStage = s.errStage := rfl
@[simp] theorem State.headerFlags_errAddr (s : State) : (s.headerFlags).errAddr = s.errAddr := rfl
@[simp] theorem State.headerFlags_tblIdx (s : State) : (s.headerFlags).tblIdx = s.tblIdx := rfl
@[simp] theorem State.headerFlags_freq (s : State) : (s.headerFlags).freq = s.freq := rfl
@[simp] theorem State.headerFlags_code (s : State) : (s.headerFlags).code = s.code := rfl
@[simp] theorem State.headerFlags_order (s : State) : (s.headerFlags).order = s.order := rfl
@[simp] theorem State.headerFlags_node (s : State) : (s.headerFlags).node = s.node := rfl
@[simp] theorem State.headerFlags_root (s : State) : (s.headerFlags).root = s.root := rfl
@[simp] theorem State.headerFlags_inMem (s : State) : (s.headerFlags).inMem = s.inMem := rfl
@[simp] theorem State.headerFlags_outMem (s : State) : (s.headerFlags).outMem = s.outMem := rfl
@[simp] theorem State.headerFlags_draws (s : State) : (s.headerFlags).draws = s.draws := rfl
@[simp] theorem State.headerFlags_inputs (s : State) : (s.headerFlags).inputs = s.inputs := rfl
@[simp] theorem State.headerFlags_turns (s : State) : (s.headerFlags).turns = s.turns := rfl
@[simp] theorem State.headerFlags_rdata (s : State) : (s.headerFlags).rdata = s.rdata := rfl

/-! ### a failing walk of UNPACK (R186) -/

@[simp] theorem State.dropOutput_cfg (s : State) : (s.dropOutput).cfg = s.cfg := rfl
@[simp] theorem State.dropOutput_cmd (s : State) : (s.dropOutput).cmd = s.cmd := rfl
@[simp] theorem State.dropOutput_busy (s : State) : (s.dropOutput).busy = s.busy := rfl
@[simp] theorem State.dropOutput_done (s : State) : (s.dropOutput).done = s.done := rfl
@[simp] theorem State.dropOutput_err (s : State) : (s.dropOutput).err = s.err := rfl
@[simp] theorem State.dropOutput_accErr (s : State) : (s.dropOutput).accErr = s.accErr := rfl
@[simp] theorem State.dropOutput_errCode (s : State) : (s.dropOutput).errCode = s.errCode := rfl
@[simp] theorem State.dropOutput_fv (s : State) : (s.dropOutput).fv = s.fv := rfl
@[simp] theorem State.dropOutput_tv (s : State) : (s.dropOutput).tv = s.tv := rfl
@[simp] theorem State.dropOutput_cv (s : State) : (s.dropOutput).cv = s.cv := rfl
@[simp] theorem State.dropOutput_hv (s : State) : (s.dropOutput).hv = s.hv := rfl
@[simp] theorem State.dropOutput_ie (s : State) : (s.dropOutput).ie = s.ie := rfl
@[simp] theorem State.dropOutput_inLen (s : State) : (s.dropOutput).inLen = s.inLen := rfl
@[simp] theorem State.dropOutput_outLen (s : State) : (s.dropOutput).outLen = 0 := rfl
@[simp] theorem State.dropOutput_hdrLen (s : State) : (s.dropOutput).hdrLen = s.hdrLen := rfl
@[simp] theorem State.dropOutput_nSym (s : State) : (s.dropOutput).nSym = s.nSym := rfl
@[simp] theorem State.dropOutput_maxLen (s : State) : (s.dropOutput).maxLen = s.maxLen := rfl
@[simp] theorem State.dropOutput_pad (s : State) : (s.dropOutput).pad = s.pad := rfl
@[simp] theorem State.dropOutput_errSub (s : State) : (s.dropOutput).errSub = s.errSub := rfl
@[simp] theorem State.dropOutput_errStage (s : State) : (s.dropOutput).errStage = s.errStage := rfl
@[simp] theorem State.dropOutput_errAddr (s : State) : (s.dropOutput).errAddr = s.errAddr := rfl
@[simp] theorem State.dropOutput_tblIdx (s : State) : (s.dropOutput).tblIdx = s.tblIdx := rfl
@[simp] theorem State.dropOutput_freq (s : State) : (s.dropOutput).freq = s.freq := rfl
@[simp] theorem State.dropOutput_code (s : State) : (s.dropOutput).code = s.code := rfl
@[simp] theorem State.dropOutput_order (s : State) : (s.dropOutput).order = s.order := rfl
@[simp] theorem State.dropOutput_node (s : State) : (s.dropOutput).node = s.node := rfl
@[simp] theorem State.dropOutput_root (s : State) : (s.dropOutput).root = s.root := rfl
@[simp] theorem State.dropOutput_inMem (s : State) : (s.dropOutput).inMem = s.inMem := rfl
@[simp] theorem State.dropOutput_outMem (s : State) : (s.dropOutput).outMem = Memory.unspecified s.draws := rfl
@[simp] theorem State.dropOutput_draws (s : State) : (s.dropOutput).draws = s.draws + 1 := rfl
@[simp] theorem State.dropOutput_inputs (s : State) : (s.dropOutput).inputs = s.inputs := rfl
@[simp] theorem State.dropOutput_turns (s : State) : (s.dropOutput).turns = s.turns := rfl
@[simp] theorem State.dropOutput_rdata (s : State) : (s.dropOutput).rdata = s.rdata := rfl

end Sys2Proof.Machine
end

