-- ==== Sys2Proof/Laws/Step.lean ====
section
/-! SUPPORT. Laws/Step.lean: what a step, a host access and the host's turn can do, said once. Later proofs cite these and
do not unfold the schedule or the port. -/

namespace Sys2Proof.Machine

/-- What the engine's turn can do (R8, R231). -/
theorem engineTurn_cases (run : Instr → State → Host.Outcome State Fault Refusal) (s : State) :
    (s.busy = false ∧ engineTurn run s = .next s) ∨
    (∃ i, s.busy = true ∧ decode s.cmd = .ok i ∧ engineTurn run s = run i s) ∨
    (∃ e, s.busy = true ∧ decode s.cmd = .error e ∧ engineTurn run s = execIllegal s) := by
  unfold engineTurn
  cases hb : s.busy with
  | false => exact .inl ⟨rfl, by simp⟩
  | true =>
    cases hd : decode s.cmd with
    | ok i => exact .inr (.inl ⟨i, rfl, rfl, by simp⟩)
    | error e => exact .inr (.inr ⟨e, rfl, rfl, by simp⟩)

/-- What one step can do: the engine's turn or the host's, on the state with the turn taken off the schedule. -/
theorem step_cases (s : State) :
    (∃ ts, s.turns = .engine :: ts ∧ step s = engineTurn exec { s with turns := ts }) ∨
    (∃ ts, s.turns = .host :: ts ∧ step s = .next { s with turns := ts }.hostTurn) ∨
    (s.turns = [] ∧ s.busy = true ∧ step s = engineTurn exec s) ∨
    (s.turns = [] ∧ s.busy = false ∧ step s = .next s.hostTurn) := by
  unfold step stepWith
  cases ht : s.turns with
  | nil =>
    cases hb : s.busy with
    | false => exact .inr (.inr (.inr ⟨rfl, rfl, by simp⟩))
    | true => exact .inr (.inr (.inl ⟨rfl, rfl, by simp⟩))
  | cons a ts =>
    cases a with
    | engine => exact .inl ⟨ts, rfl, rfl⟩
    | host => exact .inr (.inl ⟨ts, rfl, rfl⟩)

/-- What one host access can do (R67 to R70, R248). -/
theorem hostAccess_cases (s : State) (a : Access) :
    (s.accepts a = true ∧ ∃ w p, a = .read w p ∧ s.hostAccess a = { s with rdata := s.readValue p }) ∨
    (s.accepts a = true ∧ ∃ w p v, a = .write w p v ∧ s.hostAccess a = s.writeValue v p) ∨
    (s.accepts a = false ∧ ∃ w p, a = .read w p ∧ s.hostAccess a = { s with accErr := true, rdata := 0 }) ∨
    (s.accepts a = false ∧ ∃ w p v, a = .write w p v ∧ s.hostAccess a = { s with accErr := true }) := by
  cases a with
  | read w p =>
    cases h : s.accepts (.read w p) with
    | true => exact .inl ⟨rfl, w, p, rfl, by simp [State.hostAccess, h]⟩
    | false => exact .inr (.inr (.inl ⟨rfl, w, p, rfl, by simp [State.hostAccess, h]⟩))
  | write w p v =>
    cases h : s.accepts (.write w p v) with
    | true => exact .inr (.inl ⟨rfl, w, p, v, rfl, by simp [State.hostAccess, h]⟩)
    | false => exact .inr (.inr (.inr ⟨rfl, w, p, v, rfl, by simp [State.hostAccess, h]⟩))

/-- What an accepted register write can do (10_state.md section 2). -/
theorem regWrite_cases (s : State) (off : Byte) (v : Word) :
    s.regWrite off v = s.issue v ∨ s.regWrite off v = s.statusWrite v ∨
    s.regWrite off v = { s with ie := v.getLsbD 0 } ∨ s.regWrite off v = { s with inLen := v } ∨
    s.regWrite off v = { s with outLen := v } ∨ s.regWrite off v = { s with tblIdx := v.setWidth 8 } ∨
    s.regWrite off v = { s with freq := tblSet s.freq s.tblIdx v }.freqFlags ∨ s.regWrite off v = s := by
  unfold State.regWrite
  split <;> simp

/-- What the host's turn can do (R66, R107, R108, R240). -/
theorem hostTurn_cases (s : State) :
    (s.inputs = [] ∧ s.hostTurn = s) ∨
    (∃ a rest, s.hostTurn = { s with inputs := rest }.hostAccess a) ∨
    (s.hostTurn = s.hostAccess (.read .w32 (.reg 0x08))) ∨
    (∃ rest, s.hostTurn = { s with inputs := rest }) ∨
    (∃ rest, s.inputs = .hardReset :: rest ∧ s.hostTurn = { s with inputs := rest }.hardReset) := by
  unfold State.hostTurn
  cases hi : s.inputs with
  | nil => exact .inl ⟨rfl, rfl⟩
  | cons op rest =>
    cases op with
    | access a => exact .inr (.inl ⟨a, rest, rfl⟩)
    | writeBack i => exact .inr (.inl ⟨_, rest, rfl⟩)
    | wait =>
      cases hb : s.busy with
      | true => exact .inr (.inr (.inl (by simp)))
      | false => exact .inr (.inl ⟨.read .w32 (.reg 0x08), rest, by simp⟩)
    | copyOut => exact .inr (.inr (.inr (.inl ⟨_, rfl⟩)))
    | hardReset => exact .inr (.inr (.inr (.inr ⟨rest, rfl, rfl⟩)))

end Sys2Proof.Machine
end

