-- ==== Sys2Proof/Tests/Slice0.lean ====
section
/-! SUPPORT. Tests/Slice0.lean: small tests of the model, each on one step or one function, and a witness for the hypotheses
of each statement. The expected values are those of spec/95_test_vectors.md (the vector is named) or are worked out by hand
from the rule named. -/

namespace Sys2Proof.Tests

open Sys2Proof.Machine

-- One theorem after the other: many kernel evaluations at once would hold a thread (and its stack) each.
set_option Elab.async false

/-! ### Small states -/

/-- The state a command leaves. -/
def after (o : Host.Outcome State Fault Refusal) : State :=
  match o with
  | .next t => t
  | .fault _ => State.reset
  | .refused _ => State.reset

/-- A command answered a next state. -/
def goesOn (o : Host.Outcome State Fault Refusal) : Bool :=
  match o with
  | .next _ => true
  | .fault _ => false
  | .refused _ => false

theorem next_after {o : Host.Outcome State Fault Refusal} (h : goesOn o = true) : o = .next (after o) := by
  cases o with
  | next t => rfl
  | fault r => cases h
  | refused r => cases h

/-- STATUS, ERR_INFO and ERR_ADDR. -/
def report (s : State) : Word × Word × Word := (s.statusWord, s.errInfoWord, s.errAddr)

/-- A memory that holds the bytes from offset 0 on. -/
def memOf (epoch : Nat) (bs : List Byte) : Memory := { epoch := epoch, cells := (List.range bs.length).zip bs }

/-- The reset state with IN_CAP = `ic`, OUT_CAP = `oc` after `LOADIN` of the bytes. -/
def loaded (ic oc : Word) (bs : List Byte) : State :=
  { State.powerOn { Config.vectors with inCap := ic, outCap := oc } with
    inMem := memOf 0 bs, inLen := BitVec.ofNat 32 bs.length }

/-- A state whose FREQ holds the given entries, FV = 1. -/
def counted (fs : List (Byte × Word)) : State :=
  { State.reset with fv := true, freq := fs.foldl (fun t e => tblSet t e.1 e.2) (Vector.replicate 256 0) }

/-- `s` with the code table of the entries in ORDER, CV = 1. -/
def withCodes (es : List (Byte × Code)) (s : State) : State :=
  { s with
    cv := true, code := codeTableOf es, order := orderTable (es.map Prod.fst), nSym := BitVec.ofNat 9 es.length
    maxLen := BitVec.ofNat 8 (longestCode (codeTableOf es)) }

/-- `s` with the header of `es` read: HV = 1 and HDR_LEN its length. -/
def withHeader (es : List (Byte × Code)) (s : State) : State :=
  { withCodes es s with hv := true, hdrLen := BitVec.ofNat 32 (headerLen es.length) }

/-- The first `n` bytes of OUT_MEM. -/
def outBytes (n : Nat) (s : State) : List Byte := (List.range n).map s.outMem.read

/-- "ABRACADABRA", its codes in header order (V-G1), and fifteen and fourteen zero bytes. -/
def abra : List Byte := [0x41, 0x42, 0x52, 0x41, 0x43, 0x41, 0x44, 0x41, 0x42, 0x52, 0x41]
def abraCodes : List (Byte × Code) :=
  [(0x43, [true, false, false]), (0x44, [true, false, true]), (0x42, [true, true, false]), (0x52, [true, true, true]),
    (0x41, [false])]
def zeros (n : Nat) : List Byte := List.replicate n 0

/-- The 86 header bytes of V-H1, written out. -/
def abraHeader : List Byte :=
  [0x05] ++ ([0x43] ++ zeros 15 ++ [0x0C]) ++ ([0x44] ++ zeros 15 ++ [0x0D]) ++ ([0x42] ++ zeros 15 ++ [0x0E]) ++
    ([0x52] ++ zeros 15 ++ [0x0F]) ++ ([0x41] ++ zeros 15 ++ [0x02])

/-- The header of one symbol 41 with code "0" (hdr1 of 95_test_vectors.md). -/
def hdr1 : List Byte := [0x01, 0x41] ++ zeros 15 ++ [0x02]
def oneCode : List (Byte × Code) := [(0x41, [false])]

/-- The tree of V-T1. -/
def abraTree : List Node :=
  [.leaf 0x41 5, .leaf 0x42 2, .leaf 0x43 1, .leaf 0x44 1, .leaf 0x52 2, .internal 2 2 (some 3), .internal 4 1 (some 4),
    .internal 6 5 (some 6), .internal 11 0 (some 7)]
def treed : State :=
  { State.reset with
    fv := true, tv := true, node := abraTree, root := some 8, order := orderTable [0x43, 0x44, 0x42, 0x52, 0x41]
    nSym := 5 }

/-! ### WellFormed refuses ill-formed terms -/

/-- R85: a word with a bit above bit 7 (V-K3). -/
theorem test_wordWellFormed_refuses_reserved_bits :
    reservedBitsClear 0x00000110 = false ∧ wordWellFormed 0x00000110 = false := by decide
/-- R87: an unassigned opcode (V-K2). -/
theorem test_wordWellFormed_refuses_unassigned_opcode :
    opcodeAssigned 0x00000003 = false ∧ wordWellFormed 0x00000003 = false := by decide
/-- R10: a capacity of 0. -/
theorem test_config_refuses_zero_capacity :
    ({ Config.vectors with inCap := 0 } : Config).wellFormed = false ∧
      ({ Config.vectors with outCap := 0 } : Config).wellFormed = false := by decide
/-- What is well formed is accepted. -/
theorem test_wellFormed_accepts :
    wordWellFormed 0x0000003F = true ∧ Config.vectors.wellFormed = true ∧ Instr.wellFormed .pack = true := by decide

/-! ### Decode: the words of R86, bit by bit -/

theorem test_decode_encode : decode 0b00000000000000000000000000000001#32 = .ok .encode := by decide
theorem test_decode_decode : decode 0b00000000000000000000000000000010#32 = .ok .decode := by decide
theorem test_decode_count : decode 0b00000000000000000000000000010000#32 = .ok .count := by decide
theorem test_decode_buildTree : decode 0b00000000000000000000000000010001#32 = .ok .buildTree := by decide
theorem test_decode_genCodes : decode 0b00000000000000000000000000010010#32 = .ok .genCodes := by decide
theorem test_decode_writeHeader : decode 0b00000000000000000000000000010011#32 = .ok .writeHeader := by decide
theorem test_decode_pack : decode 0b00000000000000000000000000010100#32 = .ok .pack := by decide
theorem test_decode_readHeader : decode 0b00000000000000000000000000100000#32 = .ok .readHeader := by decide
theorem test_decode_unpack : decode 0b00000000000000000000000000100001#32 = .ok .unpack := by decide
theorem test_decode_clear : decode 0b00000000000000000000000000111111#32 = .ok .clear := by decide
/-- V-K1, V-K4, V-K5: rejected by name. -/
theorem test_decode_rejects :
    decode 0x00000000 = .error .unassignedOpcode ∧ decode 0x000000FF = .error .unassignedOpcode ∧
      decode 0x80000001 = .error .reservedBits ∧ decodeTableWord 32 0x80000001 = none ∧
      decodeTableWord 32 0x14 = some .pack := by decide

/-! ### One step for each command -/

/-- V-C1: COUNT of ABRA. -/
theorem test_count_abra :
    let t := after (exec .count (loaded 4096 4096 abra))
    t.statusWord = 0x00010002 ∧ (tblGet t.freq 0x41, tblGet t.freq 0x42, tblGet t.freq 0x43, tblGet t.freq 0x44,
      tblGet t.freq 0x52, tblGet t.freq 0x5A) = (5, 2, 1, 1, 2, 0) := by decide +kernel
/-- V-C5: IN_LEN > IN_CAP is LENGTH. -/
theorem test_count_length :
    report (after (exec .count { loaded 16 16 [] with inLen := 17 })) = (0x00000706, 0x00001000, 0) := by decide +kernel

/-- V-T1: the tree of ABRA. -/
theorem test_buildTree_abra :
    let t := after (exec .buildTree (counted [(0x41, 5), (0x42, 2), (0x43, 1), (0x44, 1), (0x52, 2)]))
    t.node = abraTree ∧ t.root = some 8 ∧ orderList t.order 6 = [0x43, 0x44, 0x42, 0x52, 0x41, 0x00] ∧ t.nSym = 5 ∧
      t.statusWord = 0x00030002 := by decide +kernel
/-- V-T5 and V-T6: ties go to the lowest index, and 40-bit sums do not wrap. -/
theorem test_treeOf_ties_and_wide_sums :
    (treeOf [.leaf 0x10 2, .leaf 0x20 2, .leaf 0x30 2, .leaf 0x40 2, .leaf 0x50 4]).1.drop 5 =
        [.internal 4 0 (some 1), .internal 4 2 (some 3), .internal 8 4 (some 5), .internal 12 6 (some 7)] ∧
      treeOf [.leaf 0x00 0xFFFFFFFF, .leaf 0xFF 0xFFFFFFFF] =
        ([.leaf 0x00 0xFFFFFFFF, .leaf 0xFF 0xFFFFFFFF, .internal 8589934590 0 (some 1)], some 2) := by decide +kernel

/-- V-G1: the codes of ABRA. -/
theorem test_genCodes_abra :
    let t := after (exec .genCodes treed)
    abraCodes.all (fun e => tblGet t.code e.1 == e.2) = true ∧ tblGet t.code 0x5A = [] ∧ t.maxLen = 3 ∧
      t.statusWord = 0x00070002 := by decide +kernel
/-- V-G8: no tree. -/
theorem test_genCodes_sequence : report (after (exec .genCodes State.reset)) = (0x00000606, 0x00001202, 0) := by
  decide +kernel

/-- V-H1: the header of ABRA. -/
theorem test_writeHeader_abra :
    let t := after (exec .writeHeader (withCodes abraCodes State.reset))
    outBytes 86 t = abraHeader ∧ t.outLen = 86 ∧ t.hdrLen = 86 := by decide +kernel
/-- V-H5 and V-H6: OUT_CAP = 85 is too small, 86 is enough. -/
theorem test_writeHeader_overflow :
    (after (exec .writeHeader (withCodes abraCodes (loaded 4096 85 [])))).errCode = 8 ∧
      (after (exec .writeHeader (withCodes abraCodes (loaded 4096 86 [])))).err = false := by decide +kernel

/-- V-P1: PACK of ABRA appends 6E 8A DC 01 after the header. -/
theorem test_pack_abra :
    let t := after (exec .pack { withCodes abraCodes (loaded 4096 4096 abra) with outLen := 86 })
    (List.range 4).map (fun i => t.outMem.read (86 + i)) = [0x6E, 0x8A, 0xDC, 0x01] ∧ t.pad = 1 ∧ t.outLen = 90 := by
  decide +kernel
/-- V-P6: a byte without a code. -/
theorem test_pack_noCode :
    report (after (exec .pack (withHeader abraCodes (loaded 4096 4096 [0x41, 0x42, 0x5A])))) =
      (0x000C0A06, 0x00001400, 2) := by decide +kernel

/-- V-R1: the header of ABRA read back. -/
theorem test_readHeader_abra :
    let t := after (exec .readHeader (loaded 4096 4096 (abraHeader ++ [0x6E, 0x8A, 0xDC, 0x01])))
    abraCodes.all (fun e => tblGet t.code e.1 == e.2) = true ∧
      orderList t.order 5 = [0x43, 0x44, 0x42, 0x52, 0x41] ∧ (t.nSym, t.maxLen, t.hdrLen) = (5, 3, 86) ∧
      t.statusWord = 0x000C0002 := by decide +kernel
/-- V-R6, V-R7 and V-R9: no stop bit, an empty code, codes "0" and "01". -/
theorem test_readHeader_malformed :
    report (after (exec .readHeader (loaded 4096 4096 ([0x01, 0x41] ++ zeros 18)))) = (0x00000206, 0x00002001, 1) ∧
      report (after (exec .readHeader (loaded 4096 4096 ([0x01, 0x41] ++ zeros 15 ++ [0x01, 0, 0])))) =
        (0x00000206, 0x00002002, 1) ∧
      report (after (exec .readHeader (loaded 4096 4096
        ([0x02, 0x41] ++ zeros 15 ++ [0x02, 0x42] ++ zeros 15 ++ [0x05, 0, 0])))) = (0x00000206, 0x00002004, 18) := by
  decide +kernel

/-- V-U1: the ABRA stream decoded. -/
theorem test_unpack_abra :
    let t := after (exec .unpack (withHeader abraCodes (loaded 4096 4096 (abraHeader ++ [0x6E, 0x8A, 0xDC, 0x01]))))
    outBytes 11 t = abra ∧ t.outLen = 11 ∧ t.pad = 1 ∧ t.statusWord = 0x000C0002 := by decide +kernel
/-- V-U3 and V-U8: a dead path, and data bits that end inside a code. -/
theorem test_unpack_corrupt :
    report (after (exec .unpack (withHeader oneCode (loaded 4096 4096 (hdr1 ++ [0x80, 0x00]))))) =
        (0x000C0306, 0x00002103, 18) ∧
      report (after (exec .unpack (withHeader abraCodes (loaded 4096 4096 (abraHeader ++ [0x60, 0x05]))))) =
        (0x000C0306, 0x00002104, 86) := by decide +kernel

/-- V-E6: ENCODE of 41 41 42: the count byte, the first record, the payload and the pad byte. -/
theorem test_encode_small :
    let t := after (exec .encode (loaded 4096 4096 [0x41, 0x41, 0x42]))
    [0, 1, 17, 18, 34, 35, 36].map t.outMem.read = [0x02, 0x42, 0x02, 0x41, 0x03, 0xC0, 0x05] ∧
      (t.outLen, t.pad) = (37, 5) := by decide +kernel

/-- V-E19: IN_LEN > IN_CAP. -/
theorem test_encode_length :
    report (after (exec .encode { loaded 16 4096 [] with inLen := 17 })) = (0x00000706, 0x00001000, 0) := by decide +kernel

/-- V-U2's bytes under DECODE: eight times 41. -/
theorem test_decode_small :
    let t := after (exec .decode (loaded 4096 4096 (hdr1 ++ [0x00, 0x00])))
    outBytes 8 t = List.replicate 8 0x41 ∧ t.outLen = 8 ∧ t.pad = 0 ∧ t.statusWord = 0x000C0002 := by decide +kernel
/-- V-TR6: the stream of 41 41 41 42 42 43 without its last byte. -/
theorem test_decode_truncated :
    report (after (exec .decode (loaded 4096 4096
      ([0x03, 0x43] ++ zeros 15 ++ [0x06, 0x42] ++ zeros 15 ++ [0x07, 0x41] ++ zeros 15 ++ [0x02, 0x1F, 0x00])))) =
      (0x000C0306, 0x00002104, 52) := by decide +kernel

/-- V-K7: CLEAR keeps IRQ_EN and completes. -/
theorem test_clear :
    let t := after (exec .clear { withCodes abraCodes (loaded 4096 4096 abra) with ie := true, accErr := true })
    t.statusWord = 0x00000012 ∧ t.inLen = 0 ∧ t.nSym = 0 ∧ tblGet t.code 0x41 = [] := by decide +kernel

/-! ### The step, the host's accesses and reset -/

/-- V-K2: an illegal word placed at reset. -/
theorem test_step_illegal :
    report (after (step (State.reset.withFetchWord 32 0x00000003))) = (0x00000506, 0x00000300, 0) := by decide +kernel
/-- A word placed at reset is run by the next step (V-C4: COUNT of an empty input). -/
theorem test_step_count : (after (step (State.reset.withFetchWord 32 0x10))).statusWord = 0x00010002 := by decide +kernel
/-- V-A3 and V-A9: an 8-bit read of REG is refused, a reserved offset reads 0. -/
theorem test_host_refusal :
    (State.reset.hostAccess (.read .w8 (.reg 0x08))).statusWord = 0x00000008 ∧
      (State.reset.hostAccess (.read .w32 (.reg 0x58))).statusWord = 0x00000000 := by decide +kernel
/-- V-B1 to V-B3: while BUSY, STATUS reads 1, OUT_LEN is refused and a CMD write is dropped. -/
theorem test_host_busy :
    let s := (loaded 4096 4096 abra).issue 1
    (s.hostAccess (.read .w32 (.reg 0x08))).rdata = 0x00000001 ∧
      (s.hostAccess (.read .w32 (.reg 0x14))).accErr = true ∧
      (s.hostAccess (.write .w32 (.reg 0x04) 2)).cmd = 1 := by decide +kernel
/-- V-A12 and V-A14: STATUS is write-one-to-clear. -/
theorem test_host_status :
    ({ treed with done := true, cv := true }.hostAccess (.write .w32 (.reg 0x08) 0xFFFFFFFF)).statusWord = 0x00070000 ∧
      ((State.reset.errorComplete .illegalCmd 0 3 0).hostAccess (.write .w32 (.reg 0x08) 6)).statusWord = 0x00000500 := by
  decide +kernel
/-- ERR_INFO and ERR_ADDR after V-U8's error (R37). -/
theorem test_host_error_report :
    let s := State.reset.errorComplete .corruptPayload 4 0x21 86
    (s.hostAccess (.read .w32 (.reg 0x28))).rdata = 0x00002104 ∧ (s.hostAccess (.read .w32 (.reg 0x2C))).rdata = 86 := by
  decide +kernel
/-- The READCODE windows after V-G1 (R48): 42 is "110". -/
theorem test_host_windows :
    let s := { withCodes abraCodes State.reset with tblIdx := 0x42 }
    (s.regRead 0x38, s.regRead 0x3C, s.regRead 0x40, s.regRead 0x44, s.regRead 0x48) = (3, 0, 0, 0, 0x0000000E) ∧
      { s with tblIdx := 4 }.regRead 0x4C = 0x00000141 ∧ { s with tblIdx := 5 }.regRead 0x4C = 0 := by decide +kernel

/-! ### A witness for the hypotheses of each statement, clause by clause at the bounds -/

/-- HeaderEncodingsRoundTrip: N = 1 and 256, codes of 1 and 127 bits, the fields 1 (stop bit only) and 2^127. -/
theorem witness_HeaderEncodingsRoundTrip :
    (countByte 1, countOf 1) = (1, 1) ∧ (countByte 256, countOf 0) = (0, 256) ∧ fieldOf [true] = 3 ∧
      fieldOf (List.replicate 127 false) = 170141183460469231731687303715884105728 ∧ codeOfField 1 = [] ∧
      (codeOfField 170141183460469231731687303715884105728).length = 127 := by decide +kernel

/-- StepRunsTheDecodedCommand: each schedule, and a placed word. -/
theorem witness_StepRunsTheDecodedCommand :
    ((State.reset.issue 0x10).busy = true ∧ decode (State.reset.issue 0x10).cmd = .ok .count ∧
        (State.reset.issue 0x10).turns = []) ∧
      { State.reset.issue 0x10 with turns := [.engine] }.turns = [.engine] ∧ State.reset.busy = false ∧
      { State.reset with turns := [.host] }.turns = [.host] ∧ decodeTableWord 32 0x3F = some .clear := by decide

/-- IllegalWordCompletesWithError: 256 is the first word with a reserved bit, 0 and 0xFF are unassigned opcodes; a BUSY engine
with an illegal word, on its own turn and with no turn given. -/
theorem witness_IllegalWordCompletesWithError :
    State.reset.busy = false ∧ State.reset.turns = [] ∧ 256 ≤ (0x00000100 : Word).toNat ∧
      256 ≤ (0xFFFFFFFF : Word).toNat ∧
      (0x00000000 : Word).toNat ∉ [0x01, 0x02, 0x10, 0x11, 0x12, 0x13, 0x14, 0x20, 0x21, 0x3F] ∧
      (0x000000FF : Word).toNat ∉ [0x01, 0x02, 0x10, 0x11, 0x12, 0x13, 0x14, 0x20, 0x21, 0x3F] ∧
      ((State.reset.issue 0x100).busy = true ∧ 256 ≤ (State.reset.issue 0x100).cmd.toNat ∧
        (State.reset.issue 0x100).turns = []) ∧
      { State.reset.issue 0x100 with turns := [.engine] }.turns = .engine :: [] := by decide

/-- BusyEngineBecomesIdle: a BUSY engine that waits for two turns of the host. -/
theorem witness_BusyEngineBecomesIdle :
    { State.reset.issue 0x3F with turns := [.host, .host] }.busy = true := by decide

/-- HardResetFromAnyState: the reset input while BUSY; offsets at the bounds of the registers it names. -/
theorem witness_HardResetFromAnyState :
    { State.reset.issue 0x3F with inputs := [.hardReset] }.inputs = .hardReset :: [] ∧
      (∀ off ∈ [(0x04 : Byte), 0x4F, 0x51, 0x53, 0x55, 0xFF], 4 ≤ off.toNat ∧ off.toNat ≠ 0x50 ∧ off.toNat ≠ 0x54) := by
  decide

/-- CommandIssue: IDLE, and a legal word. -/
theorem witness_CommandIssue : State.reset.busy = false ∧ decode 0x14 = .ok .pack := by decide
/-- IdleMemoryAccess: IDLE, and the last offset of IN and OUT. -/
theorem witness_IdleMemoryAccess :
    State.reset.busy = false ∧ 4095 < State.reset.cfg.inCap.toNat ∧ 4095 < State.reset.cfg.outCap.toNat := by decide

/-- CommandsKeepTheHostSide: a command other than CLEAR, and CLEAR. -/
theorem witness_CommandsKeepTheHostSide :
    (∃ t, exec .count State.reset = .next t) ∧ (Instr.count ≠ .clear) ∧ ∃ t, exec .clear State.reset = .next t :=
  ⟨⟨_, next_after (by decide +kernel)⟩, by decide, ⟨_, rfl⟩⟩

/-- BusyAccessRule: refused accesses and the three registers that may be read. -/
theorem witness_BusyAccessRule :
    (State.reset.issue 1).busy = true ∧ ¬ allowedWhileBusy (.read .w32 (.reg 0x14)) ∧
      ¬ allowedWhileBusy (.read .w8 (.reg 0x08)) ∧ ¬ allowedWhileBusy (.write .w32 (.reg 0x00) 0) ∧
      ¬ allowedWhileBusy (.write .w8 (.inp 0) 0) ∧ ¬ allowedWhileBusy (.read .w8 (.out 0)) ∧
      allowedWhileBusy (.read .w32 (.reg 0x00)) ∧ allowedWhileBusy (.read .w32 (.reg 0x08)) ∧
      allowedWhileBusy (.read .w32 (.reg 0x0C)) := by
  refine ⟨by decide, ?_, ?_, ?_, ?_, ?_, ?_, ?_, ?_⟩ <;> simp [allowedWhileBusy]

/-- BadFormIsRefused: each form, the first offset past the capacities; and an access that sets ACCERR. -/
theorem witness_BadFormIsRefused :
    badForm State.reset.cfg (.read .w16 (.reg 0x08)) ∧ badForm State.reset.cfg (.write .w32 (.reg 0xFE) 0) ∧
      badForm State.reset.cfg (.read .w8 (.inp 4096)) ∧ badForm State.reset.cfg (.write .w32 (.inp 0) 0) ∧
      badForm State.reset.cfg (.read .w8 (.out 4096)) ∧ badForm State.reset.cfg (.write .w8 (.out 0) 0) ∧
      State.reset.accErr = false ∧ (State.reset.hostAccess (.read .w8 (.inp 4096))).accErr = true := by
  refine ⟨?_, ?_, ?_, ?_, ?_, ?_, by decide, by decide⟩ <;> simp [badForm, State.reset, State.powerOn, Config.vectors]

/-- IdleRegisterWrites: a read-only register, the first and the last reserved offset. -/
theorem witness_IdleRegisterWrites :
    State.reset.busy = false ∧
      (∀ off ∈ [(0x00 : Byte), 0x50, 0x58, 0xFC],
        off.toNat % 4 = 0 ∧ off.toNat ∉ [0x04, 0x08, 0x0C, 0x10, 0x14, 0x30, 0x34]) ∧
      0x58 ≤ (0x58 : Byte).toNat ∧ 0x58 ≤ (0xFC : Byte).toNat := by decide

/-- StatusWordLayout: the bounds of the reserved bits. -/
theorem witness_StatusWordLayout :
    [5, 7, 20, 31].map (fun k => (loaded 4096 4096 []).statusWord.getLsbD k) = List.replicate 4 false := by decide +kernel

/-- TableWindows: IDLE, and the selected code has 127 bits. -/
theorem witness_TableWindows :
    let s := { withCodes [(0x42, true :: List.replicate 126 false)] State.reset with tblIdx := 0x42 }
    s.busy = false ∧ (tblGet s.code s.tblIdx).length = 127 ∧ (s.regRead 0x3C, s.regRead 0x48) = (0xC0000000, 0) := by
  decide +kernel

/-- LoadInAndCopyOut: three bytes into a memory of exactly three, and two output bytes. -/
theorem witness_LoadInAndCopyOut :
    (let s := { loaded 3 4096 [] with inputs := loadIn [0x41, 0x42, 0x43] };
      s.busy = false ∧ s.turns = [] ∧ s.inputs = loadIn [0x41, 0x42, 0x43] ++ [] ∧ 3 ≤ s.cfg.inCap.toNat) ∧
      (let s := { loaded 2 2 [] with outLen := 2, inputs := [.copyOut] };
        s.busy = false ∧ s.turns = [] ∧ s.inputs = .copyOut :: [] ∧ s.outLen.toNat ≤ s.cfg.inCap.toNat ∧
          s.outLen.toNat ≤ s.cfg.outCap.toNat) := by decide +kernel

/-- CountStoresOccurrences: IN_LEN = IN_CAP, IN_LEN = 0, and IN_LEN one above IN_CAP. -/
theorem witness_CountStoresOccurrences :
    (loaded 11 4096 abra).inLen.toNat ≤ (loaded 11 4096 abra).cfg.inCap.toNat ∧
      (loaded 1 1 []).inLen.toNat ≤ (loaded 1 1 []).cfg.inCap.toNat ∧
      (loaded 10 4096 abra).cfg.inCap.toNat < (loaded 10 4096 abra).inLen.toNat := by decide

/-- Two present symbols, and one. -/
def twoCounted : State := counted [(0x41, 2), (0x42, 1)]
def oneCounted : State := counted [(0x41, 1000)]

theorem witness_BuildTreeBuildsHuffmanTree : twoCounted.fv = true ∧ presentSymbols twoCounted.freq ≠ [] := by
  rw [presentSymbols_eq]
  decide +kernel
theorem witness_SingleSymbolGetsCodeZero : oneCounted.fv = true ∧ presentSymbols oneCounted.freq = [0x41] := by
  rw [presentSymbols_eq]
  decide +kernel

/-- EmptyInputErrors: BUILD_TREE of an empty table, PACK and ENCODE of an empty input. -/
theorem witness_EmptyInputErrors :
    ((counted []).fv = true ∧ presentSymbols (counted []).freq = []) ∧
      (withCodes oneCode State.reset).cv = true ∧ (withCodes oneCode State.reset).inLen = 0 ∧ State.reset.inLen = 0 := by
  rw [presentSymbols_eq]
  decide +kernel

/-- HigherFrequencyNoLongerCode. -/
theorem witness_HigherFrequencyNoLongerCode :
    ∃ t u, twoCounted.fv = true ∧ twoCounted.err = false ∧ exec .buildTree twoCounted = .next t ∧ t.err = false ∧
      exec .genCodes t = .next u ∧ u.err = false ∧
      (tblGet twoCounted.freq 0x42).toNat < (tblGet twoCounted.freq 0x41).toNat ∧
      0 < (tblGet twoCounted.freq 0x42).toNat :=
  ⟨after (exec .buildTree twoCounted), after (exec .genCodes (after (exec .buildTree twoCounted))), by decide, by decide,
    next_after (by decide +kernel), by decide +kernel, next_after (by decide +kernel), by decide +kernel,
    by decide +kernel, by decide +kernel⟩

/-- FibonacciDepthBound: one and two present symbols, and the greatest total below 2^32. -/
theorem witness_FibonacciDepthBound :
    (tblGet twoCounted.freq 0x41 ≠ 0 ∧ 2 ≤ (presentSymbols twoCounted.freq).length) ∧
      (tblGet oneCounted.freq 0x41 ≠ 0 ∧ (presentSymbols oneCounted.freq).length = 1) ∧
      totalFreq (counted [(0x41, 0xFFFFFFFE), (0x42, 1)]).freq = 2 ^ 32 - 1 := by
  rw [presentSymbols_eq, presentSymbols_eq, totalFreq_eq]
  decide +kernel

theorem treed_ok : TreeOk treed.node treed.root treed.order treed.nSym.toNat := by decide +kernel

/-- GenCodesAssignsPathStrings: the tree of ABRA, whose paths have at most 8 edges. -/
theorem witness_GenCodesAssignsPathStrings :
    treed.tv = true ∧ treed.root = some 8 ∧ TreeOk treed.node treed.root treed.order treed.nSym.toNat ∧
      (∀ p x, PathTo treed.node 8 p x → p.length ≤ 127) :=
  ⟨rfl, rfl, treed_ok, fun _ _ h => Nat.le_trans (PathTo.length_le (by decide +kernel) h) (by decide)⟩

/-- A chain of 128 nodes over one leaf, which no run builds: its symbol has a code of 128 bits. -/
def chain : List Node := .leaf 0x41 1 :: (List.range 128).map fun i => .internal 1 i none

theorem witness_GenCodesTooLong :
    let s := { State.reset with tv := true, node := chain, root := some 128 }
    s.tv = true ∧ (tblGet (treeCodes s.node s.root) 0x41).length = 128 ∧
      (∀ y : Byte, y.toNat < (0x41 : Byte).toNat → (tblGet (treeCodes s.node s.root) y).length ≤ 127) := by
  refine ⟨rfl, by decide +kernel, ?_⟩
  intro y hy
  have hw : walk chain chain.length 128 [] = [(0x41, List.replicate 128 false)] := by decide +kernel
  have : tblGet (treeCodes chain (some 128)) y = [] := by
    show tblGet (codeTableOf (walk chain chain.length 128 [])) y = []
    rw [hw]
    apply codeTableOf_absent
    simp only [List.map_cons, List.map_nil, List.mem_singleton]
    rintro rfl
    omega
  simp [this]

theorem witness_GenCodesPrefixFree :
    ∃ t, TreeOk treed.node treed.root treed.order treed.nSym.toNat ∧ treed.err = false ∧
      exec .genCodes treed = .next t ∧ t.err = false :=
  ⟨after (exec .genCodes treed), treed_ok, rfl, next_after (by decide +kernel), by decide +kernel⟩

theorem abraCodes_ok : EntriesOk abraCodes := by decide
theorem oneCode_ok : EntriesOk oneCode := by decide

/-- WriteHeaderWritesRecords: the header fits OUT_CAP exactly. -/
theorem witness_WriteHeaderWritesRecords :
    let s := withCodes abraCodes (loaded 4096 86 [])
    s.cv = true ∧ s.nSym.toNat ≤ 256 ∧ 1 + 17 * s.nSym.toNat = s.cfg.outCap.toNat := by decide +kernel

/-- OutputThatDoesNotFit: one byte too few, for the header of ABRA and for a payload of one byte. -/
theorem witness_OutputThatDoesNotFit :
    (let s := withCodes abraCodes (loaded 4096 85 []);
      s.cv = true ∧ s.cfg.outCap.toNat < 1 + 17 * s.nSym.toNat) ∧
      (let s := withCodes oneCode (loaded 1 1 [0x41]);
        s.cv = true ∧ 1 ≤ s.inLen.toNat ∧ s.inLen.toNat ≤ s.cfg.inCap.toNat ∧
          (∀ i, i < s.inLen.toNat → tblGet s.code (s.inMem.read i) ≠ []) ∧
          s.cfg.outCap.toNat < s.outLen.toNat + ((bitsOf s.code s.inputBytes).length + 7) / 8 + 1) := by decide +kernel

/-- ReadHeaderReadsRecords: the header of ABRA and nothing after it. -/
theorem witness_ReadHeaderReadsRecords :
    let s := loaded 86 4096 abraHeader
    1 ≤ abraCodes.length ∧ abraCodes.length ≤ 256 ∧ RecordsOk abraCodes ∧ s.inLen.toNat ≤ s.cfg.inCap.toNat ∧
      1 + 17 * abraCodes.length ≤ s.inLen.toNat ∧ s.inMem.holds 0 (serialize abraCodes) := by decide +kernel

/-- ReadHeaderTruncated: IN_LEN = 0, one byte short, and a count byte of 0 with one byte. -/
theorem witness_ReadHeaderTruncated :
    (loaded 4096 4096 []).inLen = 0 ∧
      (let s := loaded 17 4096 (hdr1.take 17);
        s.inLen.toNat ≤ s.cfg.inCap.toNat ∧ 1 ≤ s.inLen.toNat ∧
          s.inLen.toNat < 1 + 17 * (if s.inMem.read 0 = 0 then 256 else (s.inMem.read 0).toNat)) ∧
      (let s := loaded 1 4096 [0x00];
        s.inLen.toNat ≤ s.cfg.inCap.toNat ∧ 1 ≤ s.inLen.toNat ∧
          s.inLen.toNat < 1 + 17 * (if s.inMem.read 0 = 0 then 256 else (s.inMem.read 0).toNat)) := by decide +kernel

/-- Two records, the first good, the second with the symbol `x` and a last field byte `b`. -/
def twoRecords (x b : Byte) : State := loaded 35 4096 ([0x02, 0x41] ++ zeros 15 ++ [0x02, x] ++ zeros 15 ++ [b])

/-- The common hypotheses of ReadHeaderBadRecord for such a second record. -/
abbrev BadSecondRecord (x b : Byte) (F : Field) : Prop :=
  (twoRecords x b).inLen.toNat ≤ (twoRecords x b).cfg.inCap.toNat ∧
    oneCode.length < countOf ((twoRecords x b).inMem.read 0) ∧
    1 + 17 * countOf ((twoRecords x b).inMem.read 0) ≤ (twoRecords x b).inLen.toNat ∧ RecordsOk oneCode ∧
    (twoRecords x b).inMem.holds 1 (oneCode.flatMap fun r => recordBytes r.1 r.2) ∧
    (twoRecords x b).inMem.holds (1 + 17 * oneCode.length) (x :: fieldBytes F)

/-- ReadHeaderBadRecord: the four clauses; the last with equal codes and with "01" after "0". -/
theorem witness_ReadHeaderBadRecord :
    BadSecondRecord 0x42 0 0 ∧ BadSecondRecord 0x42 1 1 ∧
      (BadSecondRecord 0x41 3 3 ∧ 1 < (3 : Field).toNat ∧ (0x41 : Byte) ∈ oneCode.map Prod.fst) ∧
      (BadSecondRecord 0x42 5 5 ∧ (0x42 : Byte) ∉ oneCode.map Prod.fst ∧
        ∃ r ∈ oneCode, r.2 <+: codeOfField 5 ∨ codeOfField 5 <+: r.2) ∧
      BadSecondRecord 0x42 2 2 ∧ ∃ r ∈ oneCode, r.2 <+: codeOfField 2 ∨ codeOfField 2 <+: r.2 :=
  ⟨by decide +kernel, by decide +kernel, ⟨by decide +kernel, by decide, by decide⟩,
    ⟨by decide +kernel, by decide, (0x41, [false]), by decide, by decide +kernel⟩, by decide +kernel,
    (0x41, [false]), by decide, by decide +kernel⟩

/-- HeaderRoundTrip: the header of one symbol, read on a machine that holds exactly its bytes. -/
theorem witness_HeaderRoundTrip :
    let s := withCodes oneCode State.reset
    let u := loaded 18 4096 hdr1
    ∃ t, s.cv = true ∧ CodeOk s.code s.order s.nSym.toNat ∧ RegistersOk s ∧ s.err = false ∧
      exec .writeHeader s = .next t ∧ t.err = false ∧ u.inLen.toNat ≤ u.cfg.inCap.toNat ∧
      t.hdrLen.toNat ≤ u.inLen.toNat ∧ ∀ a, a < t.hdrLen.toNat → u.inMem.read a = t.outMem.read a :=
  ⟨after (exec .writeHeader (withCodes oneCode State.reset)), rfl,
    codeOk_codeTableOf oneCode_ok (by decide) (by decide), by decide +kernel, rfl, next_after (by decide +kernel),
    by decide +kernel, by decide +kernel, by decide +kernel, by decide +kernel⟩

/-- RewrittenHeaderIsTheHeaderRead: OUT_CAP holds the header exactly. -/
theorem witness_RewrittenHeaderIsTheHeaderRead :
    ∃ v, (loaded 4096 18 hdr1).err = false ∧ exec .readHeader (loaded 4096 18 hdr1) = .next v ∧ v.err = false ∧
      v.hdrLen.toNat ≤ v.cfg.outCap.toNat :=
  ⟨after (exec .readHeader (loaded 4096 18 hdr1)), rfl, next_after (by decide +kernel), by decide +kernel,
    by decide +kernel⟩

/-- PackAppendsPayload: ABRA after the header, OUT_CAP exactly enough. -/
theorem witness_PackAppendsPayload :
    let s := { withCodes abraCodes (loaded 11 90 abra) with outLen := 86 }
    s.cv = true ∧ 1 ≤ s.inLen.toNat ∧ s.inLen.toNat ≤ s.cfg.inCap.toNat ∧
      (∀ i, i < s.inLen.toNat → tblGet s.code (s.inMem.read i) ≠ []) ∧
      s.outLen.toNat + ((bitsOf s.code s.inputBytes).length + 7) / 8 + 1 = s.cfg.outCap.toNat := by decide +kernel

/-- PackWithoutCode: the last input byte has no code. -/
theorem witness_PackWithoutCode :
    let s := withCodes oneCode (loaded 2 4096 [0x41, 0x5A])
    s.cv = true ∧ s.inLen.toNat ≤ s.cfg.inCap.toNat ∧ 1 < s.inLen.toNat ∧ tblGet s.code (s.inMem.read 1) = [] ∧
      (∀ j, j < 1 → tblGet s.code (s.inMem.read j) ≠ []) := by decide +kernel

/-- UnpackDecodesSymbols: the ABRA stream, OUT_CAP exactly enough. -/
theorem witness_UnpackDecodesSymbols :
    let s := withHeader abraCodes (loaded 90 11 (abraHeader ++ [0x6E, 0x8A, 0xDC, 0x01]))
    s.hv = true ∧ PrefixFree s.code ∧ s.inLen.toNat ≤ s.cfg.inCap.toNat ∧ s.hdrLen.toNat + 2 ≤ s.inLen.toNat ∧
      (s.inMem.read (s.inLen.toNat - 1)).toNat = 1 ∧ (∀ x ∈ abra, tblGet s.code x ≠ []) ∧
      abra.length ≤ s.cfg.outCap.toNat ∧
      dataBits s s.hdrLen.toNat (8 * (s.inLen.toNat - s.hdrLen.toNat - 1) - 1) = bitsOf s.code abra :=
  ⟨rfl, prefixFree_codeTableOf abraCodes_ok, by decide +kernel, by decide +kernel, by decide +kernel, by decide +kernel,
    by decide +kernel, by decide +kernel⟩

/-- UnpackChecksBeforeTheWalk: no pad byte, a pad byte of 8, no payload byte. -/
theorem witness_UnpackChecksBeforeTheWalk :
    (let s := withHeader oneCode (loaded 18 4096 hdr1);
      s.hv = true ∧ s.inLen.toNat ≤ s.cfg.inCap.toNat ∧ s.inLen.toNat < s.hdrLen.toNat + 1) ∧
      (let s := withHeader oneCode (loaded 19 4096 (hdr1 ++ [0x08]));
        s.hv = true ∧ s.hdrLen.toNat + 1 ≤ s.inLen.toNat ∧ 7 < (s.inMem.read (s.inLen.toNat - 1)).toNat) ∧
      (let s := withHeader oneCode (loaded 19 4096 (hdr1 ++ [0x07]));
        s.hv = true ∧ s.inLen.toNat = s.hdrLen.toNat + 1 ∧ (s.inMem.read (s.inLen.toNat - 1)).toNat ≤ 7) := by
  decide +kernel

/-- UnpackWalkErrors, the hypotheses its clauses share, for the data bits `bitsOf xs ++ p ++ rest`. -/
def WalkHypotheses (s : State) (xs : List Byte) (p rest : List Bool) : Prop :=
  s.hv = true ∧ PrefixFree s.code ∧ s.inLen.toNat ≤ s.cfg.inCap.toNat ∧ s.hdrLen.toNat + 2 ≤ s.inLen.toNat ∧
    (s.inMem.read (s.inLen.toNat - 1)).toNat ≤ 7 ∧ (∀ x ∈ xs, tblGet s.code x ≠ []) ∧
    xs.length ≤ s.cfg.outCap.toNat ∧ p ≠ [] ∧
    dataBits s s.hdrLen.toNat
      (8 * (s.inLen.toNat - s.hdrLen.toNat - 1) - (s.inMem.read (s.inLen.toNat - 1)).toNat) =
      bitsOf s.code xs ++ p ++ rest

/-- V-U10 in small: OUT_CAP = 1 and two symbols. -/
theorem witness_UnpackWalkErrors_overflow :
    let s := withHeader oneCode (loaded 4096 1 (hdr1 ++ [0x00, 0x06]))
    WalkHypotheses s [0x41] [false] [] ∧ [(0x41 : Byte)].length = s.cfg.outCap.toNat ∧ tblGet s.code 0x41 = [false] :=
  ⟨⟨rfl, prefixFree_codeTableOf oneCode_ok, by decide +kernel, by decide +kernel, by decide +kernel, by decide +kernel,
    by decide +kernel, by decide, by decide +kernel⟩, by decide +kernel, by decide +kernel⟩

/-- V-U3 in small: the first data bit has no code. -/
theorem witness_UnpackWalkErrors_dead :
    let s := withHeader oneCode (loaded 4096 4096 (hdr1 ++ [0x80, 0x07]))
    WalkHypotheses s [] [true] [] ∧ (∀ x, tblGet s.code x ≠ [] → ¬ [true] <+: tblGet s.code x) ∧ [true].length = 1 := by
  refine ⟨⟨rfl, prefixFree_codeTableOf oneCode_ok, by decide +kernel, by decide +kernel, by decide +kernel,
    by decide +kernel, by decide +kernel, by decide, by decide +kernel⟩, ?_, rfl⟩
  intro x hx
  have : x ∈ oneCode.map Prod.fst := (tblGet_codeTableOf_ne oneCode_ok x).1 hx
  simp only [oneCode, List.map_cons, List.map_nil, List.mem_singleton] at this
  subst this
  decide +kernel

/-- V-U8: A, then "11" is left unfinished. -/
theorem witness_UnpackWalkErrors_unfinished :
    let s := withHeader abraCodes (loaded 4096 4096 (abraHeader ++ [0x60, 0x05]))
    WalkHypotheses s [0x41] [true, true] [] ∧ [true, true] <+: tblGet s.code 0x42 ∧ [true, true] ≠ tblGet s.code 0x42 :=
  ⟨⟨rfl, prefixFree_codeTableOf abraCodes_ok, by decide +kernel, by decide +kernel, by decide +kernel,
    by decide +kernel, by decide +kernel, by decide, by decide +kernel⟩, by decide +kernel, by decide +kernel⟩

/-- PackUnpackRoundTrip: PACK of 41 41 at OUT_LEN 0, its bytes read back with HDR_LEN = 0. -/
def packed : State := withCodes oneCode (loaded 4096 4096 [0x41, 0x41])
def unpacking : State :=
  { withHeader oneCode (loaded 2 2 [0x00, 0x06]) with hdrLen := 0 }

theorem witness_PackUnpackRoundTrip :
    ∃ t, packed.cv = true ∧ PrefixFree packed.code ∧ packed.err = false ∧ exec .pack packed = .next t ∧ t.err = false ∧
      unpacking.hv = true ∧ unpacking.code = packed.code ∧ unpacking.inLen.toNat ≤ unpacking.cfg.inCap.toNat ∧
      unpacking.inLen.toNat = unpacking.hdrLen.toNat + (t.outLen.toNat - packed.outLen.toNat) ∧
      (∀ k, k < t.outLen.toNat - packed.outLen.toNat →
        unpacking.inMem.read (unpacking.hdrLen.toNat + k) = t.outMem.read (packed.outLen.toNat + k)) ∧
      packed.inLen.toNat ≤ unpacking.cfg.outCap.toNat :=
  ⟨after (exec .pack packed), rfl, prefixFree_codeTableOf oneCode_ok, rfl, next_after (by decide +kernel),
    by decide +kernel, rfl, rfl, by decide +kernel, by decide +kernel, by decide +kernel, by decide +kernel⟩

/-- EncodeWritesStream: one byte, OUT_CAP exactly enough for its stream of 20 bytes (V-E4). -/
def single : State := loaded 1 20 [0x7F]

theorem witness_EncodeWritesStream :
    1 ≤ single.inLen.toNat ∧ single.inLen.toNat ≤ single.cfg.inCap.toNat ∧
      longestCode (codesFor single.inputBytes) ≤ 127 ∧
      1 + 17 * single.inputBytes.dedup.length +
        ((bitsOf (codesFor single.inputBytes) single.inputBytes).length + 7) / 8 + 1 = single.cfg.outCap.toNat := by
  decide +kernel

/-- DecodeReadsStream: the stream of V-E4 with symbol 41, OUT_CAP = 1. -/
theorem witness_DecodeReadsStream :
    let s := loaded 20 1 (hdr1 ++ [0x00, 0x07])
    let code := codeTableOf oneCode
    1 ≤ oneCode.length ∧ oneCode.length ≤ 256 ∧ RecordsOk oneCode ∧ s.inMem.holds 0 (serialize oneCode) ∧
      (∀ r ∈ oneCode, tblGet code r.1 = r.2) ∧ (∀ x, x ∉ oneCode.map Prod.fst → tblGet code x = []) ∧
      s.inLen.toNat ≤ s.cfg.inCap.toNat ∧ 1 + 17 * oneCode.length + 2 ≤ s.inLen.toNat ∧
      (s.inMem.read (s.inLen.toNat - 1)).toNat = 7 ∧ (∀ x ∈ [(0x41 : Byte)], tblGet code x ≠ []) ∧
      [(0x41 : Byte)].length ≤ s.cfg.outCap.toNat ∧ dataBits s 18 (8 * (20 - 18 - 1) - 7) = bitsOf code [0x41] := by
  refine ⟨by decide, by decide, by decide, by decide +kernel, by decide +kernel, codeTableOf_absent oneCode, ?_⟩
  decide +kernel

/-- EncodeDecodeRoundTrip: V-E4's stream on a second machine, all capacities exactly enough. -/
theorem witness_EncodeDecodeRoundTrip :
    let u := loaded 20 1 ([0x01, 0x7F] ++ zeros 15 ++ [0x02, 0x00, 0x07])
    single.err = false ∧ 1 ≤ single.inLen.toNat ∧ single.inLen.toNat ≤ single.cfg.inCap.toNat ∧
      1 + 17 * single.inputBytes.dedup.length +
        ((bitsOf (codesFor single.inputBytes) single.inputBytes).length + 7) / 8 + 1 ≤ single.cfg.outCap.toNat ∧
      ∃ t, exec .encode single = .next t ∧ t.err = false ∧ u.inLen = t.outLen ∧
        (∀ a, a < t.outLen.toNat → u.inMem.read a = t.outMem.read a) ∧ t.outLen.toNat ≤ u.cfg.inCap.toNat ∧
        single.inLen.toNat ≤ u.cfg.outCap.toNat :=
  ⟨rfl, by decide, by decide, by decide +kernel, after (exec .encode single), next_after (by decide +kernel),
    by decide +kernel, by decide +kernel, by decide +kernel, by decide +kernel, by decide +kernel⟩

/-- DecodeNeverEmpty: an UNPACK and a DECODE that succeed. -/
theorem witness_DecodeNeverEmpty :
    (∃ t, unpacking.err = false ∧ exec .unpack unpacking = .next t ∧ t.err = false) ∧
      ∃ t, exec .decode (loaded 20 1 (hdr1 ++ [0x00, 0x07])) = .next t ∧ t.err = false :=
  ⟨⟨after (exec .unpack unpacking), rfl, next_after (by decide +kernel), by decide +kernel⟩,
    ⟨after (exec .decode (loaded 20 1 (hdr1 ++ [0x00, 0x07]))), next_after (by decide +kernel), by decide +kernel⟩⟩

/-- The states the five steps of ENCODE leave one after the other. -/
def encodeSteps (s : State) : List State :=
  let a := after (exec .count s)
  let b := after (exec .buildTree a)
  let c := after (exec .genCodes b)
  let d := after (exec .writeHeader c)
  [a, b, c, d, after (exec .pack d)]

/-- CompositesAreTheirSteps: a COUNT, a BUILD_TREE, a WRITE_HEADER and a PACK that fail, and none. (No run reaches a
GEN_CODES that fails after BUILD_TREE, 93_implementation_defined.md X7.) -/
theorem witness_CompositesAreTheirSteps_encode :
    (after (exec .count { loaded 16 16 [] with inLen := 17 })).err = true ∧
      ((encodeSteps (loaded 1 20 [])).take 2).map State.err = [false, true] ∧
      ((encodeSteps (loaded 1 17 [0x7F])).take 4).map State.err = [false, false, false, true] ∧
      (encodeSteps (loaded 1 18 [0x7F])).map State.err = [false, false, false, false, true] ∧
      (encodeSteps single).map State.err = [false, false, false, false, false] := by decide +kernel

/-- The same for DECODE: a READ_HEADER that fails, an UNPACK that fails, and none. -/
theorem witness_CompositesAreTheirSteps_decode :
    (after (exec .readHeader (loaded 4096 4096 []))).err = true ∧
      (let a := after (exec .readHeader (loaded 4096 4096 hdr1));
        a.err = false ∧ (after (exec .unpack a)).err = true) ∧
      (let a := after (exec .readHeader (loaded 20 1 (hdr1 ++ [0x00, 0x07])));
        a.err = false ∧ (after (exec .unpack a)).err = false) := by decide +kernel

/-- CompositesReadNoOldTables: two machines that differ in their tables, output and flags. -/
theorem witness_CompositesReadNoOldTables :
    let s := single
    let s' := { withHeader abraCodes single with outLen := 9, pad := 3, outMem := memOf 1 abra }
    s.cfg.inCap = s'.cfg.inCap ∧ s.cfg.outCap = s'.cfg.outCap ∧ s.inLen = s'.inLen ∧
      (∀ a, a < s.inLen.toNat → s.inMem.read a = s'.inMem.read a) ∧
      (after (exec .encode (s.issue 1))).err = false ∧ goesOn (exec .encode (s'.issue 1)) = true := by decide +kernel

/-- PrerequisiteFlags: every flag 0, and a command that ends with SEQUENCE. -/
theorem witness_PrerequisiteFlags :
    (State.reset.fv, State.reset.tv, State.reset.cv, State.reset.hv) = (false, false, false, false) ∧
      State.reset.errCode ≠ 6 ∧ (after (exec .pack State.reset)).errCode = 6 := by decide +kernel

/-- LengthErrors: IN_LEN one above IN_CAP. -/
theorem witness_LengthErrors :
    let s := { withHeader oneCode (loaded 16 16 []) with inLen := 17 }
    s.cfg.inCap.toNat < s.inLen.toNat ∧ s.cv = true ∧ s.hv = true := by decide +kernel

/-- FailingSubcommandChangesNothing: a failing PACK, and an UNPACK that fails in its walk. -/
theorem witness_FailingSubcommandChangesNothing :
    (State.reset.err = false ∧ ∃ t, exec .pack State.reset = .next t ∧ t.err = true) ∧
      ∃ t, exec .unpack (withHeader oneCode (loaded 4096 4096 (hdr1 ++ [0x80, 0x07]))) = .next t ∧ t.err = true :=
  ⟨⟨rfl, after (exec .pack State.reset), next_after (by decide +kernel), by decide +kernel⟩,
    ⟨after (exec .unpack (withHeader oneCode (loaded 4096 4096 (hdr1 ++ [0x80, 0x07])))), next_after (by decide +kernel),
      by decide +kernel⟩⟩

/-- ValidFlagWrites: each command succeeds somewhere. -/
theorem witness_ValidFlagWrites :
    (after (exec .count State.reset)).err = false ∧ (after (exec .buildTree twoCounted)).err = false ∧
      (after (exec .genCodes treed)).err = false ∧
      (after (exec .writeHeader (withCodes oneCode State.reset))).err = false ∧
      (after (exec .pack packed)).err = false ∧ (after (exec .readHeader (loaded 4096 18 hdr1))).err = false ∧
      (after (exec .unpack unpacking)).err = false ∧ (after (exec .encode single)).err = false ∧
      (after (exec .decode (loaded 20 1 (hdr1 ++ [0x00, 0x07])))).err = false ∧
      (after (exec .clear State.reset)).err = false := by decide +kernel

/-- RefusedAccessLeavesOutcome: V-B2 before COUNT completes. -/
theorem witness_RefusedAccessLeavesOutcome :
    ((loaded 4096 4096 abra).issue 0x10).busy = true ∧ ¬ allowedWhileBusy (.read .w32 (.reg 0x14)) ∧
      ∃ t, exec .count ((loaded 4096 4096 abra).issue 0x10) = .next t :=
  ⟨rfl, by simp [allowedWhileBusy], ⟨_, next_after (by decide +kernel)⟩⟩

/-- PlatformParametersIgnored and the four StepKeeps statements: a step of a state in which every invariant holds, with a
valid code table and a header read. -/
def good : State := { withHeader oneCode (loaded 4096 4096 (hdr1 ++ [0x00, 0x07])) with turns := [.engine] }.issue 0x21

theorem good_step : ∃ t, step good = .next t := ⟨_, next_after (by decide +kernel)⟩

theorem witness_PlatformParametersIgnored : ∃ t, step good = .next t := good_step
theorem witness_StepKeepsFlags : FlagsOk good ∧ ∃ t, step good = .next t := ⟨by decide +kernel, good_step⟩
theorem witness_StepKeepsMemories : MemoriesOk good ∧ ∃ t, step good = .next t := ⟨by decide +kernel, good_step⟩
theorem witness_StepKeepsRegisters : RegistersOk good ∧ ∃ t, step good = .next t := ⟨by decide +kernel, good_step⟩
theorem witness_StepKeepsTables :
    TablesOk good ∧ good.cv = true ∧ (∃ t, step good = .next t) ∧ TablesOk treed ∧ treed.tv = true :=
  ⟨⟨fun h => absurd h (by decide), fun _ => codeOk_codeTableOf oneCode_ok (by decide) (by decide)⟩, rfl, good_step,
    ⟨fun _ => treed_ok, fun h => absurd h (by decide)⟩, rfl⟩

end Sys2Proof.Tests
end

namespace Sys2Proof.Machine

/-! ### The step by schedule and by command word (R8, R84, R242) -/

theorem engineTurn_of_legal {run : Instr → State → Host.Outcome State Fault Refusal} {s : State} {i : Instr}
    (hbusy : s.busy = true) (hdec : decode s.cmd = .ok i) : engineTurn run s = run i s := by
  simp [engineTurn, hbusy, hdec]

theorem engineTurn_of_illegal {run : Instr → State → Host.Outcome State Fault Refusal} {s : State} {e : DecodeError}
    (hbusy : s.busy = true) (hdec : decode s.cmd = .error e) : engineTurn run s = execIllegal s := by
  simp [engineTurn, hbusy, hdec]

theorem engineTurn_of_idle {run : Instr → State → Host.Outcome State Fault Refusal} {s : State}
    (hidle : s.busy = false) : engineTurn run s = .next s := by
  simp [engineTurn, hidle]

theorem step_of_engine {s : State} {ts : List Agent} (hturns : s.turns = .engine :: ts) :
    step s = engineTurn exec { s with turns := ts } := by
  simp [step, stepWith, hturns]

theorem step_of_host {s : State} {ts : List Agent} (hturns : s.turns = .host :: ts) :
    step s = .next { s with turns := ts }.hostTurn := by
  simp [step, stepWith, hturns]

theorem step_of_busy_unscheduled {s : State} (hturns : s.turns = []) (hbusy : s.busy = true) :
    step s = engineTurn exec s := by
  simp [step, stepWith, hturns, hbusy]

theorem step_of_idle_unscheduled {s : State} (hturns : s.turns = []) (hidle : s.busy = false) :
    step s = .next s.hostTurn := by
  simp [step, stepWith, hturns, hidle]

/-- A 32-bit table word that names a command is that command's word for the decoder of R90. -/
theorem decode_tableWord_of_decodeTableWord {w : Nat} {i : Instr} (h : decodeTableWord 32 w = some i) :
    decode (tableWord 32 w) = .ok i := by
  have hw : w % 2 ^ 32 < 2 ^ 32 := Nat.mod_lt _ (by decide)
  rw [decodeTableWord, if_pos hw] at h
  cases hd : decode (tableWord 32 w) with
  | ok j => rw [hd] at h; exact congrArg Except.ok (Option.some.inj h)
  | error e => rw [hd] at h; cases h

/-- A placed legal word is run by the next step, whichever schedule was pending. -/
theorem step_placeWord {w : Word} {i : Instr} (hdec : decode w = .ok i) (s : State) :
    step (s.placeWord w) = exec i (s.issue w) := by
  cases hturns : s.turns with
  | nil =>
    have hplace : s.placeWord w = s.issue w := by
      rw [State.placeWord, hturns, engineNext, ← hturns]
    rw [hplace, step_of_busy_unscheduled (s := s.issue w) hturns rfl]
    exact engineTurn_of_legal rfl hdec
  | cons a ts =>
    have hnext : (s.placeWord w).turns = .engine :: s.turns := by
      simp [State.placeWord, hturns, engineNext]
    rw [step_of_engine hnext]
    exact engineTurn_of_legal rfl hdec

/-- Settles O4, one equation of `step` for each schedule; the placed word reduces to the engine's turn on the issued
word. -/
theorem stepRunsTheDecodedCommand : Obligations.StepRunsTheDecodedCommand := by
  unfold Obligations.StepRunsTheDecodedCommand
  refine ⟨?noTurnBusy, ?engineBusy, ?engineIdle, ?hostMoves, ?noTurnIdle, ?placed⟩
  case noTurnBusy =>
    intro s i hbusy hdec hturns
    rw [step_of_busy_unscheduled hturns hbusy, engineTurn_of_legal hbusy hdec]
  case engineBusy =>
    intro s i ts hbusy hdec hturns
    rw [step_of_engine hturns]
    exact engineTurn_of_legal hbusy hdec
  case engineIdle =>
    intro s ts hidle hturns
    rw [step_of_engine hturns]
    exact engineTurn_of_idle hidle
  case hostMoves => exact fun s ts hturns => step_of_host hturns
  case noTurnIdle => exact fun s hidle hturns => step_of_idle_unscheduled hturns hidle
  case placed => exact fun s w i hdec => step_placeWord (decode_tableWord_of_decodeTableWord hdec) s

/-! ### The platform parameters (R10, R79, R222)

Changing the platform parameters before a meaning or after it is the same: each meaning of the model commutes with
`withPlatform`, from the sub-command bodies and the host port up to `step`. -/

/-- The same end of a body, on the state changed by `f`. -/
def BodyResult.map (f : State → State) : BodyResult → BodyResult
  | .completes s => .completes (f s)
  | .raises s e sub addr => .raises (f s) e sub addr

/-- The same outcome of a step, on the state changed by `f`. -/
def mapNext (f : State → State) : Host.Outcome State Fault Refusal → Host.Outcome State Fault Refusal
  | .next s => .next (f s)
  | .fault r => .fault r
  | .refused r => .refused r

/-- A sub-command's body does not depend on the platform parameters. -/
def IgnoresPlatform (body : State → BodyResult) : Prop :=
  ∀ (rb ib ob il : Nat) (s : State),
    body (withPlatform rb ib ob il s) = (body s).map (withPlatform rb ib ob il)

section
variable (rb ib ob il : Nat) (s : State)

@[simp] theorem withPlatform_outCap : (withPlatform rb ib ob il s).cfg.outCap = s.cfg.outCap := rfl
@[simp] theorem withPlatform_busy : (withPlatform rb ib ob il s).busy = s.busy := rfl
@[simp] theorem withPlatform_inLen : (withPlatform rb ib ob il s).inLen = s.inLen := rfl
@[simp] theorem withPlatform_hdrLen : (withPlatform rb ib ob il s).hdrLen = s.hdrLen := rfl
@[simp] theorem withPlatform_code : (withPlatform rb ib ob il s).code = s.code := rfl
@[simp] theorem withPlatform_node : (withPlatform rb ib ob il s).node = s.node := rfl
@[simp] theorem withPlatform_root : (withPlatform rb ib ob il s).root = s.root := rfl
@[simp] theorem withPlatform_inputs : (withPlatform rb ib ob il s).inputs = s.inputs := rfl
@[simp] theorem withPlatform_inByte : (withPlatform rb ib ob il s).inByte = s.inByte := rfl
@[simp] theorem withPlatform_inputBytes : (withPlatform rb ib ob il s).inputBytes = s.inputBytes := rfl

end

/-- Two branchings on one condition correspond under `f` when their branches do, however the condition is decided. -/
theorem ite_eq_apply_ite {α β : Type} {f : α → β} {c : Prop} {d₁ d₂ : Decidable c} {x y : β} {x' y' : α}
    (hx : x = f x') (hy : y = f y') : @ite β c d₁ x y = f (@ite α c d₂ x' y') := by
  subst hx hy
  by_cases hc : c <;> simp [hc]

/-! #### The bodies: every branch condition reads the same values, and every branch keeps the parameters -/

theorem countBody_ignoresPlatform : IgnoresPlatform countBody := by
  intro rb ib ob il s
  exact ite_eq_apply_ite rfl rfl

theorem buildTreeBody_ignoresPlatform : IgnoresPlatform buildTreeBody := by
  intro rb ib ob il s
  exact ite_eq_apply_ite rfl (ite_eq_apply_ite rfl rfl)

theorem genCodesBody_ignoresPlatform : IgnoresPlatform genCodesBody := by
  intro rb ib ob il s
  refine ite_eq_apply_ite rfl ?tooLongCheck
  simp only [withPlatform_node, withPlatform_root]
  cases tooLongSymbol (treeCodes s.node s.root) <;> rfl

theorem writeHeaderBody_ignoresPlatform : IgnoresPlatform writeHeaderBody := by
  intro rb ib ob il s
  exact ite_eq_apply_ite rfl (ite_eq_apply_ite rfl rfl)

theorem packBody_ignoresPlatform : IgnoresPlatform packBody := by
  intro rb ib ob il s
  refine ite_eq_apply_ite rfl (ite_eq_apply_ite rfl (ite_eq_apply_ite rfl ?gather))
  simp only [withPlatform_code, withPlatform_inputBytes]
  cases gatherBits s.code 0 s.inputBytes with
  | error i => rfl
  | ok bits => exact ite_eq_apply_ite rfl rfl

theorem readHeaderBody_ignoresPlatform : IgnoresPlatform readHeaderBody := by
  intro rb ib ob il s
  refine ite_eq_apply_ite rfl (ite_eq_apply_ite rfl (ite_eq_apply_ite rfl ?records))
  simp only [withPlatform_inByte]
  cases readRecords s.inByte (countOf (s.inByte 0)) 0 [] <;> rfl

theorem unpackBody_ignoresPlatform : IgnoresPlatform unpackBody := by
  intro rb ib ob il s
  refine ite_eq_apply_ite rfl (ite_eq_apply_ite rfl (ite_eq_apply_ite rfl (ite_eq_apply_ite rfl
    (ite_eq_apply_ite rfl ?walk))))
  simp only [withPlatform_outCap, withPlatform_inLen, withPlatform_hdrLen, withPlatform_code, withPlatform_inByte]
  split <;> rfl

/-! #### The commands -/

section
variable (rb ib ob il : Nat)

theorem runSingle_withPlatform {body : State → BodyResult} (hbody : IgnoresPlatform body) (i : Instr) (s : State) :
    runSingle i body (withPlatform rb ib ob il s) = mapNext (withPlatform rb ib ob il) (runSingle i body s) := by
  rw [runSingle, runSingle, hbody rb ib ob il s]
  cases body s <;> rfl

theorem runStages_withPlatform {stages : List (Instr × (State → BodyResult))}
    (hbodies : ∀ stage ∈ stages, IgnoresPlatform stage.2) (s : State) :
    runStages stages (withPlatform rb ib ob il s) = mapNext (withPlatform rb ib ob il) (runStages stages s) := by
  induction stages generalizing s with
  | nil => rfl
  | cons stage rest ih =>
    obtain ⟨hhead, hrest⟩ := List.forall_mem_cons.mp hbodies
    rw [runStages, runStages, hhead rb ib ob il s]
    cases stage.2 s with
    | completes t => exact ih hrest t
    | raises t e sub addr => rfl

theorem exec_withPlatform (i : Instr) (s : State) :
    exec i (withPlatform rb ib ob il s) = mapNext (withPlatform rb ib ob il) (exec i s) := by
  cases i with
  | encode =>
    refine runStages_withPlatform rb ib ob il ?_ s
    simp [countBody_ignoresPlatform, buildTreeBody_ignoresPlatform, genCodesBody_ignoresPlatform,
      writeHeaderBody_ignoresPlatform, packBody_ignoresPlatform]
  | decode =>
    refine runStages_withPlatform rb ib ob il ?_ s
    simp [readHeaderBody_ignoresPlatform, unpackBody_ignoresPlatform]
  | count => exact runSingle_withPlatform rb ib ob il countBody_ignoresPlatform _ s
  | buildTree => exact runSingle_withPlatform rb ib ob il buildTreeBody_ignoresPlatform _ s
  | genCodes => exact runSingle_withPlatform rb ib ob il genCodesBody_ignoresPlatform _ s
  | writeHeader => exact runSingle_withPlatform rb ib ob il writeHeaderBody_ignoresPlatform _ s
  | pack => exact runSingle_withPlatform rb ib ob il packBody_ignoresPlatform _ s
  | readHeader => exact runSingle_withPlatform rb ib ob il readHeaderBody_ignoresPlatform _ s
  | unpack => exact runSingle_withPlatform rb ib ob il unpackBody_ignoresPlatform _ s
  | clear => rfl

theorem engineTurn_withPlatform (s : State) :
    engineTurn exec (withPlatform rb ib ob il s) = mapNext (withPlatform rb ib ob il) (engineTurn exec s) := by
  obtain ⟨hidle, h⟩ | ⟨i, hbusy, hdec, h⟩ | ⟨e, hbusy, hdec, h⟩ := engineTurn_cases exec s
  · rw [h]
    exact engineTurn_of_idle hidle
  · rw [h, ← exec_withPlatform]
    exact engineTurn_of_legal hbusy hdec
  · rw [h]
    exact engineTurn_of_illegal hbusy hdec

/-! #### The host port -/

@[simp] theorem withPlatform_accepts (s : State) (a : Access) :
    (withPlatform rb ib ob il s).accepts a = s.accepts a := by
  have hform : formAllowed (withPlatform rb ib ob il s).cfg a = formAllowed s.cfg a := by
    cases a with
    | read w p => cases p <;> rfl
    | write w p v => cases p <;> rfl
  rw [State.accepts, State.accepts, hform, withPlatform_busy]

@[simp] theorem withPlatform_readValue (s : State) (p : Place) :
    (withPlatform rb ib ob il s).readValue p = s.readValue p := by
  cases p <;> rfl

theorem regWrite_withPlatform (s : State) (off : Byte) (v : Word) :
    (withPlatform rb ib ob il s).regWrite off v = withPlatform rb ib ob il (s.regWrite off v) := by
  unfold State.regWrite
  split <;> rfl

theorem writeValue_withPlatform (s : State) (v : Word) (p : Place) :
    (withPlatform rb ib ob il s).writeValue v p = withPlatform rb ib ob il (s.writeValue v p) := by
  cases p with
  | reg off => exact regWrite_withPlatform rb ib ob il s off v
  | inp a => rfl
  | out a => rfl

theorem hostAccess_withPlatform (s : State) (a : Access) :
    (withPlatform rb ib ob il s).hostAccess a = withPlatform rb ib ob il (s.hostAccess a) := by
  cases a with
  | read w p =>
    simp only [State.hostAccess, withPlatform_accepts, withPlatform_readValue]
    exact ite_eq_apply_ite rfl rfl
  | write w p v =>
    simp only [State.hostAccess, withPlatform_accepts]
    exact ite_eq_apply_ite (writeValue_withPlatform rb ib ob il s v p) rfl

theorem hostTurn_withPlatform (s : State) :
    (withPlatform rb ib ob il s).hostTurn = withPlatform rb ib ob il s.hostTurn := by
  rw [State.hostTurn, State.hostTurn, withPlatform_inputs]
  cases s.inputs with
  | nil => rfl
  | cons op rest =>
    cases op with
    | access a => exact hostAccess_withPlatform rb ib ob il { s with inputs := rest } a
    | writeBack i => exact hostAccess_withPlatform rb ib ob il { s with inputs := rest } _
    | wait =>
      exact ite_eq_apply_ite (hostAccess_withPlatform rb ib ob il s _)
        (hostAccess_withPlatform rb ib ob il { s with inputs := rest } _)
    | copyOut => rfl
    | hardReset => rfl

/-! #### The step -/

theorem step_withPlatform (s : State) :
    step (withPlatform rb ib ob il s) = mapNext (withPlatform rb ib ob il) (step s) := by
  obtain ⟨ts, hturns, hstep⟩ | ⟨ts, hturns, hstep⟩ | ⟨hturns, hbusy, hstep⟩ | ⟨hturns, hidle, hstep⟩ := step_cases s
  · rw [step_of_engine (s := withPlatform rb ib ob il s) hturns, hstep]
    exact engineTurn_withPlatform rb ib ob il { s with turns := ts }
  · rw [step_of_host (s := withPlatform rb ib ob il s) hturns, hstep]
    exact congrArg _ (hostTurn_withPlatform rb ib ob il { s with turns := ts })
  · rw [step_of_busy_unscheduled (s := withPlatform rb ib ob il s) hturns hbusy, hstep]
    exact engineTurn_withPlatform rb ib ob il s
  · rw [step_of_idle_unscheduled (s := withPlatform rb ib ob il s) hturns hidle, hstep]
    exact congrArg _ (hostTurn_withPlatform rb ib ob il s)

end

/-- Settles O55: `step` commutes with the change of the platform parameters. -/
theorem platformParametersIgnored : Obligations.PlatformParametersIgnored := by
  unfold Obligations.PlatformParametersIgnored
  intro rb ib ob il s t hstep
  rw [step_withPlatform, hstep, mapNext]

end Sys2Proof.Machine

namespace Sys2Proof.Machine

/-! ### Invariants of the step

What a predicate on states must be kept by to be kept by every step: the updates of the host port, the completions, the
two resets and the seven sub-command bodies. Each invariant of 10_state.md section 7 is then a proof of these parts. -/

/-- The state a body leaves, whether it completes or raises. -/
def BodyResult.state : BodyResult → State
  | .completes s => s
  | .raises s _ _ _ => s

/-- The body leads from states that meet `P` to states that meet `P`. -/
def BodyKeeps (P : State → Prop) (body : State → BodyResult) : Prop := ∀ s, P s → P (body s).state

/-- The state `s` with the schedule and the fields a host access can set alone (R33 to R35, R46, R28, R70) taken from
`u`. -/
def State.withHostFields (s u : State) : State :=
  { s with
    turns := u.turns, inputs := u.inputs, rdata := u.rdata, accErr := u.accErr, ie := u.ie, inLen := u.inLen,
    outLen := u.outLen, tblIdx := u.tblIdx }

/-- The state `s` with the output fields of PACK and UNPACK (R170, R178, R186) taken from `u`. -/
def State.withOutput (s u : State) : State :=
  { s with outMem := u.outMem, outLen := u.outLen, pad := u.pad, draws := u.draws }

/-- `P` is kept by every update a step is made of. -/
structure StepInvariant (P : State → Prop) : Prop where
  hostFields : ∀ s u, P s → P (s.withHostFields u)
  issue : ∀ s w, P s → P (s.issue w)
  statusWrite : ∀ s v, P s → P (s.statusWrite v)
  inMemWrite : ∀ s a v, a < s.cfg.inCap.toNat → P s → P { s with inMem := s.inMem.write a v }
  newFreq : ∀ s f, P s → P { s with freq := f }.freqFlags
  hardReset : ∀ s, P s → P s.hardReset
  softReset : ∀ s, P s → P s.softReset
  complete : ∀ s, P s → P s.complete
  errorComplete : ∀ s e sub st a, P s → P (s.errorComplete e sub st a)
  buildTree : BodyKeeps P buildTreeBody
  genCodes : BodyKeeps P genCodesBody
  writeHeader : BodyKeeps P writeHeaderBody
  pack : BodyKeeps P packBody
  readHeader : BodyKeeps P readHeaderBody
  unpack : BodyKeeps P unpackBody

section
variable {P : State → Prop}

/-- PACK keeps what does not look at the output: an error changes nothing and a completion only the output. -/
theorem packBody_keeps (hP : ∀ s u : State, P s → P (s.withOutput u)) : BodyKeeps P packBody := by
  intro s hs
  obtain ⟨-, h⟩ | ⟨e, sub, a, -, h, -⟩ | ⟨bits, -, -, -, -, -, h⟩ := packBody_cases s
  · rw [h]; exact hs
  · rw [h]; exact hs
  · rw [h]; exact hP s { s with outMem := _, outLen := _, pad := _ } hs

/-- UNPACK keeps what does not look at the output: an error changes nothing or drops the output. -/
theorem unpackBody_keeps (hP : ∀ s u : State, P s → P (s.withOutput u)) : BodyKeeps P unpackBody := by
  intro s hs
  obtain ⟨-, h⟩ | ⟨e, sub, a, -, h, -⟩ | ⟨e, sub, a, -, h, -⟩ | ⟨out, -, -, -, -, -, h⟩ := unpackBody_cases s
  · rw [h]; exact hs
  · rw [h]; exact hs
  · rw [h]; exact hP s s.dropOutput hs
  · rw [h]; exact hP s { s with outMem := _, outLen := _, pad := _ } hs

/-- A write to IN that is accepted lies inside the capacity (R68). -/
theorem inCap_of_accepts {s : State} {w : Width} {a : Nat} {v : Word}
    (h : s.accepts (.write w (.inp a) v) = true) : a < s.cfg.inCap.toNat := by
  simp only [State.accepts, formAllowed, Bool.and_eq_true, decide_eq_true_eq] at h
  exact h.1.2

namespace StepInvariant

theorem count (hP : StepInvariant P) : BodyKeeps P countBody := by
  intro s hs
  obtain ⟨-, h⟩ | ⟨-, h⟩ := countBody_cases s
  · rw [h]; exact hs
  · rw [h]; exact hP.newFreq s _ hs

theorem runSingle (hP : StepInvariant P) {i : Instr} {body : State → BodyResult} (hbody : BodyKeeps P body)
    {s t : State} (hs : P s) (hrun : Machine.runSingle i body s = .next t) : P t := by
  have hkept := hbody s hs
  obtain ⟨u, hres, h⟩ | ⟨u, e, sub, a, hres, h⟩ := runSingle_cases i body s
  · rw [hres] at hkept
    cases h.symm.trans hrun
    exact hP.complete u hkept
  · rw [hres] at hkept
    cases h.symm.trans hrun
    exact hP.errorComplete u _ _ _ _ hkept

theorem runStages (hP : StepInvariant P) {stages : List (Instr × (State → BodyResult))}
    (hbodies : ∀ stage ∈ stages, BodyKeeps P stage.2) {s t : State} (hs : P s)
    (hrun : Machine.runStages stages s = .next t) : P t := by
  induction stages generalizing s with
  | nil =>
    cases hrun
    exact hP.complete s hs
  | cons stage rest ih =>
    obtain ⟨hhead, hrest⟩ := List.forall_mem_cons.mp hbodies
    have hkept := hhead s hs
    cases hres : stage.2 s with
    | completes u =>
      rw [hres] at hkept
      exact ih hrest hkept ((runStages_completes hres rest).symm.trans hrun)
    | raises u e sub a =>
      rw [hres] at hkept
      cases (runStages_raises hres rest).symm.trans hrun
      exact hP.errorComplete _ _ _ _ _ (hP.hostFields u { u with outLen := 0 } hkept)

theorem exec (hP : StepInvariant P) {i : Instr} {s t : State} (hs : P s) (hrun : Machine.exec i s = .next t) :
    P t := by
  cases i with
  | encode =>
    refine hP.runStages ?_ hs hrun
    simp [hP.count, hP.buildTree, hP.genCodes, hP.writeHeader, hP.pack]
  | decode =>
    refine hP.runStages ?_ hs hrun
    simp [hP.readHeader, hP.unpack]
  | count => exact hP.runSingle hP.count hs hrun
  | buildTree => exact hP.runSingle hP.buildTree hs hrun
  | genCodes => exact hP.runSingle hP.genCodes hs hrun
  | writeHeader => exact hP.runSingle hP.writeHeader hs hrun
  | pack => exact hP.runSingle hP.pack hs hrun
  | readHeader => exact hP.runSingle hP.readHeader hs hrun
  | unpack => exact hP.runSingle hP.unpack hs hrun
  | clear =>
    cases hrun
    exact hP.complete _ (hP.softReset s hs)

theorem engineTurn (hP : StepInvariant P) {s t : State} (hs : P s)
    (hrun : Machine.engineTurn Machine.exec s = .next t) : P t := by
  obtain ⟨-, h⟩ | ⟨i, -, -, h⟩ | ⟨e, -, -, h⟩ := engineTurn_cases Machine.exec s
  · cases h.symm.trans hrun
    exact hs
  · exact hP.exec hs (h.symm.trans hrun)
  · cases h.symm.trans hrun
    exact hP.errorComplete s _ _ _ _ hs

theorem regWrite (hP : StepInvariant P) {s : State} (hs : P s) (off : Byte) (v : Word) : P (s.regWrite off v) := by
  obtain h | h | h | h | h | h | h | h := regWrite_cases s off v
  · rw [h]; exact hP.issue s v hs
  · rw [h]; exact hP.statusWrite s v hs
  · rw [h]; exact hP.hostFields s { s with ie := v.getLsbD 0 } hs
  · rw [h]; exact hP.hostFields s { s with inLen := v } hs
  · rw [h]; exact hP.hostFields s { s with outLen := v } hs
  · rw [h]; exact hP.hostFields s { s with tblIdx := v.setWidth 8 } hs
  · rw [h]; exact hP.newFreq s _ hs
  · rw [h]; exact hs

theorem writeValue (hP : StepInvariant P) {s : State} (hs : P s) {w : Width} {p : Place} {v : Word}
    (hacc : s.accepts (.write w p v) = true) : P (s.writeValue v p) := by
  cases p with
  | reg off => exact hP.regWrite hs off v
  | inp a => exact hP.inMemWrite s a _ (inCap_of_accepts hacc) hs
  | out a => exact hs

theorem hostAccess (hP : StepInvariant P) {s : State} (hs : P s) (a : Access) : P (s.hostAccess a) := by
  obtain ⟨-, w, p, -, h⟩ | ⟨hacc, w, p, v, rfl, h⟩ | ⟨-, w, p, -, h⟩ | ⟨-, w, p, v, -, h⟩ := hostAccess_cases s a
  · rw [h]; exact hP.hostFields s { s with rdata := s.readValue p } hs
  · rw [h]; exact hP.writeValue hs hacc
  · rw [h]; exact hP.hostFields s { s with accErr := true, rdata := 0 } hs
  · rw [h]; exact hP.hostFields s { s with accErr := true } hs

theorem hostTurn (hP : StepInvariant P) {s : State} (hs : P s) : P s.hostTurn := by
  have hinputs (is : List HostOp) : P { s with inputs := is } := hP.hostFields s { s with inputs := is } hs
  obtain ⟨-, h⟩ | ⟨a, rest, h⟩ | h | ⟨rest, h⟩ | ⟨rest, -, h⟩ := hostTurn_cases s
  · rw [h]; exact hs
  · rw [h]; exact hP.hostAccess (hinputs rest) a
  · rw [h]; exact hP.hostAccess hs _
  · rw [h]; exact hinputs rest
  · rw [h]; exact hP.hardReset _ (hinputs rest)

/-- A predicate kept by every update is kept by every step. -/
theorem step (hP : StepInvariant P) {s t : State} (hs : P s) (hstep : Machine.step s = .next t) : P t := by
  have hturns (ts : List Agent) : P { s with turns := ts } := hP.hostFields s { s with turns := ts } hs
  obtain ⟨ts, -, h⟩ | ⟨ts, -, h⟩ | ⟨-, -, h⟩ | ⟨-, -, h⟩ := step_cases s
  · exact hP.engineTurn (hturns ts) (h.symm.trans hstep)
  · cases h.symm.trans hstep
    exact hP.hostTurn (hturns ts)
  · exact hP.engineTurn hs (h.symm.trans hstep)
  · cases h.symm.trans hstep
    exact hP.hostTurn hs

end StepInvariant

end

/-! ### The flags (R57, R58, R211) -/

theorem CmdErr.code_le (e : CmdErr) : e.code.toNat ≤ 10 := by
  cases e <;> decide

theorem buildTreeBody_keepsFlags : BodyKeeps FlagsOk buildTreeBody := by
  rintro s ⟨hhv, htv, hbusy, hcode⟩
  obtain ⟨-, h⟩ | ⟨-, -, h⟩ | ⟨hfv, -, h⟩ := buildTreeBody_cases s
  · rw [h]; exact ⟨hhv, htv, hbusy, hcode⟩
  · rw [h]; exact ⟨hhv, htv, hbusy, hcode⟩
  · rw [h]; exact ⟨nofun, fun _ => hfv, hbusy, hcode⟩

theorem genCodesBody_keepsFlags : BodyKeeps FlagsOk genCodesBody := by
  rintro s ⟨hhv, htv, hbusy, hcode⟩
  obtain ⟨-, h⟩ | ⟨x, -, -, h⟩ | ⟨-, -, h⟩ := genCodesBody_cases s
  · rw [h]; exact ⟨hhv, htv, hbusy, hcode⟩
  · rw [h]; exact ⟨hhv, htv, hbusy, hcode⟩
  · rw [h]; exact ⟨fun _ => rfl, htv, hbusy, hcode⟩

theorem writeHeaderBody_keepsFlags : BodyKeeps FlagsOk writeHeaderBody := by
  intro s hs
  obtain ⟨-, h⟩ | ⟨-, -, h⟩ | ⟨-, -, h⟩ := writeHeaderBody_cases s
  · rw [h]; exact hs
  · rw [h]; exact hs
  · rw [h]; exact hs

theorem readHeaderBody_keepsFlags : BodyKeeps FlagsOk readHeaderBody := by
  rintro s ⟨hhv, htv, hbusy, hcode⟩
  obtain ⟨e, sub, a, h, -⟩ | ⟨rs, -, -, -, h⟩ := readHeaderBody_cases s
  · rw [h]; exact ⟨hhv, htv, hbusy, hcode⟩
  · rw [h]; exact ⟨fun _ => rfl, nofun, hbusy, hcode⟩

/-- R58 under a STATUS write: a report that is clear stays clear (R32). -/
theorem flagsOk_statusWrite (s : State) (v : Word) (hs : FlagsOk s) : FlagsOk (s.statusWrite v) := by
  obtain ⟨hhv, htv, hbusy, hcode⟩ := hs
  refine ⟨hhv, htv, fun hb => ?_, hcode⟩
  obtain ⟨hdone, herr, hreport⟩ := hbusy hb
  exact ⟨by simp [hdone], by simp [herr], hreport⟩

theorem stepInvariant_flagsOk : StepInvariant FlagsOk where
  hostFields _ _ hs := hs
  issue _ _ := fun ⟨hhv, htv, _, _⟩ => ⟨hhv, htv, fun _ => ⟨rfl, rfl, rfl, rfl, rfl, rfl⟩, Nat.zero_le _⟩
  statusWrite := flagsOk_statusWrite
  inMemWrite _ _ _ _ hs := hs
  newFreq _ _ := fun ⟨_, _, hreport⟩ => ⟨nofun, fun _ => rfl, hreport⟩
  hardReset _ _ := ⟨nofun, nofun, nofun, Nat.zero_le _⟩
  softReset _ := fun ⟨_, _, hbusy, hcode⟩ =>
    ⟨nofun, nofun, fun hb => have ⟨hdone, herr, hzero, _⟩ := hbusy hb; ⟨hdone, herr, hzero, rfl, rfl, rfl⟩, hcode⟩
  complete _ := fun ⟨hhv, htv, _, hcode⟩ => ⟨hhv, htv, nofun, hcode⟩
  errorComplete _ e _ _ _ := fun ⟨hhv, htv, _, _⟩ => ⟨hhv, htv, nofun, e.code_le⟩
  buildTree := buildTreeBody_keepsFlags
  genCodes := genCodesBody_keepsFlags
  writeHeader := writeHeaderBody_keepsFlags
  pack := packBody_keeps fun _ _ hs => hs
  readHeader := readHeaderBody_keepsFlags
  unpack := unpackBody_keeps fun _ _ hs => hs

/-- Settles O57: each update of a step keeps R57, R58 and the bound on ERRCODE. -/
theorem stepKeepsFlags : Obligations.StepKeepsFlags :=
  fun _ _ hs hstep => stepInvariant_flagsOk.step hs hstep

end Sys2Proof.Machine

namespace Sys2Proof.Machine

/-! ### Accepted register accesses (R66, R70, R248) -/

theorem accepts_reg_of_idle {s : State} {off : Byte} (hidle : s.busy = false) (hal : off.toNat % 4 = 0) (v : Word) :
    s.accepts (.read .w32 (.reg off)) = true ∧ s.accepts (.write .w32 (.reg off) v) = true := by
  simp [State.accepts, formAllowed, hidle, hal]

theorem hostAccess_read_reg {s : State} {off : Byte} (hidle : s.busy = false) (hal : off.toNat % 4 = 0) :
    s.hostAccess (.read .w32 (.reg off)) = { s with rdata := s.regRead off } := by
  rw [State.hostAccess, if_pos (accepts_reg_of_idle hidle hal 0).1, State.readValue]

theorem hostAccess_write_reg {s : State} {off : Byte} (hidle : s.busy = false) (hal : off.toNat % 4 = 0) (v : Word) :
    s.hostAccess (.write .w32 (.reg off) v) = s.regWrite off v := by
  rw [State.hostAccess, if_pos (accepts_reg_of_idle hidle hal v).2, State.writeValue]

/-- STATUS is readable at all times (R24). -/
theorem hostAccess_read_status (s : State) :
    s.hostAccess (.read .w32 (.reg 0x08)) = { s with rdata := s.statusWord } := by
  simp [State.hostAccess, State.accepts, formAllowed, busyAllowed, State.readValue, State.regRead]

/-- STATUS is writable at all times (R32, R248). -/
theorem hostAccess_write_status (s : State) (v : Word) :
    s.hostAccess (.write .w32 (.reg 0x08) v) = s.statusWrite v := by
  simp [State.hostAccess, State.accepts, formAllowed, busyAllowed, State.writeValue, State.regWrite]

/-- Settles O16: a STATUS write is `statusWrite`, whose conjunctions with a negated bit are the three clears. -/
theorem statusWriteOneToClear : Obligations.StatusWriteOneToClear := by
  intro s v
  have hclear (b c : Bool) : (b && !c) = if c then false else b := by cases b <;> cases c <;> rfl
  rw [hostAccess_write_status, State.statusWrite, hclear, hclear, hclear]

/-! ### Register writes and reserved offsets while IDLE (R33 to R35, R46, R47, R51) -/

/-- A read-only register or a reserved offset ignores a write (R51). -/
theorem regWrite_ignored (s : State) {off : Byte} (v : Word)
    (hoff : off.toNat ∉ [0x04, 0x08, 0x0C, 0x10, 0x14, 0x30, 0x34]) : s.regWrite off v = s := by
  simp only [List.mem_cons, List.not_mem_nil, or_false, not_or] at hoff
  unfold State.regWrite
  split
  any_goals omega
  rfl

/-- A reserved offset reads 0 (R51). -/
theorem regRead_reserved (s : State) {off : Byte} (hoff : 0x58 ≤ off.toNat) : s.regRead off = 0 := by
  unfold State.regRead
  split
  any_goals omega
  rfl

/-- Settles O15: an accepted write is `regWrite` at its offset. -/
theorem idleRegisterWrites : Obligations.IdleRegisterWrites := by
  intro s off v hidle hal
  refine ⟨?inLen, ?outLen, ?tblIdx, ?irqEn, ?freqData, ?ignored, ?reserved⟩
  case inLen | outLen | tblIdx | irqEn => exact hostAccess_write_reg hidle (by decide) v
  case freqData =>
    refine ⟨_, hostAccess_write_reg hidle (by decide) v, rfl, ?_, fun x hx => ?_⟩
    · exact tblGet_tblSet_same s.freq s.tblIdx v
    · exact tblGet_tblSet_other s.freq hx v
  case ignored =>
    intro hoff
    rw [hostAccess_write_reg hidle hal, regWrite_ignored s v hoff]
  case reserved =>
    intro hoff
    rw [hostAccess_read_reg hidle hal, regRead_reserved s hoff]

/-! ### The STATUS word (R24) -/

@[simp] theorem getLsbD_flagBit (b : Bool) {n : Nat} (hn : n < 32) (k : Nat) :
    (flagBit b n).getLsbD k = (b && decide (k = n)) := by
  cases b with
  | false => simp [flagBit]
  | true =>
    rw [flagBit, if_pos rfl, Bool.true_and, Bool.eq_iff_iff]
    simp [BitVec.getLsbD_shiftLeft, BitVec.getLsbD_one]
    omega

/-- A byte placed in the low bits of a word. -/
theorem getLsbD_byte_low (x : Byte) (k : Nat) : (x.setWidth 32).getLsbD k = x.getLsbD k := by
  rw [BitVec.getLsbD_setWidth]
  by_cases hk : k < 32
  · simp [hk]
  · simp [BitVec.getLsbD_of_ge x k (by omega)]

/-- A byte placed in bits [15:8] of a word. -/
theorem getLsbD_byte_shifted (x : Byte) (k : Nat) :
    (x.setWidth 32 <<< 8).getLsbD k = (decide (8 ≤ k) && x.getLsbD (k - 8)) := by
  rw [BitVec.getLsbD_shiftLeft, getLsbD_byte_low]
  by_cases hk : k < 32
  · have h8 : (!decide (k < 8)) = decide (8 ≤ k) := by rw [← decide_not, decide_eq_decide, Nat.not_lt]
    rw [decide_eq_true hk, Bool.true_and, h8]
  · simp [hk, BitVec.getLsbD_of_ge x (k - 8) (by omega)]

/-- STATUS bit by bit (R24). -/
theorem getLsbD_statusWord (s : State) (k : Nat) :
    s.statusWord.getLsbD k =
      (s.busy && decide (k = 0) || s.done && decide (k = 1) || s.err && decide (k = 2) ||
        s.accErr && decide (k = 3) || s.irq && decide (k = 4) || decide (8 ≤ k) && s.errCode.getLsbD (k - 8) ||
        s.fv && decide (k = 16) || s.tv && decide (k = 17) || s.cv && decide (k = 18) || s.hv && decide (k = 19)) := by
  simp only [State.statusWord, BitVec.getLsbD_or, getLsbD_byte_shifted, getLsbD_flagBit, Nat.reduceLT]

/-- A field of a word is a value when its bits are the value's bits. -/
theorem extractLsb'_eq_of_bits {w : Word} {start len : Nat} {x : BitVec len}
    (h : ∀ i, i < len → w.getLsbD (start + i) = x.getLsbD i) : w.extractLsb' start len = x := by
  apply BitVec.eq_of_getLsbD_eq
  intro i hi
  rw [BitVec.getLsbD_extractLsb', decide_eq_true hi, Bool.true_and, h i hi]

/-- ERRCODE stands in bits [15:8] (R24). -/
theorem extractLsb'_statusWord (s : State) : s.statusWord.extractLsb' 8 8 = s.errCode := by
  refine extractLsb'_eq_of_bits fun i hi => ?_
  have hne (n : Nat) (hn : n < 8 ∨ 16 ≤ n) : 8 + i ≠ n := by omega
  rw [getLsbD_statusWord]
  simp [hne]

/-- Settles O17: each clause reads `getLsbD_statusWord` at its bit. -/
theorem statusWordLayout : Obligations.StatusWordLayout := by
  intro s
  refine ⟨?busy, ?done, ?err, ?accErr, ?irq, fun k h5 h8 => ?zeroBelow8, extractLsb'_statusWord s, ?fv, ?tv, ?cv, ?hv,
    fun k h20 => ?zeroFrom20, hostAccess_read_status s⟩
  all_goals rw [getLsbD_statusWord]
  case zeroBelow8 =>
    have hne (n : Nat) (hn : n < 5 ∨ 8 ≤ n) : k ≠ n := by omega
    simp [hne, Nat.not_le.mpr h8]
  case zeroFrom20 =>
    have hne (n : Nat) (hn : n < 20) : k ≠ n := by omega
    simp [hne, BitVec.getLsbD_of_ge s.errCode (k - 8) (by omega)]
  all_goals simp [State.irq]

/-! ### What a register read returns while IDLE (R22, R23, R33 to R37, R46 to R50) -/

/-- The digits read before a code weigh 2^len (R13). -/
theorem codeVal_foldl (c : Code) (v : Nat) :
    c.foldl (fun v b => 2 * v + b.toNat) v = v * 2 ^ c.length + codeVal c := by
  induction c generalizing v with
  | nil => simp [codeVal]
  | cons b c ih =>
    rw [codeVal, List.foldl_cons, List.foldl_cons, ih, ih, List.length_cons]
    ring

theorem codeVal_cons (b : Bool) (c : Code) : codeVal (b :: c) = b.toNat * 2 ^ c.length + codeVal c := by
  rw [codeVal, List.foldl_cons, codeVal_foldl]
  simp

theorem codeVal_lt (c : Code) : codeVal c < 2 ^ c.length := by
  induction c with
  | nil => simp [codeVal]
  | cons b c ih =>
    have hb : b.toNat * 2 ^ c.length ≤ 1 * 2 ^ c.length := Nat.mul_le_mul_right _ (Bool.toNat_le b)
    rw [codeVal_cons, List.length_cons]
    omega

/-- The field of a code of at most 127 bits holds its value (R97): 2^len + val fits 128 bits. -/
theorem toNat_fieldOf {c : Code} (hc : c.length ≤ 127) :
    (fieldOf c).toNat = if c = [] then 0 else 2 ^ c.length + codeVal c := by
  rw [fieldOf]
  split
  · rfl
  · have hval := codeVal_lt c
    have hpow : 2 ^ c.length ≤ 2 ^ 127 := Nat.pow_le_pow_right (by decide) hc
    rw [BitVec.toNat_ofNat, Nat.mod_eq_of_lt (by omega)]

/-- A field is its four words, most significant first (R48). -/
theorem field_words (F : Field) :
    (F.extractLsb' 96 32).toNat * 2 ^ 96 + (F.extractLsb' 64 32).toNat * 2 ^ 64 +
      (F.extractLsb' 32 32).toNat * 2 ^ 32 + (F.extractLsb' 0 32).toNat = F.toNat := by
  have hF := F.isLt
  simp only [BitVec.extractLsb'_toNat, Nat.shiftRight_eq_div_pow]
  omega

/-- ERR_INFO holds SUBCODE in bits [7:0], STAGE in bits [15:8] and 0 above (R37). -/
theorem errInfoWord_fields (s : State) :
    s.errInfoWord.extractLsb' 0 8 = s.errSub ∧ s.errInfoWord.extractLsb' 8 8 = s.errStage ∧
      s.errInfoWord.extractLsb' 16 16 = 0 := by
  have hbit (k : Nat) : s.errInfoWord.getLsbD k =
      (s.errSub.getLsbD k || decide (8 ≤ k) && s.errStage.getLsbD (k - 8)) := by
    rw [State.errInfoWord, BitVec.getLsbD_or, getLsbD_byte_low, getLsbD_byte_shifted]
  refine ⟨?subcode, ?stage, ?upper⟩ <;> refine extractLsb'_eq_of_bits fun i hi => ?_ <;> rw [hbit]
  case subcode => simp [hi]
  case stage => simp
  case upper =>
    simp [BitVec.getLsbD_of_ge s.errSub (16 + i) (by omega),
      BitVec.getLsbD_of_ge s.errStage (16 + i - 8) (by omega)]

/-- The CODE windows of a code of at most 127 bits: its length, and its field in four words (R40, R48). -/
theorem code_windows {s : State} (hlen : (tblGet s.code s.tblIdx).length ≤ 127) :
    (s.regRead 0x38).toNat = (tblGet s.code s.tblIdx).length ∧
    (s.regRead 0x3C).toNat * 2 ^ 96 + (s.regRead 0x40).toNat * 2 ^ 64 + (s.regRead 0x44).toNat * 2 ^ 32 +
        (s.regRead 0x48).toNat =
      if tblGet s.code s.tblIdx = [] then 0
      else 2 ^ (tblGet s.code s.tblIdx).length + codeVal (tblGet s.code s.tblIdx) := by
  constructor
  · exact (BitVec.toNat_ofNat ..).trans (Nat.mod_eq_of_lt (by omega))
  · rw [← toNat_fieldOf hlen]
    exact field_words (fieldOf (tblGet s.code s.tblIdx))

/-- The ORDER window: the symbol, then the bit that says whether TBL_IDX < N_SYM (R49). -/
theorem order_window (s : State) :
    (s.regRead 0x4C).extractLsb' 0 8 = tblGet s.order s.tblIdx ∧
    (s.regRead 0x4C).getLsbD 8 = decide (s.tblIdx.toNat < s.nSym.toNat) ∧
    ∀ k, 9 ≤ k → (s.regRead 0x4C).getLsbD k = false := by
  have hbit (k : Nat) : (s.regRead 0x4C).getLsbD k =
      ((tblGet s.order s.tblIdx).getLsbD k || decide (s.tblIdx.toNat < s.nSym.toNat) && decide (k = 8)) := by
    change ((tblGet s.order s.tblIdx).setWidth 32 ||| flagBit _ 8).getLsbD k = _
    rw [BitVec.getLsbD_or, getLsbD_byte_low, getLsbD_flagBit _ (by decide)]
  refine ⟨?_, ?_, fun k hk => ?_⟩
  · refine extractLsb'_eq_of_bits fun i hi => ?_
    have hne : i ≠ 8 := by omega
    rw [hbit]
    simp [hne]
  · rw [hbit]
    simp
  · have hne : k ≠ 8 := by omega
    rw [hbit]
    simp [hne, BitVec.getLsbD_of_ge (tblGet s.order s.tblIdx) k (by omega)]

/-- Settles O18: an accepted read is `regRead` at its offset, and the windows are said by `code_windows` and
`order_window`. -/
theorem tableWindows : Obligations.TableWindows := by
  intro s hidle
  have hread (off : Byte) (hal : off.toNat % 4 = 0) (v : Word) (hv : s.regRead off = v) :
      s.hostAccess (.read .w32 (.reg off)) = { s with rdata := v } := hv ▸ hostAccess_read_reg hidle hal
  refine ⟨?windows, ?id, ?cmd, ?irqEn, ?inLen, ?outLen, ?hdrLen, ?nSym, ?maxLen, ?pad, ?errInfo, ?errAddr, ?tblIdx,
    ?inCap, ?outCap, ?freqWindow, ?codeWindows, ?orderWindow⟩
  case windows =>
    intro off hoff
    have hal : off.toNat % 4 = 0 := by
      simp only [List.mem_cons, List.not_mem_nil, or_false] at hoff
      omega
    exact hread off hal _ rfl
  case id | cmd | inLen | outLen | hdrLen | errAddr | inCap | outCap => exact hread _ (by decide) _ rfl
  case nSym | maxLen | pad | tblIdx => exact hread _ (by decide) _ (BitVec.ofNat_toNat 32 _).symm
  case irqEn =>
    refine hread _ (by decide) _ ?_
    change flagBit s.ie 0 = _
    cases s.ie <;> rfl
  case errInfo => exact ⟨_, hread _ (by decide) _ rfl, errInfoWord_fields s⟩
  case freqWindow => rfl
  case codeWindows => exact code_windows
  case orderWindow => exact order_window s

end Sys2Proof.Machine

namespace Sys2Proof.Machine

/-! ### The longest code (R36, R39) -/

theorem foldl_max_le_iff (cs : List Code) (a m : Nat) :
    cs.foldl (fun m c => max m c.length) a ≤ m ↔ a ≤ m ∧ ∀ c ∈ cs, c.length ≤ m := by
  induction cs generalizing a with
  | nil => simp
  | cons c cs ih => rw [List.foldl_cons, ih, List.forall_mem_cons, Nat.max_le, and_assoc]

theorem mem_toList_iff {α : Type} (t : Table α) (v : α) : v ∈ t.toList ↔ ∃ x, tblGet t x = v := by
  rw [Vector.mem_toList_iff, Vector.mem_iff_getElem]
  constructor
  · rintro ⟨i, hi, h⟩
    exact ⟨BitVec.ofNat 8 i, by simpa [tblGet, Nat.mod_eq_of_lt hi] using h⟩
  · rintro ⟨x, h⟩
    exact ⟨x.toNat, x.isLt, h⟩

/-- A bound on the longest code bounds the code of every symbol. -/
theorem longestCode_le_iff (t : Table Code) (m : Nat) : longestCode t ≤ m ↔ ∀ x, (tblGet t x).length ≤ m := by
  rw [longestCode, foldl_max_le_iff]
  simp only [mem_toList_iff, forall_exists_index, forall_apply_eq_imp_iff, Nat.zero_le, true_and]

/-- The register MAX_LEN holds the longest code length when no code exceeds 127 bits. -/
theorem toNat_longestCode {t : Table Code} (h : longestCode t ≤ maxCodeLen) :
    (BitVec.ofNat 8 (longestCode t)).toNat = longestCode t := by
  rw [maxCodeLen] at h
  rw [BitVec.toNat_ofNat, Nat.mod_eq_of_lt (by omega)]

theorem mem_allSymbols (x : Byte) : x ∈ allSymbols :=
  List.mem_map.2 ⟨x.toNat, List.mem_range.2 x.isLt, by simp⟩

/-- The check of R143 passes only when no code exceeds 127 bits. -/
theorem longestCode_le_of_tooLongSymbol {t : Table Code} (h : tooLongSymbol t = none) :
    longestCode t ≤ maxCodeLen := by
  rw [tooLongSymbol_eq, List.find?_eq_none] at h
  rw [longestCode_le_iff]
  intro x
  simpa using h x (mem_allSymbols x)

/-! ### The records READ_HEADER accepts (R155) -/

/-- A field of 128 bits holds a code of at most 127 bits (R98). -/
theorem length_codeOfField_le (F : Field) : (codeOfField F).length ≤ maxCodeLen := by
  have hlog : Nat.log2 F.toNat < 128 := by
    by_cases hF : F.toNat = 0
    · simp [hF]
    · exact (Nat.log2_lt hF).2 F.isLt
  rw [codeOfField, List.length_map, List.length_range, maxCodeLen]
  omega

theorem recordsOk_append {acc : List (Byte × Code)} {x : Byte} {c : Code} (hacc : RecordsOk acc) (hc : c ≠ [])
    (hlen : c.length ≤ maxCodeLen) (hx : x ∉ acc.map Prod.fst) (hclash : ∀ r ∈ acc, prefixClash r.2 c = false) :
    RecordsOk (acc ++ [(x, c)]) := by
  obtain ⟨hnodup, hlens, hpair⟩ := hacc
  refine ⟨?_, ?_, ?_⟩
  · rw [List.map_append, List.map_singleton, List.nodup_append_comm]
    exact List.nodup_cons.2 ⟨hx, hnodup⟩
  · rw [List.forall_mem_append]
    exact ⟨hlens, by simpa using ⟨List.length_pos_iff.2 hc, hlen⟩⟩
  · rw [List.pairwise_append]
    exact ⟨hpair, List.pairwise_singleton _ _, by simpa using fun y d hd => hclash (y, d) hd⟩

/-- The record loop appends one acceptable record a round. -/
theorem readRecords_ok {rd : Nat → Byte} {n k : Nat} {acc rs : List (Byte × Code)}
    (h : readRecords rd n k acc = .ok rs) (hacc : RecordsOk acc) :
    RecordsOk rs ∧ rs.length = acc.length + n := by
  induction n generalizing k acc with
  | zero => cases h; exact ⟨hacc, rfl⟩
  | succ n ih =>
    simp only [readRecords] at h
    split at h
    · cases h
    split at h
    · cases h
    split at h
    · cases h
    split at h
    · cases h
    next hF hne hsym hclash =>
    obtain ⟨hrs, hlen⟩ := ih h (recordsOk_append hacc hne (length_codeOfField_le _)
      (by simpa using hsym) (by simpa using hclash))
    refine ⟨hrs, ?_⟩
    rw [hlen, List.length_append, List.length_singleton]
    omega

theorem recordsOk_nil : RecordsOk [] := by simp [RecordsOk]

theorem countOf_le (c : Byte) : 1 ≤ countOf c ∧ countOf c ≤ 256 := by
  have hc := c.isLt
  rw [countOf]
  split
  · omega
  · rename_i h0
    have : c.toNat ≠ 0 := fun h => h0 (BitVec.eq_of_toNat_eq h)
    omega

/-- The code table of acceptable records has no code above 127 bits. -/
theorem longestCode_codeTableOf_le {rs : List (Byte × Code)} (h : RecordsOk rs) :
    longestCode (codeTableOf rs) ≤ maxCodeLen := by
  obtain ⟨hnodup, hlens, -⟩ := h
  rw [longestCode_le_iff]
  intro x
  by_cases hx : x ∈ rs.map Prod.fst
  · obtain ⟨r, hr, rfl⟩ := List.mem_map.1 hx
    rw [codeTableOf_present rs hnodup r hr]
    exact (hlens r hr).2
  · rw [codeTableOf_absent rs x hx]
    exact Nat.zero_le _

/-! ### N_SYM and ORDER as commands write them (R36, R41) -/

theorem toNat_nSym {n : Nat} (h : n ≤ 256) : (BitVec.ofNat 9 n).toNat = n := by
  rw [BitVec.toNat_ofNat, Nat.mod_eq_of_lt (by omega)]

theorem toNat_hdrLen {n : Nat} (h : n < 512) : (BitVec.ofNat 32 (headerLen n)).toNat = headerLen n := by
  rw [BitVec.toNat_ofNat, headerLen, recordByteCount, Nat.mod_eq_of_lt (by omega)]

/-- ORDER as a command writes it is 0 past the list. -/
theorem orderAt_orderTable_past {xs : List Byte} {n : Nat} (hxs : xs.length ≤ n) (k : Nat) (hk : k < 256)
    (hn : n ≤ k) : orderAt (orderTable xs) k = 0 := by
  rw [orderAt_orderTable xs k hk, List.getD_eq_default _ _ (by omega)]

theorem length_leavesOf_le (freq : Table Word) : (leavesOf freq).length ≤ 256 := by
  rw [leavesOf_eq, List.length_map]
  refine (List.length_filter_le ..).trans ?_
  simp [allSymbols]

theorem length_keysFrom (i : Nat) (ns : List Node) : (keysFrom i ns).length = ns.length := by
  induction ns generalizing i with
  | nil => rfl
  | cons n ns ih => simp [keysFrom, ih]

theorem length_leafOrder_le (leaves : List Node) : (leafOrder leaves).length ≤ leaves.length := by
  calc (leafOrder leaves).length
      ≤ (sortedKeys leaves).length := List.length_filterMap_le ..
    _ = leaves.length := by rw [(sortedKeys_perm leaves).length_eq, length_keysFrom]

/-! ### The result registers (R31, R36, R39, R41) -/

/-- The reset values meet the result registers' invariant. -/
theorem registersOk_powerOn (cfg : Config) : RegistersOk (State.powerOn cfg) := by
  have hlongest : longestCode (Vector.replicate 256 []) = 0 := by
    rw [← Nat.le_zero, longestCode_le_iff]
    simp
  refine ⟨Nat.zero_le _, fun k hk _ => ?_, ?_, hlongest.symm, nofun⟩
  · change (Vector.replicate 256 (0 : Byte)).toList.getD k 0 = 0
    rw [Vector.toList_replicate, List.getD_replicate _ hk]
  · exact hlongest.trans_le (Nat.zero_le _)

theorem buildTreeBody_keepsRegisters : BodyKeeps RegistersOk buildTreeBody := by
  intro s hs
  obtain ⟨-, h⟩ | ⟨-, -, h⟩ | ⟨-, -, h⟩ := buildTreeBody_cases s
  · rw [h]; exact hs
  · rw [h]; exact hs
  · obtain ⟨-, -, hcode, hmax, -⟩ := hs
    have hn := toNat_nSym (length_leavesOf_le s.freq)
    rw [h]
    refine ⟨hn.trans_le (length_leavesOf_le s.freq), fun k hk hle => ?_, hcode, hmax, nofun⟩
    exact orderAt_orderTable_past (length_leafOrder_le _) k hk (hn.symm.trans_le hle)

theorem genCodesBody_keepsRegisters : BodyKeeps RegistersOk genCodesBody := by
  intro s hs
  obtain ⟨-, h⟩ | ⟨x, -, -, h⟩ | ⟨-, hnone, h⟩ := genCodesBody_cases s
  · rw [h]; exact hs
  · rw [h]; exact hs
  · obtain ⟨hn, horder, -, -, -⟩ := hs
    have hlong := longestCode_le_of_tooLongSymbol hnone
    rw [h]
    exact ⟨hn, horder, hlong, toNat_longestCode hlong, nofun⟩

theorem writeHeaderBody_keepsRegisters : BodyKeeps RegistersOk writeHeaderBody := by
  intro s hs
  obtain ⟨-, h⟩ | ⟨-, -, h⟩ | ⟨-, -, h⟩ := writeHeaderBody_cases s
  · rw [h]; exact hs
  · rw [h]; exact hs
  · obtain ⟨hn, horder, hcode, hmax, -⟩ := hs
    rw [h]
    exact ⟨hn, horder, hcode, hmax, fun _ => toNat_hdrLen s.nSym.isLt⟩

theorem readHeaderBody_keepsRegisters : BodyKeeps RegistersOk readHeaderBody := by
  intro s hs
  obtain ⟨e, sub, a, h, -⟩ | ⟨rs, -, -, hread, h⟩ := readHeaderBody_cases s
  · rw [h]; exact hs
  · obtain ⟨hrs, hlen⟩ := readRecords_ok hread recordsOk_nil
    obtain ⟨-, hcount⟩ := countOf_le (s.inByte 0)
    have hn := toNat_nSym hcount
    have hlong := longestCode_codeTableOf_le hrs
    rw [h]
    refine ⟨hn.trans_le hcount, fun k hk hle => ?_, hlong, toNat_longestCode hlong, fun _ => ?_⟩
    · have hxs : (rs.map Prod.fst).length ≤ countOf (s.inByte 0) := by simp [hlen]
      exact orderAt_orderTable_past hxs k hk (hn.symm.trans_le hle)
    · exact (toNat_hdrLen (by omega)).trans (congrArg headerLen hn.symm)

theorem stepInvariant_registersOk : StepInvariant RegistersOk where
  hostFields _ _ hs := hs
  issue _ _ hs := hs
  statusWrite _ _ hs := hs
  inMemWrite _ _ _ _ hs := hs
  newFreq _ _ := fun ⟨hn, horder, hcode, hmax, _⟩ => ⟨hn, horder, hcode, hmax, nofun⟩
  hardReset s _ := registersOk_powerOn s.cfg
  softReset s _ := registersOk_powerOn s.cfg
  complete _ hs := hs
  errorComplete _ _ _ _ _ hs := hs
  buildTree := buildTreeBody_keepsRegisters
  genCodes := genCodesBody_keepsRegisters
  writeHeader := writeHeaderBody_keepsRegisters
  pack := packBody_keeps fun _ _ hs => hs
  readHeader := readHeaderBody_keepsRegisters
  unpack := unpackBody_keeps fun _ _ hs => hs

/-- Settles O59: the commands that write a result register write it in agreement with the table. -/
theorem stepKeepsRegisters : Obligations.StepKeepsRegisters :=
  fun _ _ hs hstep => stepInvariant_registersOk.step hs hstep

end Sys2Proof.Machine

namespace Sys2Proof.Machine

/-! ### Node stores: children, descents and paths (R42, R116, R141) -/

/-- The child of node `i` on the edge `b`: 0 is the left edge, 1 the right one (R141). -/
def childAt (ns : List Node) (i : Nat) (b : Bool) : Option Nat :=
  match ns[i]? with
  | some (.internal _ l r) => if b then r else some l
  | _ => none

/-- The path `p` leads from node `r` down to node `i`. -/
inductive Descends (ns : List Node) (r : Nat) : Code → Nat → Prop where
  | root : Descends ns r [] r
  | child {p : Code} {i j : Nat} {b : Bool} : Descends ns r p i → childAt ns i b = some j → Descends ns r (p ++ [b]) j

theorem childAt_eq_some {ns : List Node} {i j : Nat} {b : Bool} (h : childAt ns i b = some j) :
    ∃ f l r, ns[i]? = some (.internal f l r) ∧ (if b then r else some l) = some j := by
  unfold childAt at h
  split at h
  · exact ⟨_, _, _, ‹_›, h⟩
  · cases h

theorem childAt_of_internal {ns : List Node} {i : Nat} {f : NodeFreq} {l : Nat} {r : Option Nat}
    (h : ns[i]? = some (.internal f l r)) (b : Bool) : childAt ns i b = if b then r else some l := by
  simp [childAt, h]

theorem mem_childEdges {ns : List Node} {j : Nat} :
    j ∈ childEdges ns ↔ ∃ (i : Nat) (nd : Node), ns[i]? = some nd ∧ j ∈ childrenOf nd := by
  rw [childEdges, List.mem_flatMap]
  constructor
  · rintro ⟨nd, hnd, hj⟩
    obtain ⟨i, hi⟩ := List.mem_iff_getElem?.1 hnd
    exact ⟨i, nd, hi, hj⟩
  · rintro ⟨i, nd, hi, hj⟩
    exact ⟨nd, List.mem_of_getElem? hi, hj⟩

theorem mem_childrenOf {nd : Node} {j : Nat} :
    j ∈ childrenOf nd ↔ ∃ f l r, nd = .internal f l r ∧ ∃ b : Bool, (if b then r else some l) = some j := by
  cases nd with
  | leaf x f => simp [childrenOf]
  | internal f l r => cases r <;> simp [childrenOf, eq_comm]

/-- The child edges are what `childAt` answers. -/
theorem mem_childEdges_iff_childAt {ns : List Node} {j : Nat} :
    j ∈ childEdges ns ↔ ∃ i b, childAt ns i b = some j := by
  rw [mem_childEdges]
  constructor
  · rintro ⟨i, nd, hi, hj⟩
    obtain ⟨f, l, r, rfl, b, hb⟩ := mem_childrenOf.1 hj
    exact ⟨i, b, (childAt_of_internal hi b).trans hb⟩
  · rintro ⟨i, b, h⟩
    obtain ⟨f, l, r, hi, hb⟩ := childAt_eq_some h
    exact ⟨i, _, hi, mem_childrenOf.2 ⟨f, l, r, rfl, b, hb⟩⟩

/-- When no node is listed twice as a child, a node has one parent. -/
theorem parent_unique {ns : List Node} (hnodup : (childEdges ns).Nodup) {i i' j : Nat} {nd nd' : Node}
    (hi : ns[i]? = some nd) (hi' : ns[i']? = some nd') (hj : j ∈ childrenOf nd) (hj' : j ∈ childrenOf nd') :
    i = i' := by
  by_contra hne
  wlog hlt : i < i' generalizing i i' nd nd'
  · exact this hi' hi hj' hj (Ne.symm hne) (by omega)
  obtain ⟨hlen, hget⟩ := List.getElem?_eq_some_iff.1 hi
  obtain ⟨hlen', hget'⟩ := List.getElem?_eq_some_iff.1 hi'
  have hdisj := List.pairwise_iff_getElem.1 (List.nodup_flatMap.1 hnodup).2 i i' hlen hlen' hlt
  rw [Function.onFun, hget, hget'] at hdisj
  exact hdisj hj hj'

/-- When no node is listed twice as a child, a node has one parent and one edge from it. -/
theorem childAt_inj {ns : List Node} (hnodup : (childEdges ns).Nodup) {i i' j : Nat} {b b' : Bool}
    (h : childAt ns i b = some j) (h' : childAt ns i' b' = some j) : i = i' ∧ b = b' := by
  obtain ⟨f, l, r, hi, hb⟩ := childAt_eq_some h
  obtain ⟨f', l', r', hi', hb'⟩ := childAt_eq_some h'
  obtain rfl : i = i' := parent_unique hnodup hi hi' (mem_childrenOf.2 ⟨f, l, r, rfl, b, hb⟩)
    (mem_childrenOf.2 ⟨f', l', r', rfl, b', hb'⟩)
  cases hi.symm.trans hi'
  refine ⟨rfl, ?_⟩
  by_contra hne
  obtain ⟨rfl, rfl⟩ : r = some j ∧ l = j := by cases b <;> cases b' <;> simp_all
  have htwice := (List.nodup_flatMap.1 hnodup).1 _ (List.mem_of_getElem? hi)
  simp [childrenOf] at htwice

/-- In a store that lists no node twice as a child, the path down to a node is unique. -/
theorem Descends.unique {ns : List Node} {r : Nat} (hnodup : (childEdges ns).Nodup) (hroot : r ∉ childEdges ns)
    {p q : Code} {i : Nat} (hp : Descends ns r p i) (hq : Descends ns r q i) : p = q := by
  induction hp generalizing q with
  | root =>
    cases hq with
    | root => rfl
    | child _ hc => exact absurd (mem_childEdges_iff_childAt.2 ⟨_, _, hc⟩) hroot
  | child _ hc ih =>
    cases hq with
    | root => exact absurd (mem_childEdges_iff_childAt.2 ⟨_, _, hc⟩) hroot
    | child hq' hc' =>
      obtain ⟨rfl, rfl⟩ := childAt_inj hnodup hc hc'
      rw [ih hq']

/-- A descent followed by a path to a leaf is a path to that leaf. -/
theorem Descends.pathTo {ns : List Node} {r : Nat} {p q : Code} {i : Nat} {x : Byte} (hp : Descends ns r p i)
    (hq : PathTo ns i q x) : PathTo ns r (p ++ q) x := by
  induction hp generalizing q with
  | root => exact hq
  | @child p i j b _ hc ih =>
    obtain ⟨f, l, r', hi, hb⟩ := childAt_eq_some hc
    rw [List.append_assoc]
    apply ih
    cases b with
    | false => cases hb; exact .left i f _ r' q x hi hq
    | true => cases hb; exact .right i f l _ q x hi hq

/-- A path to a leaf ends at a node that is that leaf. -/
theorem PathTo.descends {ns : List Node} {r i : Nat} {p q : Code} {x : Byte} (hq : PathTo ns i q x)
    (hp : Descends ns r p i) : ∃ j f, ns[j]? = some (.leaf x f) ∧ Descends ns r (p ++ q) j := by
  induction hq generalizing p with
  | here i x f hi => exact ⟨i, f, hi, by rwa [List.append_nil]⟩
  | left i f l r' q x hi _ ih =>
    have := ih (hp.child (childAt_of_internal hi false))
    rwa [List.append_assoc] at this
  | right i f l r' q x hi _ ih =>
    have := ih (hp.child (childAt_of_internal hi true))
    rwa [List.append_assoc] at this

/-- A path that begins like a path to a leaf is that path: nothing goes on below a leaf. -/
theorem PathTo.eq_of_prefix {ns : List Node} {i : Nat} {p q : Code} {x y : Byte} (hp : PathTo ns i p x)
    (hq : PathTo ns i q y) (hpre : p <+: q) : x = y := by
  induction hp generalizing q with
  | here i x f hi =>
    cases hq with
    | here _ _ _ hi' => cases hi.symm.trans hi'; rfl
    | left _ _ _ _ _ _ hi' _ => cases hi.symm.trans hi'
    | right _ _ _ _ _ _ hi' _ => cases hi.symm.trans hi'
  | left i f l r p x hi _ ih =>
    cases hq with
    | here _ _ _ hi' => cases hi.symm.trans hi'
    | left _ _ _ _ _ _ hi' hq' =>
      cases hi.symm.trans hi'
      exact ih hq' (List.cons_prefix_cons.1 hpre).2
    | right _ _ _ _ _ _ hi' hq' => exact absurd (List.cons_prefix_cons.1 hpre).1 (by decide)
  | right i f l r p x hi _ ih =>
    cases hq with
    | here _ _ _ hi' => cases hi.symm.trans hi'
    | left _ _ _ _ _ _ hi' hq' => exact absurd (List.cons_prefix_cons.1 hpre).1 (by decide)
    | right _ _ _ _ _ _ hi' hq' =>
      cases hi.symm.trans hi'
      exact ih hq' (List.cons_prefix_cons.1 hpre).2

/-! ### The walk of GEN_CODES (R140, R141) -/

/-- The walk answers only path strings. -/
theorem exists_pathTo_of_mem_walk {ns : List Node} {n i : Nat} {p q : Code} {x : Byte}
    (h : (x, q) ∈ walk ns n i p) : ∃ q', q = p ++ q' ∧ PathTo ns i q' x := by
  induction n generalizing i p with
  | zero => simp [walk] at h
  | succ n ih =>
    simp only [walk] at h
    split at h
    · simp at h
    next y f hi =>
      obtain ⟨rfl, rfl⟩ : x = y ∧ q = p := by simpa using h
      exact ⟨[], (List.append_nil q).symm, .here i x f hi⟩
    next f l r hi =>
      rcases List.mem_append.1 h with h | h
      · obtain ⟨q', rfl, hq'⟩ := ih h
        exact ⟨false :: q', by simp, .left i f l r q' x hi hq'⟩
      · cases r with
        | none => simp at h
        | some r =>
          obtain ⟨q', rfl, hq'⟩ := ih h
          exact ⟨true :: q', by simp, .right i f l r q' x hi hq'⟩

/-- The walk reaches every leaf whose path is shorter than its depth bound. -/
theorem mem_walk_of_pathTo {ns : List Node} {n i : Nat} {p q : Code} {x : Byte} (h : PathTo ns i q x)
    (hlen : q.length < n) : (x, p ++ q) ∈ walk ns n i p := by
  induction h generalizing n p with
  | here i x f hi =>
    obtain ⟨n, rfl⟩ := Nat.exists_eq_succ_of_ne_zero (Nat.ne_zero_of_lt hlen)
    simp [walk, hi]
  | left i f l r q x hi _ ih =>
    obtain ⟨n, rfl⟩ := Nat.exists_eq_succ_of_ne_zero (Nat.ne_zero_of_lt hlen)
    have := ih (n := n) (p := p ++ [false]) (by simpa using hlen)
    simp only [walk, hi]
    exact List.mem_append_left _ (by simpa using this)
  | right i f l r q x hi _ ih =>
    obtain ⟨n, rfl⟩ := Nat.exists_eq_succ_of_ne_zero (Nat.ne_zero_of_lt hlen)
    have := ih (n := n) (p := p ++ [true]) (by simpa using hlen)
    simp only [walk, hi]
    exact List.mem_append_right _ (by simpa using this)

/-- The walk answers no entry twice: the two subtrees of a node have different path strings. -/
theorem nodup_walk (ns : List Node) (n i : Nat) (p : Code) : (walk ns n i p).Nodup := by
  induction n generalizing i p with
  | zero => exact List.nodup_nil
  | succ n ih =>
    simp only [walk]
    split
    · exact List.nodup_nil
    · exact List.nodup_singleton _
    next f l r hi =>
      cases r with
      | none => simpa using ih l (p ++ [false])
      | some r =>
        refine (ih l _).append (ih r _) ?_
        rintro ⟨x, q⟩ hl hr
        obtain ⟨q₁, h₁, -⟩ := exists_pathTo_of_mem_walk hl
        obtain ⟨q₂, h₂, -⟩ := exists_pathTo_of_mem_walk hr
        simpa using h₁.symm.trans h₂

/-! ### What R56 says of a tree -/

theorem internalOk_cases {ns : List Node} {n i : Nat} (h : internalOk ns n i = true) :
    (∃ f l r, ns[i]? = some (.internal f l (some r)) ∧ 2 ≤ n ∧ l < i ∧ r < i ∧
      f.toNat = freqAt ns l + freqAt ns r) ∨
    (∃ f, ns[i]? = some (.internal f 0 none) ∧ n = 1 ∧ f.toNat = freqAt ns 0) := by
  unfold internalOk at h
  split at h
  · simp only [Bool.and_eq_true, decide_eq_true_eq] at h
    obtain ⟨⟨⟨hn, hl⟩, hr⟩, hf⟩ := h
    exact .inl ⟨_, _, _, ‹_›, hn, hl, hr, hf⟩
  · simp only [Bool.and_eq_true, decide_eq_true_eq] at h
    obtain ⟨⟨hn, rfl⟩, hf⟩ := h
    exact .inr ⟨_, ‹_›, hn, hf⟩
  · cases h

/-- The nodes of a tree or of a forest under construction: the first `n` are leaves, the others internal (R56, R116). -/
structure NodesOk (ns : List Node) (n : Nat) : Prop where
  pos : 1 ≤ n
  leaf : ∀ i nd, i < n → ns[i]? = some nd → ∃ x f, nd = .leaf x f
  internal : ∀ i, i < ns.length → n ≤ i → internalOk ns n i = true

theorem NodesOk.internal_of_ge {ns : List Node} {n i : Nat} (h : NodesOk ns n) (hi : i < ns.length) (hn : n ≤ i) :
    ∃ f l r, ns[i]? = some (.internal f l r) := by
  obtain ⟨f, l, r, hget, -⟩ | ⟨f, hget, -⟩ := internalOk_cases (h.internal i hi hn)
  · exact ⟨f, l, some r, hget⟩
  · exact ⟨f, 0, none, hget⟩

theorem NodesOk.lt_of_leaf {ns : List Node} {n i : Nat} {x : Byte} {f : NodeFreq} (h : NodesOk ns n)
    (hi : ns[i]? = some (.leaf x f)) : i < n := by
  by_contra hn
  obtain ⟨_, _, _, hget⟩ := h.internal_of_ge (List.getElem?_eq_some_iff.1 hi).1 (Nat.le_of_not_lt hn)
  cases hi.symm.trans hget

theorem NodesOk.child_lt {ns : List Node} {n i j : Nat} {nd : Node} (h : NodesOk ns n) (hi : ns[i]? = some nd)
    (hj : j ∈ childrenOf nd) : j < i := by
  have hlt := (List.getElem?_eq_some_iff.1 hi).1
  by_cases hn : i < n
  · obtain ⟨x, f, rfl⟩ := h.leaf i nd hn hi
    simp [childrenOf] at hj
  · have hpos := h.pos
    obtain ⟨f, l, r, hget, -, hl, hr, -⟩ | ⟨f, hget, -, -⟩ :=
      internalOk_cases (h.internal i hlt (Nat.le_of_not_lt hn))
    · cases hi.symm.trans hget
      obtain rfl | rfl : j = l ∨ j = r := by simpa [childrenOf] using hj
      · exact hl
      · exact hr
    · cases hi.symm.trans hget
      obtain rfl : j = 0 := by simpa [childrenOf] using hj
      omega

theorem NodesOk.childrenBelow {ns : List Node} {n : Nat} (h : NodesOk ns n) : ChildrenBelow ns := by
  intro i hi j hj
  rw [List.getElem?_eq_getElem hi] at hj
  exact h.child_lt (List.getElem?_eq_getElem hi) hj

/-- The last node is nobody's child. -/
theorem NodesOk.last_not_child {ns : List Node} {n : Nat} (h : NodesOk ns n) : ns.length - 1 ∉ childEdges ns := by
  intro hmem
  obtain ⟨i, nd, hi, hj⟩ := mem_childEdges.1 hmem
  have := h.child_lt hi hj
  have := (List.getElem?_eq_some_iff.1 hi).1
  omega

section
variable {ns : List Node} {root : Option Nat} {order : Table Byte} {n : Nat}

theorem TreeOk.map_nodeSym_take (h : TreeOk ns root order n) :
    (ns.take n).map nodeSym = (leafSymbols ns n).map some := by
  obtain ⟨-, -, -, -, hcount, -⟩ := h
  have hall : ∀ nd ∈ ns.take n, (nodeSym nd).isSome = true := by
    refine List.filterMap_length_eq_length.1 (Nat.le_antisymm (List.length_filterMap_le ..) ?_)
    rw [show (List.filterMap nodeSym (ns.take n)).length = n from hcount]
    exact List.length_take_le n ns
  rw [leafSymbols, List.map_filterMap_some_eq_filter_map_isSome, eq_comm, List.filter_eq_self,
    List.forall_mem_map]
  exact hall

theorem TreeOk.nodesOk (h : TreeOk ns root order n) : NodesOk ns n := by
  have hmap := h.map_nodeSym_take
  obtain ⟨hpos, -, -, -, -, -, hinternal, -, -⟩ := h
  refine ⟨hpos, fun i nd hi hget => ?_, hinternal⟩
  have hmem : nodeSym nd ∈ (ns.take n).map nodeSym :=
    List.mem_map_of_mem (List.mem_of_getElem? ((List.getElem?_take_of_lt hi).trans hget))
  cases nd with
  | leaf x f => exact ⟨x, f, rfl⟩
  | internal f l r =>
    rw [hmap] at hmem
    simp [nodeSym] at hmem

theorem TreeOk.mem_leafSymbols (h : TreeOk ns root order n) {x : Byte} :
    x ∈ leafSymbols ns n ↔ ∃ (i : Nat) (f : NodeFreq), ns[i]? = some (.leaf x f) := by
  rw [leafSymbols, List.mem_filterMap]
  constructor
  · rintro ⟨nd, hnd, hx⟩
    obtain ⟨i, hi⟩ := List.mem_iff_getElem?.1 (List.mem_of_mem_take hnd)
    cases nd with
    | leaf y f => cases hx; exact ⟨i, f, hi⟩
    | internal f l r => cases hx
  · rintro ⟨i, f, hi⟩
    have hlt := h.nodesOk.lt_of_leaf hi
    exact ⟨_, List.mem_of_getElem? ((List.getElem?_take_of_lt hlt).trans hi), rfl⟩

/-- A symbol has one leaf. -/
theorem TreeOk.leaf_inj (h : TreeOk ns root order n) {i j : Nat} {x : Byte} {f g : NodeFreq}
    (hi : ns[i]? = some (.leaf x f)) (hj : ns[j]? = some (.leaf x g)) : i = j := by
  have hi' := h.nodesOk.lt_of_leaf hi
  have hj' := h.nodesOk.lt_of_leaf hj
  have hmap := h.map_nodeSym_take
  obtain ⟨-, -, -, -, -, hsorted, -⟩ := h
  have hnodup : ((ns.take n).map nodeSym).Nodup := by
    rw [hmap]
    refine List.Nodup.map (Option.some_injective _) (hsorted.imp ?_)
    rintro a b hab rfl
    exact Nat.lt_irrefl _ hab
  refine (List.getElem?_inj (l := (ns.take n).map nodeSym) ?_ hnodup).1 ?_
  · have := (List.getElem?_eq_some_iff.1 hi).1
    simp only [List.length_map, List.length_take]
    omega
  · simp [List.getElem?_take_of_lt, hi', hj', hi, hj, nodeSym]

theorem TreeOk.childEdges_nodup (h : TreeOk ns root order n) : (childEdges ns).Nodup := by
  obtain ⟨-, -, -, -, -, -, -, hedges, -⟩ := h
  exact hedges.nodup_iff.2 List.nodup_range

/-- Every node is reached from the root. -/
theorem TreeOk.exists_descends (h : TreeOk ns root order n) {r : Nat} (hroot : root = some r) {i : Nat}
    (hi : i < ns.length) : ∃ p, Descends ns r p i := by
  have hnodes := h.nodesOk
  obtain ⟨-, -, -, hlast, -, -, -, hedges, -⟩ := h
  obtain rfl : r = ns.length - 1 := Option.some.inj (hroot.symm.trans hlast)
  induction hd : ns.length - i using Nat.strong_induction_on generalizing i with
  | h d ih =>
    by_cases heq : i = ns.length - 1
    · exact ⟨[], heq ▸ .root⟩
    · have hmem : i ∈ childEdges ns := hedges.mem_iff.2 (List.mem_range.2 (by omega))
      obtain ⟨k, b, hk⟩ := mem_childEdges_iff_childAt.1 hmem
      obtain ⟨f, l, r, hget, hb⟩ := childAt_eq_some hk
      have hki := hnodes.child_lt hget (mem_childrenOf.2 ⟨f, l, r, rfl, b, hb⟩)
      have hklen := (List.getElem?_eq_some_iff.1 hget).1
      obtain ⟨p, hp⟩ := ih (ns.length - k) (by omega) hklen rfl
      exact ⟨p ++ [b], hp.child hk⟩

/-- A symbol has exactly one path string when it has a leaf, and none otherwise (R142). -/
theorem TreeOk.exists_pathTo_iff (h : TreeOk ns root order n) {r : Nat} (hroot : root = some r) {x : Byte} :
    (∃ p, PathTo ns r p x) ↔ x ∈ leafSymbols ns n := by
  rw [h.mem_leafSymbols]
  constructor
  · rintro ⟨p, hp⟩
    obtain ⟨j, f, hj, -⟩ := hp.descends .root
    exact ⟨j, f, hj⟩
  · rintro ⟨i, f, hi⟩
    obtain ⟨p, hp⟩ := h.exists_descends hroot (List.getElem?_eq_some_iff.1 hi).1
    exact ⟨_, hp.pathTo (.here i x f hi)⟩

theorem TreeOk.pathTo_unique (h : TreeOk ns root order n) {r : Nat} (hroot : root = some r) {p q : Code} {x : Byte}
    (hp : PathTo ns r p x) (hq : PathTo ns r q x) : p = q := by
  obtain ⟨i, f, hi, hdi⟩ := hp.descends .root
  obtain ⟨j, g, hj, hdj⟩ := hq.descends .root
  obtain rfl := h.leaf_inj hi hj
  have hnodup := h.childEdges_nodup
  have hnot := h.nodesOk.last_not_child
  obtain ⟨-, -, -, hlast, -⟩ := h
  obtain rfl : r = ns.length - 1 := Option.some.inj (hroot.symm.trans hlast)
  exact hdi.unique hnodup hnot hdj

/-- The root is no leaf, so no path string is empty (R146). -/
theorem TreeOk.pathTo_ne_nil (h : TreeOk ns root order n) {r : Nat} (hroot : root = some r) {p : Code} {x : Byte}
    (hp : PathTo ns r p x) : p ≠ [] := by
  rintro rfl
  cases hp with
  | here _ _ f hr =>
    have hlt := h.nodesOk.lt_of_leaf hr
    obtain ⟨-, -, hlen, hlast, -⟩ := h
    have hr' : r = ns.length - 1 := Option.some.inj (hroot.symm.trans hlast)
    split at hlen <;> omega

/-- The entries GEN_CODES walks are the path strings of the leaves, each once. -/
theorem TreeOk.mem_walk_iff (h : TreeOk ns root order n) {r : Nat} (hroot : root = some r) {x : Byte} {p : Code} :
    (x, p) ∈ walk ns ns.length r [] ↔ PathTo ns r p x := by
  constructor
  · intro hmem
    obtain ⟨q, rfl, hq⟩ := exists_pathTo_of_mem_walk hmem
    exact hq
  · intro hp
    have hlen := hp.length_le h.nodesOk.childrenBelow
    have hpos := h.nodesOk.pos
    obtain ⟨-, -, hsize, hlast, -⟩ := h
    have hr : r = ns.length - 1 := Option.some.inj (hroot.symm.trans hlast)
    refine mem_walk_of_pathTo (p := []) hp ?_
    split at hsize <;> omega

theorem TreeOk.walk_entriesOk (h : TreeOk ns root order n) {r : Nat} (hroot : root = some r) :
    EntriesOk (walk ns ns.length r []) := by
  have hpath : ∀ e ∈ walk ns ns.length r [], PathTo ns r e.2 e.1 := fun e he => (h.mem_walk_iff hroot).1 he
  refine ⟨?_, fun e he => h.pathTo_ne_nil hroot (hpath e he), fun d hd e he hne hpre => ?_⟩
  · refine (nodup_walk ns ns.length r []).map_on fun d hd e he hsym => Prod.ext hsym ?_
    exact h.pathTo_unique hroot (hpath d hd) (hsym ▸ hpath e he)
  · exact hne ((hpath d hd).eq_of_prefix (hpath e he) hpre)

/-- The codes of a tree are what CV = 1 promises (R55, R147). -/
theorem TreeOk.codeOk_treeCodes (h : TreeOk ns root order n) : CodeOk (treeCodes ns root) order n := by
  have ⟨hpos, hle, _, hlast, _, hsorted, _, _, hperm⟩ := h
  have hentries := h.walk_entriesOk hlast
  rw [hlast, treeCodes]
  refine ⟨hpos, hle, ?_, fun x => ?_, prefixFree_codeTableOf hentries⟩
  · refine hperm.nodup_iff.2 (hsorted.imp ?_)
    rintro a b hab rfl
    exact Nat.lt_irrefl _ hab
  · rw [tblGet_codeTableOf_ne hentries, hperm.mem_iff, ← h.exists_pathTo_iff hlast, List.mem_map]
    simp only [Prod.exists, exists_and_right, exists_eq_right, h.mem_walk_iff hlast]

end

end Sys2Proof.Machine

namespace Sys2Proof.Machine

/-! ### The combining loop of BUILD_TREE (R115, R119 to R123) -/

theorem keysFrom_eq (i : Nat) (ns : List Node) :
    keysFrom i ns = (ns.zipIdx i).map fun e => ((nodeFreq e.1).toNat, e.2) := by
  induction ns generalizing i with
  | nil => rfl
  | cons n ns ih => simp [keysFrom, ih]

theorem map_snd_keysFrom (ns : List Node) : (keysFrom 0 ns).map Prod.snd = List.range ns.length := by
  rw [keysFrom_eq, List.map_map, List.range_eq_range']
  exact List.zipIdx_map_snd 0 ns

theorem map_fst_keysFrom (ns : List Node) : (keysFrom 0 ns).map Prod.fst = ns.map fun nd => (nodeFreq nd).toNat := by
  rw [keysFrom_eq, List.map_map]
  change (ns.zipIdx 0).map ((fun nd => (nodeFreq nd).toNat) ∘ Prod.fst) = _
  rw [← List.map_map, List.zipIdx_map_fst]

theorem freqAt_of_getElem? {ns : List Node} {i : Nat} {nd : Node} (h : ns[i]? = some nd) :
    freqAt ns i = (nodeFreq nd).toNat := by
  simp [freqAt, h]

theorem freqAt_append {ns : List Node} {i : Nat} (h : i < ns.length) (ms : List Node) :
    freqAt (ns ++ ms) i = freqAt ns i := by
  rw [freqAt, freqAt, List.getElem?_append_left h]

theorem fst_eq_freqAt_of_mem_keysFrom {ns : List Node} {a : Key} (h : a ∈ keysFrom 0 ns) :
    a.1 = freqAt ns a.2 := by
  rw [keysFrom_eq] at h
  obtain ⟨⟨nd, i⟩, hmem, rfl⟩ := List.mem_map.1 h
  exact (freqAt_of_getElem? (List.mem_zipIdx_iff_getElem?.1 hmem)).symm

/-- What R56 and R116 ask of an internal node does not look at later nodes. -/
theorem internalOk_append {ns : List Node} {n i : Nat} (h : internalOk ns n i = true)
    (ms : List Node) : internalOk (ns ++ ms) n i = true := by
  obtain ⟨f, l, r, hget, h2, hl, hr, hf⟩ | ⟨f, hget, h1, hf⟩ := internalOk_cases h
  · have hlt := (List.getElem?_eq_some_iff.1 hget).1
    simp [internalOk, List.getElem?_append_left hlt, hget, h2, hl, hr, hf,
      freqAt_append (hl.trans hlt), freqAt_append (hr.trans hlt)]
  · have hlt := (List.getElem?_eq_some_iff.1 hget).1
    simp [internalOk, List.getElem?_append_left hlt, hget, h1, hf, freqAt_append (by omega : 0 < ns.length)]

/-- The node store `ns` and the queue `q` of the combining loop over `leaves`: the leaves come first, the other nodes are
internal as R56 asks, every node is either somebody's child or in the queue, the keys are the nodes' frequencies, and
their sum fits a node (R123). -/
structure ForestOk (leaves : List Node) (q : List Key) (ns : List Node) : Prop where
  leaves_prefix : leaves <+: ns
  size : ns.length + q.length = 2 * leaves.length
  internal : ∀ i, i < ns.length → leaves.length ≤ i → internalOk ns leaves.length i = true
  edges : (childEdges ns ++ q.map Prod.snd).Perm (List.range ns.length)
  keys : ∀ a ∈ q, a.1 = freqAt ns a.2
  total : (q.map Prod.fst).sum < 2 ^ 40

theorem ForestOk.key_lt {leaves : List Node} {q : List Key} {ns : List Node} (h : ForestOk leaves q ns) {a : Key}
    (ha : a ∈ q) : a.2 < ns.length :=
  List.mem_range.1 (h.edges.mem_iff.1 (List.mem_append_right _ (List.mem_map_of_mem ha)))

/-- One round of the loop: the two least keys become the children of a new node, whose key joins the queue (R121). -/
theorem ForestOk.combine_step {leaves : List Node} {a b : Key} {q : List Key} {ns : List Node}
    (h : ForestOk leaves (a :: b :: q) ns) (h2 : 2 ≤ leaves.length) :
    ForestOk leaves (insertKey ((BitVec.ofNat 40 (a.1 + b.1)).toNat, ns.length) q)
      (ns ++ [.internal (BitVec.ofNat 40 (a.1 + b.1)) a.2 (some b.2)]) := by
  have hlt : ∀ c ∈ a :: b :: q, c.2 < ns.length := fun c hc => h.key_lt hc
  have ha := hlt a (by simp)
  have hb := hlt b (by simp)
  have hka := h.keys a (by simp)
  have hkb := h.keys b (by simp)
  obtain ⟨hprefix, hsize, hinternal, hedges, hkeys, htotal⟩ := h
  simp only [List.map_cons, List.sum_cons] at htotal
  have hsum : (BitVec.ofNat 40 (a.1 + b.1)).toNat = a.1 + b.1 := by
    rw [BitVec.toNat_ofNat, Nat.mod_eq_of_lt (by omega)]
  generalize hf : (BitVec.ofNat 40 (a.1 + b.1) : NodeFreq) = f at *
  have hq := insertKey_perm (f.toNat, ns.length) q
  have hnew : (ns ++ [Node.internal f a.2 (some b.2)])[ns.length]? = some (.internal f a.2 (some b.2)) :=
    List.getElem?_concat_length
  refine ⟨hprefix.trans (List.prefix_append _ _), ?_, ?_, ?_, ?_, ?_⟩
  · have := hq.length_eq
    simp only [List.length_append, List.length_cons, List.length_nil] at hsize this ⊢
    omega
  · intro i hi hn
    by_cases hi' : i < ns.length
    · exact internalOk_append (hinternal i hi' hn) _
    · obtain rfl : i = ns.length := by simp at hi; omega
      simp [internalOk, h2, ha, hb, hsum, freqAt_append ha, freqAt_append hb, ← hka, ← hkb]
  · have hchildren : childEdges (ns ++ [.internal f a.2 (some b.2)]) = childEdges ns ++ [a.2, b.2] := by
      simp [childEdges, childrenOf]
    rw [hchildren, List.length_append, List.length_singleton]
    calc childEdges ns ++ [a.2, b.2] ++ (insertKey (f.toNat, ns.length) q).map Prod.snd
      _ |>.Perm (childEdges ns ++ [a.2, b.2] ++ ns.length :: q.map Prod.snd) := (hq.map Prod.snd).append_left _
      _ |>.Perm (ns.length :: (childEdges ns ++ [a.2, b.2] ++ q.map Prod.snd)) := List.perm_middle
      _ |>.Perm (ns.length :: List.range ns.length) := .cons _ (by simpa using hedges)
      _ |>.Perm (List.range (ns.length + 1)) := by
        rw [List.range_succ]
        exact (List.perm_append_singleton _ _).symm
  · intro c hc
    rcases List.mem_cons.1 (hq.mem_iff.1 hc) with rfl | hc
    · exact (freqAt_of_getElem? hnew).symm
    · have hmem : c ∈ a :: b :: q := List.mem_cons_of_mem _ (List.mem_cons_of_mem _ hc)
      rw [freqAt_append (hlt c hmem), hkeys c hmem]
  · rw [(hq.map Prod.fst).sum_eq]
    simp only [List.map_cons, List.sum_cons]
    omega

/-- The loop ends with one key in the queue, the root's. -/
theorem ForestOk.combine {leaves : List Node} {fuel : Nat} {q : List Key} {ns : List Node} (h : ForestOk leaves q ns)
    (h2 : 2 ≤ leaves.length) (hq : q ≠ []) (hfuel : q.length ≤ fuel + 1) :
    ∃ k, (combine fuel q ns).2 = some k.2 ∧ ForestOk leaves [k] (combine fuel q ns).1 := by
  induction fuel generalizing q ns with
  | zero =>
    obtain ⟨k, rfl⟩ : ∃ k, q = [k] := List.length_eq_one_iff.1 (by have := List.length_pos_iff.2 hq; omega)
    exact ⟨k, rfl, h⟩
  | succ fuel ih =>
    match q, hq, hfuel, h with
    | [k], _, _, h => exact ⟨k, rfl, h⟩
    | a :: b :: q, _, hfuel, h =>
      have hlen := (insertKey_perm ((BitVec.ofNat 40 (a.1 + b.1)).toNat, ns.length) q).length_eq
      refine ih (h.combine_step h2) (List.ne_nil_of_length_eq_add_one hlen) ?_
      simp only [List.length_cons] at hfuel hlen ⊢
      omega

/-! ### The leaves of a frequency table (R117) -/

theorem allSymbols_sorted : allSymbols.Pairwise fun x y => x.toNat < y.toNat := by
  rw [allSymbols, List.pairwise_map]
  refine List.pairwise_lt_range.imp_of_mem fun ha hb hab => ?_
  have ha' := List.mem_range.1 ha
  have hb' := List.mem_range.1 hb
  simpa [Nat.mod_eq_of_lt ha', Nat.mod_eq_of_lt hb'] using hab

/-- Nodes that are leaves with symbols in ascending order, whose frequencies fit the table's words. -/
structure LeavesOk (leaves : List Node) : Prop where
  isLeaf : ∀ nd ∈ leaves, ∃ x f, nd = .leaf x f
  sorted : (leaves.filterMap nodeSym).Pairwise fun x y => x.toNat < y.toNat
  freq_lt : ∀ nd ∈ leaves, (nodeFreq nd).toNat < 2 ^ 32
  length_le : leaves.length ≤ 256

theorem leavesOk_leavesOf (freq : Table Word) : LeavesOk (leavesOf freq) := by
  refine ⟨?_, ?_, ?_, length_leavesOf_le freq⟩
  all_goals rw [leavesOf_eq]
  · rw [List.forall_mem_map]
    exact fun x _ => ⟨x, _, rfl⟩
  · have hsyms : ((allSymbols.filter fun x => tblGet freq x != 0).map
        fun x => Node.leaf x ((tblGet freq x).setWidth 40)).filterMap nodeSym =
        allSymbols.filter fun x => tblGet freq x != 0 := by
      rw [List.filterMap_map]
      exact List.filterMap_some
    rw [hsyms]
    exact allSymbols_sorted.filter _
  · rw [List.forall_mem_map]
    intro x _
    rw [nodeFreq, BitVec.toNat_setWidth]
    exact (Nat.mod_le _ _).trans_lt (tblGet freq x).isLt

section
variable {leaves : List Node}

theorem LeavesOk.length_symbols (h : LeavesOk leaves) : (leaves.filterMap nodeSym).length = leaves.length := by
  rw [List.filterMap_length_eq_length]
  intro nd hnd
  obtain ⟨x, f, rfl⟩ := h.isLeaf nd hnd
  rfl

theorem LeavesOk.childEdges_eq_nil (h : LeavesOk leaves) : childEdges leaves = [] := by
  rw [childEdges, List.flatMap_eq_nil_iff]
  intro nd hnd
  obtain ⟨x, f, rfl⟩ := h.isLeaf nd hnd
  rfl

/-- The frequencies of 256 leaves sum to less than 2^40 (R123). -/
theorem LeavesOk.total_lt (h : LeavesOk leaves) : ((sortedKeys leaves).map Prod.fst).sum < 2 ^ 40 := by
  rw [((sortedKeys_perm leaves).map Prod.fst).sum_eq, map_fst_keysFrom]
  have hle : ∀ f ∈ leaves.map fun nd => (nodeFreq nd).toNat, f ≤ 2 ^ 32 - 1 := by
    rw [List.forall_mem_map]
    exact fun nd hnd => Nat.le_pred_of_lt (h.freq_lt nd hnd)
  have hsum := List.sum_le_card_nsmul _ _ hle
  have hlen := h.length_le
  rw [List.length_map, smul_eq_mul] at hsum
  omega

/-- The loop starts with every leaf in the queue. -/
theorem LeavesOk.forestOk (h : LeavesOk leaves) : ForestOk leaves (sortedKeys leaves) leaves where
  leaves_prefix := List.prefix_rfl
  size := by
    rw [(sortedKeys_perm leaves).length_eq, length_keysFrom]
    omega
  internal i hi hn := absurd hi (Nat.not_lt.2 hn)
  edges := by
    rw [h.childEdges_eq_nil, List.nil_append, ← map_snd_keysFrom]
    exact (sortedKeys_perm leaves).map Prod.snd
  keys a ha := fst_eq_freqAt_of_mem_keysFrom ((sortedKeys_perm leaves).mem_iff.1 ha)
  total := h.total_lt

/-- ORDER lists the leaves' symbols (R118). -/
theorem leafOrder_perm (leaves : List Node) : (leafOrder leaves).Perm (leaves.filterMap nodeSym) := by
  have hkeys : (keysFrom 0 leaves).filterMap (fun k => leaves[k.2]?.bind nodeSym) = leaves.filterMap nodeSym := by
    calc (keysFrom 0 leaves).filterMap (fun k => leaves[k.2]?.bind nodeSym)
        = (leaves.zipIdx 0).filterMap (fun e => leaves[e.2]?.bind nodeSym) := by
          rw [keysFrom_eq, List.filterMap_map]; rfl
      _ = (leaves.zipIdx 0).filterMap (fun e => nodeSym e.1) :=
          List.filterMap_congr fun e he => by rw [List.mem_zipIdx_iff_getElem?.1 he]; rfl
      _ = leaves.filterMap nodeSym := by
          rw [← List.zipIdx_map_fst 0 leaves, List.filterMap_map, List.zipIdx_map_fst]; rfl
  rw [leafOrder, ← hkeys]
  exact (sortedKeys_perm leaves).filterMap _

theorem LeavesOk.orderList_perm (h : LeavesOk leaves) :
    (orderList (orderTable (leafOrder leaves)) leaves.length).Perm (leaves.filterMap nodeSym) := by
  have hlen : (leafOrder leaves).length = leaves.length := (leafOrder_perm leaves).length_eq.trans h.length_symbols
  have hlist := orderList_orderTable (leafOrder leaves) (hlen.trans_le h.length_le)
  rw [hlen] at hlist
  rw [hlist]
  exact leafOrder_perm leaves

/-- A finished forest is a tree as R56 says: its one key is the root's, the last node's. -/
theorem ForestOk.treeOk {k : Key} {ns : List Node} (h : ForestOk leaves [k] ns) (hl : LeavesOk leaves)
    (h2 : 2 ≤ leaves.length) : TreeOk ns (some k.2) (orderTable (leafOrder leaves)) leaves.length := by
  have hlt := h.key_lt (List.mem_singleton_self k)
  obtain ⟨hprefix, hsize, hinternal, hedges, -, -⟩ := h
  have hsize : ns.length = 2 * leaves.length - 1 := by rw [List.length_singleton] at hsize; omega
  have htake : ns.take leaves.length = leaves := (List.prefix_iff_eq_take.1 hprefix).symm
  have hsyms : leafSymbols ns leaves.length = leaves.filterMap nodeSym := by rw [leafSymbols, htake]
  have hnodes : NodesOk ns leaves.length := by
    refine ⟨by omega, fun i nd hi hget => hl.isLeaf nd ?_, hinternal⟩
    rw [← htake]
    exact List.mem_of_getElem? ((List.getElem?_take_of_lt hi).trans hget)
  have hroot : k.2 = ns.length - 1 := by
    have hmem : ns.length - 1 ∈ childEdges ns ++ [k.2] := hedges.mem_iff.2 (List.mem_range.2 (by omega))
    rcases List.mem_append.1 hmem with hc | hc
    · exact absurd hc hnodes.last_not_child
    · exact (List.mem_singleton.1 hc).symm
  refine ⟨by omega, hl.length_le, ?_, congrArg some hroot, ?_, ?_, hinternal, ?_, ?_⟩
  · rw [if_neg (by omega), hsize]
  · rw [hsyms, hl.length_symbols]
  · rw [hsyms]; exact hl.sorted
  · have hrange : List.range ns.length = List.range (ns.length - 1) ++ [k.2] := by
      rw [hroot, ← List.range_succ, Nat.succ_eq_add_one, Nat.sub_add_cancel (by omega)]
    rw [hrange] at hedges
    exact (List.perm_append_right_iff _).1 hedges
  · rw [hsyms]; exact hl.orderList_perm

/-- The tree of one leaf (R124). -/
theorem LeavesOk.treeOk_singleton {l : Node} (h : LeavesOk [l]) :
    TreeOk [l, .internal (nodeFreq l) 0 none] (some 1) (orderTable (leafOrder [l])) 1 := by
  have horder := h.orderList_perm
  obtain ⟨x, f, rfl⟩ := h.isLeaf l (List.mem_singleton_self l)
  refine ⟨le_rfl, by omega, rfl, rfl, rfl, List.pairwise_singleton _ _, fun i hi hn => ?_, .refl _, horder⟩
  obtain rfl : i = 1 := by simp at hi; omega
  simp [internalOk, freqAt, nodeFreq]

/-- BUILD_TREE makes a tree as R56 says of every non-empty list of leaves. -/
theorem LeavesOk.treeOk (h : LeavesOk leaves) (hne : leaves ≠ []) :
    TreeOk (treeOf leaves).1 (treeOf leaves).2 (orderTable (leafOrder leaves)) leaves.length := by
  match leaves, hne, h with
  | [l], _, h => exact h.treeOk_singleton
  | l :: m :: rest, _, h =>
    have h2 : 2 ≤ (l :: m :: rest).length := by simp
    have hlen : (sortedKeys (l :: m :: rest)).length = (l :: m :: rest).length := by
      rw [(sortedKeys_perm _).length_eq, length_keysFrom]
    obtain ⟨k, hroot, hforest⟩ := h.forestOk.combine (fuel := (l :: m :: rest).length) h2
      (List.ne_nil_of_length_eq_add_one hlen) (by omega)
    have htree := hforest.treeOk h h2
    rw [← hroot] at htree
    exact htree

end

/-! ### The tables the valid flags vouch for (R55, R56) -/

/-- Acceptable records are acceptable table entries (R155, R160). -/
theorem RecordsOk.entriesOk {rs : List (Byte × Code)} (h : RecordsOk rs) : EntriesOk rs := by
  obtain ⟨hnodup, hlens, hpair⟩ := h
  refine ⟨hnodup, fun e he => List.length_pos_iff.1 (hlens e he).1, fun d hd e he hne hpre => ?_⟩
  have : Std.Symm fun r q : Byte × Code => prefixClash r.2 q.2 = false :=
    ⟨fun r q hrq => by rw [prefixClash, Bool.or_comm]; exact hrq⟩
  have hclash := hpair.forall hd he (fun heq => hne (congrArg Prod.fst heq))
  simp [prefixClash, List.isPrefixOf_iff_prefix.2 hpre] at hclash

theorem buildTreeBody_keepsTables : BodyKeeps TablesOk buildTreeBody := by
  intro s hs
  obtain ⟨-, h⟩ | ⟨-, -, h⟩ | ⟨-, hne, h⟩ := buildTreeBody_cases s
  · rw [h]; exact hs
  · rw [h]; exact hs
  · have hleaves := leavesOk_leavesOf s.freq
    have htree := hleaves.treeOk hne
    rw [← toNat_nSym hleaves.length_le] at htree
    rw [h]
    exact ⟨fun _ => htree, nofun⟩

theorem genCodesBody_keepsTables : BodyKeeps TablesOk genCodesBody := by
  intro s hs
  obtain ⟨-, h⟩ | ⟨x, -, -, h⟩ | ⟨htv, -, h⟩ := genCodesBody_cases s
  · rw [h]; exact hs
  · rw [h]; exact hs
  · obtain ⟨htree, -⟩ := hs
    rw [h]
    exact ⟨htree, fun _ => (htree htv).codeOk_treeCodes⟩

theorem writeHeaderBody_keepsTables : BodyKeeps TablesOk writeHeaderBody := by
  intro s hs
  obtain ⟨-, h⟩ | ⟨-, -, h⟩ | ⟨-, -, h⟩ := writeHeaderBody_cases s
  · rw [h]; exact hs
  · rw [h]; exact hs
  · rw [h]; exact hs

theorem readHeaderBody_keepsTables : BodyKeeps TablesOk readHeaderBody := by
  intro s hs
  obtain ⟨e, sub, a, h, -⟩ | ⟨rs, -, -, hread, h⟩ := readHeaderBody_cases s
  · rw [h]; exact hs
  · obtain ⟨hrs, hlen⟩ := readRecords_ok hread recordsOk_nil
    obtain ⟨hpos, hle⟩ := countOf_le (s.inByte 0)
    have hlen : rs.length = countOf (s.inByte 0) := by simpa using hlen
    have hcode := codeOk_codeTableOf hrs.entriesOk (by omega) (by omega)
    rw [hlen, ← toNat_nSym hle] at hcode
    rw [h]
    exact ⟨nofun, fun _ => hcode⟩

theorem stepInvariant_tablesOk : StepInvariant TablesOk where
  hostFields _ _ hs := hs
  issue _ _ hs := hs
  statusWrite _ _ hs := hs
  inMemWrite _ _ _ _ hs := hs
  newFreq _ _ _ := ⟨nofun, nofun⟩
  hardReset _ _ := ⟨nofun, nofun⟩
  softReset _ _ := ⟨nofun, nofun⟩
  complete _ hs := hs
  errorComplete _ _ _ _ _ hs := hs
  buildTree := buildTreeBody_keepsTables
  genCodes := genCodesBody_keepsTables
  writeHeader := writeHeaderBody_keepsTables
  pack := packBody_keeps fun _ _ hs => hs
  readHeader := readHeaderBody_keepsTables
  unpack := unpackBody_keeps fun _ _ hs => hs

/-- Settles O60: BUILD_TREE makes a tree, GEN_CODES and READ_HEADER a code table, and nothing else writes a table that a
valid flag still vouches for. -/
theorem stepKeepsTables : Obligations.StepKeepsTables :=
  fun _ _ hs hstep => stepInvariant_tablesOk.step hs hstep

end Sys2Proof.Machine

namespace Sys2Proof.Machine

/-! ### The memories (R10, R60, R62 to R64, R73) -/

theorem length_recordBytes (x : Byte) (c : Code) : (recordBytes x c).length = recordByteCount := by
  simp [recordBytes, fieldBytes, fieldByteCount, recordByteCount]

/-- The header bytes fill the header length (R95). -/
@[simp] theorem length_headerBytes (n : Nat) (order : Table Byte) (code : Table Code) :
    (headerBytes n order code).length = headerLen n := by
  simp [headerBytes, headerLen, List.length_flatMap, length_recordBytes, Nat.mul_comm, Nat.add_comm]

@[simp] theorem length_payloadBytes (bits : List Bool) : (payloadBytes bits).length = payloadLen bits := by
  simp [payloadBytes]

/-- Bytes written to OUT_MEM inside its capacity keep the memories in order (R73). -/
theorem memoriesOk_writeOut {s : State} (hs : MemoriesOk s) {a : Nat} {bs : List Byte}
    (hfit : a + bs.length ≤ s.cfg.outCap.toNat) : MemoriesOk { s with outMem := s.outMem.writeBytes a bs } := by
  obtain ⟨hcfg, hin, hout, hinCap, houtCap, hinDraw, houtDraw, hne⟩ := hs
  have hepoch := s.outMem.epoch_writeBytes a bs
  exact ⟨hcfg, hin, Memory.wf_writeBytes hout a bs, hinCap, Memory.bounded_writeBytes a bs houtCap hfit, hinDraw,
    hepoch.trans_lt houtDraw, fun heq => hne (heq.trans hepoch)⟩

/-- A byte written to IN_MEM inside its capacity keeps the memories in order (R70, R73). -/
theorem memoriesOk_writeIn {s : State} (hs : MemoriesOk s) {a : Nat} (ha : a < s.cfg.inCap.toNat) (v : Byte) :
    MemoriesOk { s with inMem := s.inMem.write a v } := by
  obtain ⟨hcfg, hin, hout, hinCap, hrest⟩ := hs
  exact ⟨hcfg, Memory.wf_write hin a v, hout, Memory.bounded_write hinCap ha v, hrest⟩

/-- The output dropped by a failing walk belongs to a new draw (R186). -/
theorem memoriesOk_dropOutput {s : State} (hs : MemoriesOk s) : MemoriesOk s.dropOutput := by
  obtain ⟨hcfg, hin, -, hinCap, -, hinDraw, -, -⟩ := hs
  exact ⟨hcfg, hin, Memory.wf_unspecified _, hinCap, nofun, Nat.lt_succ_of_lt hinDraw, Nat.lt_succ_self _, hinDraw.ne⟩

/-- The reset input makes both memories unspecified, each of a draw of its own (R64, R240). -/
theorem memoriesOk_hardReset {s : State} (hs : MemoriesOk s) : MemoriesOk s.hardReset := by
  obtain ⟨hcfg, -⟩ := hs
  exact ⟨hcfg, Memory.wf_unspecified _, Memory.wf_unspecified _, nofun, nofun,
    Nat.lt_add_of_pos_right Nat.two_pos, Nat.lt_succ_self _, Nat.ne_of_lt (Nat.lt_succ_self _)⟩

theorem buildTreeBody_keepsMemories : BodyKeeps MemoriesOk buildTreeBody := by
  intro s hs
  obtain ⟨-, h⟩ | ⟨-, -, h⟩ | ⟨-, -, h⟩ := buildTreeBody_cases s
  · rw [h]; exact hs
  · rw [h]; exact hs
  · rw [h]; exact hs

theorem genCodesBody_keepsMemories : BodyKeeps MemoriesOk genCodesBody := by
  intro s hs
  obtain ⟨-, h⟩ | ⟨x, -, -, h⟩ | ⟨-, -, h⟩ := genCodesBody_cases s
  · rw [h]; exact hs
  · rw [h]; exact hs
  · rw [h]; exact hs

theorem readHeaderBody_keepsMemories : BodyKeeps MemoriesOk readHeaderBody := by
  intro s hs
  obtain ⟨e, sub, a, h, -⟩ | ⟨rs, -, -, -, h⟩ := readHeaderBody_cases s
  · rw [h]; exact hs
  · rw [h]; exact hs

/-- WRITE_HEADER checks that the whole header fits (R151). -/
theorem writeHeaderBody_keepsMemories : BodyKeeps MemoriesOk writeHeaderBody := by
  intro s hs
  obtain ⟨-, h⟩ | ⟨-, -, h⟩ | ⟨-, hfit, h⟩ := writeHeaderBody_cases s
  · rw [h]; exact hs
  · rw [h]; exact hs
  · rw [h]; exact memoriesOk_writeOut hs (by simpa using hfit)

/-- PACK checks that the payload and the pad byte fit (R172). -/
theorem packBody_keepsMemories : BodyKeeps MemoriesOk packBody := by
  intro s hs
  obtain ⟨-, h⟩ | ⟨e, sub, a, -, h, -⟩ | ⟨bits, -, -, -, -, hfit, h⟩ := packBody_cases s
  · rw [h]; exact hs
  · rw [h]; exact hs
  · rw [h]; exact memoriesOk_writeOut hs (by simpa [Nat.add_assoc] using hfit)

/-- UNPACK emits no symbol past the capacity (R183). -/
theorem unpackBody_keepsMemories : BodyKeeps MemoriesOk unpackBody := by
  intro s hs
  obtain ⟨-, h⟩ | ⟨e, sub, a, -, h, -⟩ | ⟨e, sub, a, -, h, -⟩ | ⟨out, -, -, -, -, hwalk, h⟩ := unpackBody_cases s
  · rw [h]; exact hs
  · rw [h]; exact hs
  · rw [h]; exact memoriesOk_dropOutput hs
  · have hfit := unpackWalk_length_le (Nat.zero_le _) hwalk
    rw [h]; exact memoriesOk_writeOut hs (by simpa using hfit)

theorem stepInvariant_memoriesOk : StepInvariant MemoriesOk where
  hostFields _ _ hs := hs
  issue _ _ hs := hs
  statusWrite _ _ hs := hs
  inMemWrite _ _ v ha hs := memoriesOk_writeIn hs ha v
  newFreq _ _ hs := hs
  hardReset _ hs := memoriesOk_hardReset hs
  softReset _ hs := hs
  complete _ hs := hs
  errorComplete _ _ _ _ _ hs := hs
  buildTree := buildTreeBody_keepsMemories
  genCodes := genCodesBody_keepsMemories
  writeHeader := writeHeaderBody_keepsMemories
  pack := packBody_keepsMemories
  readHeader := readHeaderBody_keepsMemories
  unpack := unpackBody_keepsMemories

/-- Settles O58: every write is checked against the capacity before it is made, and a memory that becomes unspecified
gets a draw not used before. -/
theorem stepKeepsMemories : Obligations.StepKeepsMemories :=
  fun _ _ hs hstep => stepInvariant_memoriesOk.step hs hstep

end Sys2Proof.Machine

namespace Sys2Proof.Machine

/-! ### The host's side under a command (R33, R34, R62, R91) -/

/-- The states agree in what belongs to the host and the platform: the parameters, CMD, IRQ_EN, IN_MEM, IN_LEN, TBL_IDX,
ACCERR and the model's own inputs, schedule and last value read. -/
def SameHostSide (s t : State) : Prop :=
  t.cfg = s.cfg ∧ t.cmd = s.cmd ∧ t.ie = s.ie ∧ t.inMem = s.inMem ∧ t.inputs = s.inputs ∧ t.turns = s.turns ∧
    t.rdata = s.rdata ∧ t.inLen = s.inLen ∧ t.tblIdx = s.tblIdx ∧ t.accErr = s.accErr

theorem SameHostSide.refl (s : State) : SameHostSide s s := ⟨rfl, rfl, rfl, rfl, rfl, rfl, rfl, rfl, rfl, rfl⟩

section
variable (s : State)

theorem countBody_keepsHostSide : BodyKeeps (SameHostSide s) countBody := by
  intro u hu
  obtain ⟨-, h⟩ | ⟨-, h⟩ := countBody_cases u
  · rw [h]; exact hu
  · rw [h]; exact hu

theorem buildTreeBody_keepsHostSide : BodyKeeps (SameHostSide s) buildTreeBody := by
  intro u hu
  obtain ⟨-, h⟩ | ⟨-, -, h⟩ | ⟨-, -, h⟩ := buildTreeBody_cases u
  · rw [h]; exact hu
  · rw [h]; exact hu
  · rw [h]; exact hu

theorem genCodesBody_keepsHostSide : BodyKeeps (SameHostSide s) genCodesBody := by
  intro u hu
  obtain ⟨-, h⟩ | ⟨x, -, -, h⟩ | ⟨-, -, h⟩ := genCodesBody_cases u
  · rw [h]; exact hu
  · rw [h]; exact hu
  · rw [h]; exact hu

theorem writeHeaderBody_keepsHostSide : BodyKeeps (SameHostSide s) writeHeaderBody := by
  intro u hu
  obtain ⟨-, h⟩ | ⟨-, -, h⟩ | ⟨-, -, h⟩ := writeHeaderBody_cases u
  · rw [h]; exact hu
  · rw [h]; exact hu
  · rw [h]; exact hu

theorem readHeaderBody_keepsHostSide : BodyKeeps (SameHostSide s) readHeaderBody := by
  intro u hu
  obtain ⟨e, sub, a, h, -⟩ | ⟨rs, -, -, -, h⟩ := readHeaderBody_cases u
  · rw [h]; exact hu
  · rw [h]; exact hu

theorem packBody_keepsHostSide : BodyKeeps (SameHostSide s) packBody := packBody_keeps fun _ _ hu => hu

theorem unpackBody_keepsHostSide : BodyKeeps (SameHostSide s) unpackBody := unpackBody_keeps fun _ _ hu => hu

end

theorem runSingle_keepsHostSide {i : Instr} {body : State → BodyResult} {s u t : State}
    (hbody : BodyKeeps (SameHostSide s) body) (hu : SameHostSide s u) (hrun : runSingle i body u = .next t) :
    SameHostSide s t := by
  have hkept := hbody u hu
  obtain ⟨w, hres, h⟩ | ⟨w, e, sub, a, hres, h⟩ := runSingle_cases i body u
  all_goals
    rw [hres] at hkept
    cases h.symm.trans hrun
    exact hkept

theorem runStages_keepsHostSide {stages : List (Instr × (State → BodyResult))} {s u t : State}
    (hbodies : ∀ stage ∈ stages, BodyKeeps (SameHostSide s) stage.2) (hu : SameHostSide s u)
    (hrun : runStages stages u = .next t) : SameHostSide s t := by
  induction stages generalizing u with
  | nil =>
    cases hrun
    exact hu
  | cons stage rest ih =>
    obtain ⟨hhead, hrest⟩ := List.forall_mem_cons.mp hbodies
    have hkept := hhead u hu
    cases hres : stage.2 u with
    | completes w =>
      rw [hres] at hkept
      exact ih hrest hkept ((runStages_completes hres rest).symm.trans hrun)
    | raises w e sub a =>
      rw [hres] at hkept
      cases (runStages_raises hres rest).symm.trans hrun
      exact hkept

theorem exec_keepsHostSide {i : Instr} {s t : State} (hi : i ≠ .clear) (hrun : exec i s = .next t) :
    SameHostSide s t := by
  have hs := SameHostSide.refl s
  cases i with
  | encode =>
    refine runStages_keepsHostSide ?_ hs hrun
    simp [countBody_keepsHostSide, buildTreeBody_keepsHostSide, genCodesBody_keepsHostSide,
      writeHeaderBody_keepsHostSide, packBody_keepsHostSide]
  | decode =>
    refine runStages_keepsHostSide ?_ hs hrun
    simp [readHeaderBody_keepsHostSide, unpackBody_keepsHostSide]
  | count => exact runSingle_keepsHostSide (countBody_keepsHostSide s) hs hrun
  | buildTree => exact runSingle_keepsHostSide (buildTreeBody_keepsHostSide s) hs hrun
  | genCodes => exact runSingle_keepsHostSide (genCodesBody_keepsHostSide s) hs hrun
  | writeHeader => exact runSingle_keepsHostSide (writeHeaderBody_keepsHostSide s) hs hrun
  | pack => exact runSingle_keepsHostSide (packBody_keepsHostSide s) hs hrun
  | readHeader => exact runSingle_keepsHostSide (readHeaderBody_keepsHostSide s) hs hrun
  | unpack => exact runSingle_keepsHostSide (unpackBody_keepsHostSide s) hs hrun
  | clear => exact absurd rfl hi

/-- Settles O11: every command but CLEAR keeps the whole host side; CLEAR resets IN_LEN, TBL_IDX and ACCERR and keeps the
rest of it. -/
theorem commandsKeepTheHostSide : Obligations.CommandsKeepTheHostSide := by
  intro i s t hrun
  by_cases hi : i = .clear
  · subst hi
    cases hrun
    exact ⟨rfl, rfl, rfl, rfl, rfl, rfl, rfl, fun hne => absurd rfl hne⟩
  · obtain ⟨hcfg, hcmd, hie, hinMem, hinputs, hturns, hrdata, hrest⟩ := exec_keepsHostSide hi hrun
    exact ⟨hcfg, hcmd, hie, hinMem, hinputs, hturns, hrdata, fun _ => hrest⟩

end Sys2Proof.Machine

namespace Sys2Proof.Machine

/-! ### Refused accesses (R28, R67 to R69, R248) -/

/-- The forms R67 to R69 refuse are those the port does not allow. -/
theorem formAllowed_eq_false_iff (cfg : Config) (a : Access) : formAllowed cfg a = false ↔ badForm cfg a := by
  cases a with
  | read w p =>
    cases p with
    | reg off | inp a | out a => simp [formAllowed, badForm, imp_iff_not_or]
  | write w p v =>
    cases p with
    | reg off | inp a => simp [formAllowed, badForm, imp_iff_not_or]
    | out a => simp [formAllowed, badForm]

/-- The five accesses of R248 are the allowed forms among those the port accepts while BUSY. -/
theorem allowedWhileBusy_iff (cfg : Config) (a : Access) :
    allowedWhileBusy a ↔ formAllowed cfg a = true ∧ busyAllowed a = true := by
  cases a with
  | read w p =>
    cases p with
    | reg off =>
      have hal : off = 0 ∨ off = 8 ∨ off = 12 → off.toNat % 4 = 0 := by rintro (rfl | rfl | rfl) <;> rfl
      cases w with
      | w32 => simpa [formAllowed, allowedWhileBusy, busyAllowed, or_assoc] using hal
      | w8 | w16 => simp [formAllowed, allowedWhileBusy]
    | inp a | out a => simp [allowedWhileBusy, busyAllowed]
  | write w p v =>
    cases p with
    | reg off =>
      have hal : off = 8 ∨ off = 12 → off.toNat % 4 = 0 := by rintro (rfl | rfl) <;> rfl
      cases w with
      | w32 => simpa [formAllowed, allowedWhileBusy, busyAllowed] using hal
      | w8 | w16 => simp [formAllowed, allowedWhileBusy]
    | inp a | out a => simp [allowedWhileBusy, busyAllowed]

/-- The refused accesses: a bad form, or what R248 does not allow while BUSY. -/
theorem accepts_eq_false_iff (s : State) (a : Access) :
    s.accepts a = false ↔ badForm s.cfg a ∨ (s.busy = true ∧ ¬ allowedWhileBusy a) := by
  rw [allowedWhileBusy_iff s.cfg, ← formAllowed_eq_false_iff, State.accepts]
  cases formAllowed s.cfg a <;> cases s.busy <;> simp

theorem hostAccess_of_refused {s : State} {a : Access} (h : s.accepts a = false) : s.hostAccess a = refusedBy a s := by
  cases a with
  | read w p => simp [State.hostAccess, refusedBy, h]
  | write w p v => simp [State.hostAccess, refusedBy, h]

/-- An accepted register write never sets ACCERR (R28, R32). -/
theorem accErr_regWrite {s : State} (h : s.accErr = false) (off : Byte) (v : Word) :
    (s.regWrite off v).accErr = false := by
  obtain h' | h' | h' | h' | h' | h' | h' | h' := regWrite_cases s off v
  all_goals simp [h', h]

theorem accErr_writeValue {s : State} (h : s.accErr = false) (v : Word) (p : Place) :
    (s.writeValue v p).accErr = false := by
  cases p with
  | reg off => exact accErr_regWrite h off v
  | inp a => exact h
  | out a => exact h

/-- An accepted access never sets ACCERR (R28). -/
theorem accErr_hostAccess_of_accepted {s : State} {a : Access} (hacc : s.accepts a = true) (h : s.accErr = false) :
    (s.hostAccess a).accErr = false := by
  cases a with
  | read w p => simpa [State.hostAccess, hacc] using h
  | write w p v => simpa [State.hostAccess, hacc] using accErr_writeValue h v p

/-- Settles O13: a bad form is not accepted, and an access that is accepted does not set ACCERR. -/
theorem badFormIsRefused : Obligations.BadFormIsRefused := by
  intro s a
  refine ⟨fun hbad => hostAccess_of_refused ((accepts_eq_false_iff s a).mpr (.inl hbad)), fun hclear hset => ?_⟩
  rw [← accepts_eq_false_iff]
  by_contra hacc
  have hkept := accErr_hostAccess_of_accepted (eq_true_of_ne_false hacc) hclear
  exact Bool.false_ne_true (hkept.symm.trans hset)

/-! ### What no host access reaches (R36, R63, R65) -/

/-- The states agree in OUT_MEM, the tables the host cannot write, the result registers and the parameters. -/
def SameResults (s t : State) : Prop :=
  t.outMem = s.outMem ∧ t.code = s.code ∧ t.order = s.order ∧ t.node = s.node ∧ t.root = s.root ∧ t.nSym = s.nSym ∧
    t.maxLen = s.maxLen ∧ t.hdrLen = s.hdrLen ∧ t.pad = s.pad ∧ t.cfg = s.cfg

theorem SameResults.refl (s : State) : SameResults s s := ⟨rfl, rfl, rfl, rfl, rfl, rfl, rfl, rfl, rfl, rfl⟩

theorem regWrite_sameResults (s : State) (off : Byte) (v : Word) : SameResults s (s.regWrite off v) := by
  obtain h | h | h | h | h | h | h | h := regWrite_cases s off v
  all_goals
    rw [h]
    exact SameResults.refl s

theorem writeValue_sameResults (s : State) (v : Word) (p : Place) : SameResults s (s.writeValue v p) := by
  cases p with
  | reg off => exact regWrite_sameResults s off v
  | inp a => exact SameResults.refl s
  | out a => exact SameResults.refl s

/-- Settles O19: a read and a refused access write no such field, and of the writes the host reaches none does. -/
theorem hostWritesOnlyFreqAndInput : Obligations.HostWritesOnlyFreqAndInput := by
  intro s a
  change SameResults s (s.hostAccess a)
  obtain ⟨-, w, p, -, h⟩ | ⟨-, w, p, v, -, h⟩ | ⟨-, w, p, -, h⟩ | ⟨-, w, p, v, -, h⟩ := hostAccess_cases s a
  · rw [h]; exact SameResults.refl s
  · rw [h]; exact writeValue_sameResults s v p
  · rw [h]; exact SameResults.refl s
  · rw [h]; exact SameResults.refl s

/-! ### Accesses to IN and OUT while IDLE (R70, R71) -/

theorem hostAccess_read_inp {s : State} {a : Nat} (hidle : s.busy = false) (ha : a < s.cfg.inCap.toNat) :
    s.hostAccess (.read .w8 (.inp a)) = { s with rdata := (s.inMem.read a).setWidth 32 } := by
  simp [State.hostAccess, State.accepts, formAllowed, State.readValue, hidle, ha]

theorem hostAccess_read_out {s : State} {a : Nat} (hidle : s.busy = false) (ha : a < s.cfg.outCap.toNat) :
    s.hostAccess (.read .w8 (.out a)) = { s with rdata := (s.outMem.read a).setWidth 32 } := by
  simp [State.hostAccess, State.accepts, formAllowed, State.readValue, hidle, ha]

theorem hostAccess_write_inp {s : State} {a : Nat} (hidle : s.busy = false) (ha : a < s.cfg.inCap.toNat) (v : Word) :
    s.hostAccess (.write .w8 (.inp a) v) = { s with inMem := s.inMem.write a (v.setWidth 8) } := by
  simp [State.hostAccess, State.accepts, formAllowed, State.writeValue, hidle, ha]

/-- Settles O14: the accesses are accepted, and a write to IN is one memory write. -/
theorem idleMemoryAccess : Obligations.IdleMemoryAccess := by
  intro s a hidle
  refine ⟨hostAccess_read_inp hidle, hostAccess_read_out hidle, fun ha v => ?_⟩
  refine ⟨_, hostAccess_write_inp hidle ha v, rfl, ?_, fun b hb => ?_⟩
  · exact Memory.read_write_same s.inMem a _
  · exact Memory.read_write_other s.inMem hb _

end Sys2Proof.Machine

namespace Sys2Proof.Machine

/-! ### The encodings of the header (R93, R97, R98) -/

/-- The bits of `val(c)`, least significant first, are the code read backwards (R13). -/
theorem testBit_codeVal (c : Code) (k : Nat) : (codeVal c).testBit k = c.reverse.getD k false := by
  induction c with
  | nil => simp [codeVal]
  | cons b c ih =>
    rw [codeVal_cons, Nat.mul_comm, Nat.testBit_two_pow_mul_add _ (codeVal_lt c), List.reverse_cons]
    split
    · rw [ih, List.getD_append _ _ _ _ (by simpa)]
    next hk =>
      rw [List.getD_append_right _ _ _ _ (by simpa using hk), List.length_reverse]
      cases k - c.length with
      | zero => cases b <;> rfl
      | succ m => cases b <;> simp [Nat.testBit_succ]

/-- The bits of a field: the code's last bit is bit 0 and the stop bit stands above its first (R97). -/
theorem getLsbD_fieldOf {c : Code} (hne : c ≠ []) (hlen : c.length ≤ 127) (k : Nat) :
    (fieldOf c).getLsbD k = (c.reverse ++ [true]).getD k false := by
  have hval : 2 ^ c.length + codeVal c = codeVal (true :: c) := by simp [codeVal_cons]
  rw [fieldOf, if_neg hne, hval, BitVec.getLsbD_ofNat, testBit_codeVal, List.reverse_cons]
  by_cases hk : k < 128
  · simp [hk]
  · rw [List.getD_eq_default _ _ (by simp; omega), Bool.and_false]

section
variable {c : Code} (hne : c ≠ []) (hlen : c.length ≤ 127)
include hne hlen

theorem getLsbD_fieldOf_code {i : Nat} (hi : i < c.length) :
    (fieldOf c).getLsbD (c.length - 1 - i) = c.getD i false := by
  have hlt : c.length - 1 - i < c.reverse.length := by simp; omega
  rw [getLsbD_fieldOf hne hlen, List.getD_append _ _ _ _ hlt, List.getD_eq_getElem _ _ hlt, List.getElem_reverse,
    List.getD_eq_getElem _ _ hi]
  congr 1
  omega

theorem getLsbD_fieldOf_stop : (fieldOf c).getLsbD c.length = true := by
  rw [getLsbD_fieldOf hne hlen, List.getD_append_right _ _ _ _ (by simp)]
  simp

theorem getLsbD_fieldOf_zero {k : Nat} (hk : c.length < k) : (fieldOf c).getLsbD k = false := by
  rw [getLsbD_fieldOf hne hlen, List.getD_eq_default _ _ (by simpa using hk)]

/-- The stop bit is the field's most significant 1 bit (R98). -/
theorem log2_toNat_fieldOf : Nat.log2 (fieldOf c).toNat = c.length := by
  have hval := codeVal_lt c
  have hpow := Nat.two_pow_pos c.length
  rw [toNat_fieldOf hlen, if_neg hne, Nat.log2_eq_iff (by omega), Nat.pow_succ]
  omega

end

@[simp] theorem length_codeOfField (F : Field) : (codeOfField F).length = Nat.log2 F.toNat := by
  simp [codeOfField]

/-- The code of a field is its bits below the stop bit, most significant first (R98). -/
theorem getD_codeOfField (F : Field) {i : Nat} (hi : i < Nat.log2 F.toNat) :
    (codeOfField F).getD i false = F.getLsbD (Nat.log2 F.toNat - 1 - i) := by
  rw [List.getD_eq_getElem _ _ (by simpa using hi)]
  simp [codeOfField]

/-- Lists of bits of one length are equal when they read the same at every index. -/
theorem code_ext {c d : Code} (hlen : c.length = d.length) (h : ∀ i, i < d.length → c.getD i false = d.getD i false) :
    c = d := by
  refine List.ext_getElem hlen fun i hc hd => ?_
  have hi := h i hd
  rwa [List.getD_eq_getElem _ _ hc, List.getD_eq_getElem _ _ hd] at hi

theorem codeOfField_fieldOf {c : Code} (hne : c ≠ []) (hlen : c.length ≤ 127) : codeOfField (fieldOf c) = c := by
  have hlog := log2_toNat_fieldOf hne hlen
  refine code_ext (by rw [length_codeOfField, hlog]) fun i hi => ?_
  rw [getD_codeOfField _ (hlog.symm ▸ hi), hlog, getLsbD_fieldOf_code hne hlen hi]

section
variable {F : Field} (hF : F ≠ 0)
include hF

theorem toNat_field_ne_zero : F.toNat ≠ 0 := fun h => hF (BitVec.eq_of_toNat_eq h)

theorem getLsbD_log2 : F.getLsbD (Nat.log2 F.toNat) = true := Nat.testBit_log2 (toNat_field_ne_zero hF)

theorem getLsbD_above_log2 {i : Nat} (hi : Nat.log2 F.toNat < i) : F.getLsbD i = false :=
  Nat.testBit_lt_two_pow ((Nat.log2_lt (toNat_field_ne_zero hF)).1 hi)

/-- A field with more than the stop bit holds a code, and is that code's field (R98). -/
theorem fieldOf_codeOfField (h1 : F ≠ 1) : fieldOf (codeOfField F) = F := by
  have hlen := length_codeOfField F
  have hle : (codeOfField F).length ≤ 127 := length_codeOfField_le F
  have hne : codeOfField F ≠ [] := by
    intro hnil
    rw [hnil, List.length_nil, eq_comm, Nat.log2_eq_iff (toNat_field_ne_zero hF)] at hlen
    exact h1 (BitVec.eq_of_toNat_eq (by simp; omega))
  refine BitVec.eq_of_getLsbD_eq fun k _ => ?_
  obtain hk | rfl | hk := Nat.lt_trichotomy k (codeOfField F).length
  · have hcode := getLsbD_fieldOf_code hne hle (i := (codeOfField F).length - 1 - k) (by omega)
    rw [getD_codeOfField F (by omega), ← hlen] at hcode
    rwa [show (codeOfField F).length - 1 - ((codeOfField F).length - 1 - k) = k by omega] at hcode
  · rw [getLsbD_fieldOf_stop hne hle, hlen, getLsbD_log2 hF]
  · rw [getLsbD_fieldOf_zero hne hle hk, getLsbD_above_log2 hF (hlen ▸ hk)]

end

theorem length_fieldBytes (F : Field) : (fieldBytes F).length = 16 := by simp [fieldBytes, fieldByteCount]

theorem getD_fieldBytes (F : Field) {j : Nat} (hj : j < 16) : (fieldBytes F).getD j 0 = fieldByte F j := by
  rw [List.getD_eq_getElem _ _ (by rwa [length_fieldBytes])]
  simp [fieldBytes]

/-- Bit `k` of byte `j` of a field is bit 8j + k of the field, most significant first (R97). -/
theorem getMsbD_fieldByte (F : Field) {j k : Nat} (hj : j < 16) (hk : k < 8) :
    (fieldByte F j).getMsbD k = F.getMsbD (8 * j + k) := by
  rw [fieldByte, BitVec.getMsbD_extractLsb', decide_eq_true hk, decide_eq_true (by omega), Bool.true_and, Bool.true_and]
  congr 1
  omega

theorem toNat_countByte (n : Nat) : (countByte n).toNat = n % 256 := BitVec.toNat_ofNat ..

theorem countOf_eq (c : Byte) : countOf c = if c.toNat = 0 then 256 else c.toNat := by
  simp [countOf, ← BitVec.toNat_inj]

/-- The count byte names every number of records (R93). -/
theorem countOf_countByte {n : Nat} (h1 : 1 ≤ n) (h256 : n ≤ 256) : countOf (countByte n) = n := by
  rw [countOf_eq, toNat_countByte]
  split <;> omega

theorem countByte_countOf (c : Byte) : countByte (countOf c) = c := by
  have hc := c.isLt
  apply BitVec.eq_of_toNat_eq
  rw [toNat_countByte, countOf_eq]
  split <;> omega

/-- A bit counted from the most significant end of a field. -/
theorem getMsbD_field (F : Field) {i : Nat} (hi : i < 128) : F.getMsbD i = F.getLsbD (127 - i) := by
  rw [BitVec.getMsbD_eq_getLsbD, decide_eq_true hi, Bool.true_and]

/-- Settles O3: the field of a code is the code behind a stop bit, so its bits say the code, and a nonzero field has a stop
bit. -/
theorem headerEncodingsRoundTrip : Obligations.HeaderEncodingsRoundTrip := by
  refine ⟨fun n h1 h256 => ⟨toNat_countByte n, countOf_countByte h1 h256⟩,
    fun c => ⟨(countOf_le c).1, (countOf_le c).2, countByte_countOf c⟩, rfl, fun c hpos hlen => ?code,
    fun F hF => ?field⟩
  case code =>
    have hne : c ≠ [] := List.length_pos_iff.1 hpos
    refine ⟨?value, fun i hi => ?zeros, ?stop, fun i hi => ?bits, fun j k hj hk => ?bytes,
      codeOfField_fieldOf hne hlen⟩
    case value => rw [toNat_fieldOf hlen, if_neg hne]
    case zeros => rw [getMsbD_field _ (by omega), getLsbD_fieldOf_zero hne hlen (by omega)]
    case stop =>
      rw [getMsbD_field _ (by omega), show 127 - (127 - c.length) = c.length by omega, getLsbD_fieldOf_stop hne hlen]
    case bits =>
      rw [getMsbD_field _ (by omega), show 127 - (128 - c.length + i) = c.length - 1 - i by omega,
        getLsbD_fieldOf_code hne hlen hi]
    case bytes => rw [getD_fieldBytes _ hj, getMsbD_fieldByte _ hj hk]
  case field =>
    exact ⟨length_codeOfField F, length_codeOfField F ▸ length_codeOfField_le F, getLsbD_log2 hF,
      fun i => getLsbD_above_log2 hF, fun i => getD_codeOfField F, fieldOf_codeOfField hF⟩

end Sys2Proof.Machine

namespace Sys2Proof.Machine

/-! ### PACK (R170 to R172) -/

/-- With a code for every byte the gathered stream is S of R100. -/
theorem gatherBits_ok {code : Table Code} {xs : List Byte} (h : ∀ x ∈ xs, tblGet code x ≠ []) (i : Nat) :
    gatherBits code i xs = .ok (bitsOf code xs) := by
  induction xs generalizing i with
  | nil => rfl
  | cons x xs ih =>
    rw [List.forall_mem_cons] at h
    simp [gatherBits, h.1, ih h.2, bitsOf]

/-- PACK completes when every check of R170 passes. -/
theorem packBody_completes {s : State} {bits : List Bool} (hcv : s.cv = true) (hpos : 1 ≤ s.inLen.toNat)
    (hcap : s.inLen.toNat ≤ s.cfg.inCap.toNat) (hbits : gatherBits s.code 0 s.inputBytes = .ok bits)
    (hfit : s.outLen.toNat + payloadLen bits + 1 ≤ s.cfg.outCap.toNat) :
    packBody s =
      .completes
        { s with
          outMem := s.outMem.writeBytes s.outLen.toNat (payloadBytes bits ++ [BitVec.ofNat 8 (padCount bits)])
          outLen := BitVec.ofNat 32 (s.outLen.toNat + payloadLen bits + 1)
          pad := BitVec.ofNat 3 (padCount bits) } := by
  rw [packBody, if_neg (by simp [hcv]), if_neg (by omega), if_neg (by omega), hbits]
  exact if_neg (by omega)

theorem mem_inputBytes {s : State} {x : Byte} :
    x ∈ s.inputBytes ↔ ∃ i, i < s.inLen.toNat ∧ s.inMem.read i = x := by
  simp [State.inputBytes, State.inByte]

/-- A payload byte is the number its eight stream bits write (R100). -/
theorem payloadByte_eq (bits : List Bool) (k : Nat) :
    payloadByte bits k = BitVec.ofNat 8 (codeVal ((List.range 8).map fun t => bits.getD (8 * k + t) false)) := by
  rw [payloadByte, codeVal, List.foldl_map]

/-- Stream bit 8k + t is bit 7 − t of payload byte k (R100). -/
theorem getLsbD_payloadByte (bits : List Bool) (k : Nat) {t : Nat} (ht : t < 8) :
    (payloadByte bits k).getLsbD (7 - t) = bits.getD (8 * k + t) false := by
  have hlt : 7 - t < ((List.range 8).map fun t => bits.getD (8 * k + t) false).reverse.length := by simp; omega
  rw [payloadByte_eq, BitVec.getLsbD_ofNat, decide_eq_true (by omega), Bool.true_and, testBit_codeVal,
    List.getD_eq_getElem _ _ hlt, List.getElem_reverse]
  simp [show 7 - (7 - t) = t by omega]

theorem getD_payloadBytes (bits : List Bool) {k : Nat} (hk : k < payloadLen bits) :
    (payloadBytes bits).getD k 0 = payloadByte bits k := by
  rw [List.getD_eq_getElem _ _ (by simpa using hk)]
  simp [payloadBytes]

theorem padCount_lt (bits : List Bool) : padCount bits < 8 := by
  rw [padCount, payloadLen]
  omega

/-- A number that fits a register reads back from it. -/
theorem toNat_ofNat_of_lt {w n : Nat} (h : n < 2 ^ w) : (BitVec.ofNat w n).toNat = n := by
  rw [BitVec.toNat_ofNat, Nat.mod_eq_of_lt h]

/-- Settles O37: PACK writes the payload bytes of S and the pad byte in one piece at OUT_LEN. -/
theorem packAppendsPayload : Obligations.PackAppendsPayload := by
  intro s hcv hpos hcap hcoded S P hfit
  have hall : ∀ x ∈ s.inputBytes, tblGet s.code x ≠ [] := by
    intro x hx
    obtain ⟨i, hi, rfl⟩ := mem_inputBytes.1 hx
    exact hcoded i hi
  have hpad := padCount_lt S
  have hP : (payloadBytes S).length = P := length_payloadBytes S
  have hlen : (payloadBytes S ++ [BitVec.ofNat 8 (padCount S)]).length = P + 1 := by simp [hP]
  refine ⟨_, runSingle_completes (packBody_completes hcv hpos hcap (gatherBits_ok hall 0) hfit), rfl, ?outLen, ?pad,
    fun j hj => ?bits, ?padByte, fun a ha => ?frame⟩
  case outLen => exact toNat_ofNat_of_lt (hfit.trans_lt s.cfg.outCap.isLt)
  case pad => exact toNat_ofNat_of_lt hpad
  case bits =>
    have hk : j / 8 < P := by omega
    rw [State.complete_outMem, Memory.read_writeBytes_inside _ _ _ _ (hlen ▸ Nat.lt_succ_of_lt hk),
      List.getD_append _ _ _ _ (hP ▸ hk), getD_payloadBytes S hk, getLsbD_payloadByte S _ (Nat.mod_lt _ (by decide)),
      Nat.div_add_mod]
  case padByte =>
    rw [State.complete_outMem, Memory.read_writeBytes_inside _ _ _ _ (hlen ▸ Nat.lt_succ_self P),
      List.getD_append_right _ _ _ _ hP.le, hP, Nat.sub_self]
    exact toNat_ofNat_of_lt (hpad.trans (by decide))
  case frame => rw [State.complete_outMem, Memory.read_writeBytes_outside _ _ _ _ (hlen ▸ ha)]

end Sys2Proof.Machine

namespace Sys2Proof.Machine

/-! ### UNPACK (R178, R182) -/

theorem getElem_toList_table {α : Type} (t : Table α) {i : Nat} (h : i < t.toList.length) :
    t.toList[i] = tblGet t (BitVec.ofNat 8 i) := by
  have hi : i < 256 := by simpa using h
  simp [tblGet, Nat.mod_eq_of_lt hi]

/-- A symbol found for `p` has the code `p` (R182). -/
theorem tblGet_of_symbolOf {code : Table Code} {p : Code} {x : Byte} (h : symbolOf code p = some x) :
    tblGet code x = p ∧ p ≠ [] := by
  obtain ⟨i, hi, rfl⟩ := Option.map_eq_some_iff.1 h
  obtain ⟨hlt, hp, -⟩ := List.findIdx?_eq_some_iff_getElem.1 hi
  rw [getElem_toList_table] at hp
  simp only [Bool.and_eq_true, Bool.not_eq_true', List.isEmpty_eq_false_iff, beq_iff_eq] at hp
  exact ⟨hp.2, hp.2 ▸ hp.1⟩

/-- In a table without clashing codes the walk finds the symbol of a whole code (R182). -/
theorem symbolOf_code {code : Table Code} (hpf : PrefixFree code) {x : Byte} (hx : tblGet code x ≠ []) :
    symbolOf code (tblGet code x) = some x := by
  cases h : symbolOf code (tblGet code x) with
  | none =>
    rw [symbolOf, Option.map_eq_none_iff, List.findIdx?_eq_none_iff] at h
    have hself := h _ ((mem_toList_iff code _).2 ⟨x, rfl⟩)
    simp [hx] at hself
  | some y =>
    obtain ⟨hy, -⟩ := tblGet_of_symbolOf h
    by_contra hne
    have hyx : y ≠ x := fun e => hne (congrArg some e)
    exact hpf y x hyx (hy ▸ hx) hx (hy ▸ List.prefix_rfl)

/-- Inside a code the walk finds no symbol, and some code goes on (R182). -/
theorem symbolOf_inside {code : Table Code} (hpf : PrefixFree code) {x : Byte} {p q : Code} (hq : q ≠ [])
    (hx : tblGet code x = p ++ q) : symbolOf code p = none := by
  by_contra h
  obtain ⟨y, hy⟩ := Option.ne_none_iff_exists'.1 h
  obtain ⟨hyp, hp⟩ := tblGet_of_symbolOf hy
  have hyx : y ≠ x := by
    rintro rfl
    exact hq (List.self_eq_append_right.1 (hyp.symm.trans hx))
  exact hpf y x hyx (hyp ▸ hp) (by simp [hx, hp]) (hyp ▸ hx ▸ List.prefix_append p q)

theorem startsCode_inside {code : Table Code} {x : Byte} {p q : Code} (hq : q ≠ []) (hx : tblGet code x = p ++ q) :
    startsCode code p = true := by
  rw [startsCode, List.any_eq_true]
  refine ⟨p ++ q, (mem_toList_iff code _).2 ⟨x, hx⟩, ?_⟩
  simp [hq]

/-- The walk over the rest `q` of a symbol's code, after its bits `p`, emits the symbol (R182, R183). -/
theorem unpackWalk_code {code : Table Code} (hpf : PrefixFree code) {cap : Nat} {bit : Nat → Bool} {addrOf : Nat → Nat}
    {x : Byte} {p q : Code} {out : List Byte} (hx : tblGet code x = p ++ q) (hq : q ≠ []) (hout : out.length < cap)
    {j : Nat} (hbits : (List.range' j q.length).map bit = q) (n : Nat) :
    unpackWalk code cap bit addrOf (q.length + n) j p out =
      unpackWalk code cap bit addrOf n (j + q.length) [] (out ++ [x]) := by
  induction q generalizing p j with
  | nil => exact absurd rfl hq
  | cons b q ih =>
    rw [List.length_cons, List.range'_succ, List.map_cons, List.cons.injEq] at hbits
    obtain ⟨rfl, hbits⟩ := hbits
    have hx' : tblGet code x = (p ++ [bit j]) ++ q := by simpa using hx
    rw [List.length_cons, Nat.add_right_comm, unpackWalk]
    by_cases hnil : q = []
    · subst hnil
      have hsym : symbolOf code (p ++ [bit j]) = some x := by
        rw [← List.append_nil (p ++ [bit j]), ← hx', symbolOf_code hpf (by simp [hx])]
      simp [hsym, hout.ne]
    · simp only [symbolOf_inside hpf hnil hx', startsCode_inside hnil hx', if_true]
      rw [ih hx' hnil hbits, Nat.add_right_comm, Nat.add_assoc]

/-- The walk over the codes of a symbol sequence emits the sequence (R178). -/
theorem unpackWalk_bitsOf {code : Table Code} (hpf : PrefixFree code) {cap : Nat} {bit : Nat → Bool}
    {addrOf : Nat → Nat} {xs out : List Byte} (hcoded : ∀ x ∈ xs, tblGet code x ≠ [])
    (hcap : out.length + xs.length ≤ cap) {j : Nat}
    (hbits : (List.range' j (bitsOf code xs).length).map bit = bitsOf code xs) (n : Nat) :
    unpackWalk code cap bit addrOf ((bitsOf code xs).length + n) j [] out =
      unpackWalk code cap bit addrOf n (j + (bitsOf code xs).length) [] (out ++ xs) := by
  induction xs generalizing j out with
  | nil => simp [bitsOf]
  | cons x xs ih =>
    rw [List.forall_mem_cons] at hcoded
    obtain ⟨hx, hxs⟩ := hcoded
    rw [List.length_cons] at hcap
    have hsplit : bitsOf code (x :: xs) = tblGet code x ++ bitsOf code xs := rfl
    rw [hsplit, List.length_append, ← List.range'_append_1, List.map_append] at hbits
    obtain ⟨hfst, hrest⟩ := List.append_inj hbits (by simp)
    rw [hsplit, List.length_append, Nat.add_assoc, unpackWalk_code hpf (List.nil_append _).symm hx (by omega) hfst,
      ih hxs (by simp; omega) hrest, List.append_assoc, Nat.add_assoc]
    rfl

/-- UNPACK completes when its checks pass and the walk emits (R178). -/
theorem unpackBody_completes {s : State} {out : List Byte} (hhv : s.hv = true)
    (hcap : s.inLen.toNat ≤ s.cfg.inCap.toNat) (hlen : s.hdrLen.toNat + 2 ≤ s.inLen.toNat)
    (hpad : (s.inByte (s.inLen.toNat - 1)).toNat ≤ 7)
    (hwalk : unpackWalk s.code s.cfg.outCap.toNat (payloadBit s.inByte s.hdrLen.toNat)
      (fun j => s.hdrLen.toNat + j / 8)
      (8 * (s.inLen.toNat - s.hdrLen.toNat - 1) - (s.inByte (s.inLen.toNat - 1)).toNat) 0 [] [] = .emitted out) :
    unpackBody s =
      .completes
        { s with
          outMem := s.outMem.writeBytes 0 out
          outLen := BitVec.ofNat 32 out.length
          pad := BitVec.ofNat 3 (s.inByte (s.inLen.toNat - 1)).toNat } := by
  rw [unpackBody, if_neg (by simp [hhv]), if_neg (by omega)]
  simp only
  rw [if_neg (by omega), if_neg (by omega), if_neg (by omega), hwalk]

/-- Settles O39: the walk over the data bits emits the symbols whose codes they are, and the body writes them. -/
theorem unpackDecodesSymbols : Obligations.UnpackDecodesSymbols := by
  intro s xs hhv hpf hcap hlen pad hpad hcoded hfit hdata
  have hnum := congrArg List.length hdata
  rw [dataBits, List.length_map, List.length_range] at hnum
  rw [dataBits, hnum, List.range_eq_range'] at hdata
  have hwalk := unpackWalk_bitsOf hpf (addrOf := fun j => s.hdrLen.toNat + j / 8) (out := []) hcoded (by simpa) hdata 0
  rw [Nat.add_zero, ← hnum] at hwalk
  refine ⟨_, runSingle_completes (unpackBody_completes hhv hcap hlen hpad hwalk), rfl, ?outLen, ?pad,
    fun i hi => ?bytes, fun a ha => ?frame⟩
  case outLen => exact toNat_ofNat_of_lt (hfit.trans_lt s.cfg.outCap.isLt)
  case pad => exact toNat_ofNat_of_lt (Nat.lt_succ_of_le hpad)
  case bytes => exact Memory.read_writeBytes_inside _ 0 i xs hi
  case frame => exact Memory.read_writeBytes_outside _ 0 a xs (.inr (by omega))

end Sys2Proof.Machine

namespace Sys2Proof.Machine

/-! ### The decoder (R85 to R87, R90) -/

theorem decode_encode (i : Instr) : decode (encode i) = .ok i := by
  cases i with
  | encode => exact Laws.Encoding.encode.2.1
  | decode => exact Laws.Encoding.decode.2.1
  | count => exact Laws.Encoding.count.2.1
  | buildTree => exact Laws.Encoding.buildTree.2.1
  | genCodes => exact Laws.Encoding.genCodes.2.1
  | writeHeader => exact Laws.Encoding.writeHeader.2.1
  | pack => exact Laws.Encoding.pack.2.1
  | readHeader => exact Laws.Encoding.readHeader.2.1
  | unpack => exact Laws.Encoding.unpack.2.1
  | clear => exact Laws.Encoding.clear.2.1

/-- The opcode map gives a command only at its own opcode (R86). -/
theorem opcode_of_decodeOpcode {opc : Byte} {i : Instr} (h : decodeOpcode opc = .ok i) : opc = opcode i := by
  apply BitVec.eq_of_toNat_eq
  unfold decodeOpcode at h
  split at h
  case h_11 => cases h
  all_goals
    cases h
    assumption

/-- A command word is its opcode below a reserved field of 0 (R85). -/
theorem eq_setWidth_opcodeField {w : Word} (h : reservedField w = 0) : w = (opcodeField w).setWidth 32 := by
  have hw := w.isLt
  have hres := congrArg BitVec.toNat h
  apply BitVec.eq_of_toNat_eq
  simp only [reservedField, opcodeField, BitVec.extractLsb'_toNat, BitVec.toNat_setWidth, BitVec.toNat_ofNat,
    Nat.shiftRight_eq_div_pow, BitVec.ofNat_eq_ofNat] at hres ⊢
  omega

/-- A word decodes to a command exactly when it is the command's word (R90). -/
theorem decode_eq_ok_iff {w : Word} {i : Instr} : decode w = .ok i ↔ w = encode i := by
  refine ⟨fun h => ?_, fun h => h ▸ decode_encode i⟩
  rw [decode] at h
  split at h
  · cases h
  next hres => rw [eq_setWidth_opcodeField (not_not.1 hres), opcode_of_decodeOpcode h, encode]

/-- The opcodes of R86 are the opcodes of the commands. -/
theorem mem_opcodes_iff {n : Nat} :
    n ∈ [0x01, 0x02, 0x10, 0x11, 0x12, 0x13, 0x14, 0x20, 0x21, 0x3F] ↔ ∃ i, n = (encode i).toNat := by
  constructor
  · intro h
    simp only [List.mem_cons, List.not_mem_nil, or_false] at h
    obtain rfl | rfl | rfl | rfl | rfl | rfl | rfl | rfl | rfl | rfl := h
    exacts [⟨.encode, rfl⟩, ⟨.decode, rfl⟩, ⟨.count, rfl⟩, ⟨.buildTree, rfl⟩, ⟨.genCodes, rfl⟩, ⟨.writeHeader, rfl⟩,
      ⟨.pack, rfl⟩, ⟨.readHeader, rfl⟩, ⟨.unpack, rfl⟩, ⟨.clear, rfl⟩]
  · rintro ⟨i, rfl⟩
    cases i <;> decide

theorem toNat_encode_lt (i : Instr) : (encode i).toNat < 256 := by
  rw [encode, BitVec.toNat_setWidth]
  exact (Nat.mod_le ..).trans_lt (opcode i).isLt

/-- Settles O2: the second clause is the first over all commands. -/
theorem decodeInvertsEncodeOnAllWords : Obligations.DecodeInvertsEncodeOnAllWords := by
  intro w
  refine ⟨fun i => decode_eq_ok_iff, ?_⟩
  simp only [decode_eq_ok_iff, mem_opcodes_iff, BitVec.toNat_inj]
  constructor
  · rintro ⟨i, rfl⟩
    exact ⟨toNat_encode_lt i, i, rfl⟩
  · exact And.right

/-- Settles O1: the ten words are the words of the commands, and each illegal word fails one check of R87. -/
theorem opcodeMapWords : Obligations.OpcodeMapWords := by
  unfold Obligations.OpcodeMapWords
  refine ⟨decode_encode .encode, decode_encode .decode, decode_encode .count, decode_encode .buildTree,
    decode_encode .genCodes, decode_encode .writeHeader, decode_encode .pack, decode_encode .readHeader,
    decode_encode .unpack, decode_encode .clear, ?_⟩
  decide

end Sys2Proof.Machine

namespace Sys2Proof.Machine

/-! ### LOADIN and COPYOUT (R108) -/

/-- A run goes on from the state of its first step. -/
theorem coreRun_succ {M : Host.Core} {s u : M.State} (hstep : M.step s = .next u) (k : Nat) :
    M.run (k + 1) s = M.run k u := by
  simp [Host.Core.run, hstep]

/-- The state after `k` steps from `s` is `t`. -/
def RunsTo (k : Nat) (s t : State) : Prop := Sys2Proof.core.run k s = .next t

theorem RunsTo.zero (s : State) : RunsTo 0 s s := rfl

theorem RunsTo.of_step {s u t : State} {k : Nat} (hstep : step s = .next u) (h : RunsTo k u t) :
    RunsTo (k + 1) s t := (coreRun_succ hstep k).trans h

section
variable {s : State} (hidle : s.busy = false) (hturns : s.turns = [])
include hidle hturns

/-- With no turn given an IDLE engine leaves the step to the pending access. -/
theorem step_of_idle_access (a : Access) (rest : List HostOp) :
    step { s with inputs := .access a :: rest } = .next ({ s with inputs := rest }.hostAccess a) :=
  step_of_idle_unscheduled (s := { s with inputs := .access a :: rest }) hturns hidle

/-- The last line of LOADIN and of COPYOUT. -/
theorem step_of_idle_write_inLen (v : Word) (rest : List HostOp) :
    step { s with inputs := w32 0x10 v :: rest } = .next { s with inputs := rest, inLen := v } := by
  rw [w32, step_of_idle_access hidle hturns, hostAccess_write_reg (s := { s with inputs := rest }) hidle (by decide)]
  rfl

theorem step_of_idle_write_inp {a : Nat} (ha : a < s.cfg.inCap.toNat) (b : Byte) (rest : List HostOp) :
    step { s with inputs := w8in a b :: rest } = .next { s with inputs := rest, inMem := s.inMem.write a b } := by
  rw [w8in, step_of_idle_access hidle hturns, hostAccess_write_inp (s := { s with inputs := rest }) hidle ha,
    BitVec.setWidth_setWidth_of_le b (by decide), BitVec.setWidth_eq]

/-- LOADIN from offset `a` on: the bytes, then IN_LEN (R108). -/
theorem runsTo_loadInFrom {a : Nat} {bs : List Byte} (hfit : a + bs.length ≤ s.cfg.inCap.toNat) (rest : List HostOp) :
    RunsTo (bs.length + 1) { s with inputs := loadInFrom a bs ++ rest }
      { s with inMem := s.inMem.writeBytes a bs, inLen := BitVec.ofNat 32 (a + bs.length), inputs := rest } := by
  induction bs generalizing s a with
  | nil => exact .of_step (step_of_idle_write_inLen hidle hturns _ rest) (.zero _)
  | cons b bs ih =>
    rw [List.length_cons] at hfit
    have hrest := ih (s := { s with inMem := s.inMem.write a b }) hidle hturns (a := a + 1)
      (by rwa [Nat.add_assoc, Nat.add_comm 1])
    rw [Nat.add_assoc, Nat.add_comm 1] at hrest
    exact .of_step (step_of_idle_write_inp hidle hturns (by omega) b (loadInFrom (a + 1) bs ++ rest)) hrest

end

/-- The lines of COPYOUT for the offsets in `is` (R108). -/
def copyRounds (is : List Nat) : List HostOp := is.flatMap fun i => [.access (.read .w8 (.out i)), .writeBack i]

theorem copyOutOps_eq (n : Word) : copyOutOps n = copyRounds (List.range' 0 n.toNat) ++ [w32 0x10 n] := by
  rw [copyOutOps, copyRounds, List.range_eq_range']

section
variable {s : State} (hidle : s.busy = false) (hturns : s.turns = [])
include hidle hturns

/-- The first half of a round of COPYOUT reads the byte. -/
theorem step_of_idle_read_out {i : Nat} (hi : i < s.cfg.outCap.toNat) (rest : List HostOp) :
    step { s with inputs := .access (.read .w8 (.out i)) :: rest } =
      .next { s with inputs := rest, rdata := (s.outMem.read i).setWidth 32 } := by
  rw [step_of_idle_access hidle hturns, hostAccess_read_out (s := { s with inputs := rest }) hidle hi]

/-- The second half of a round of COPYOUT writes the byte last read. -/
theorem step_of_idle_writeBack {i : Nat} (hi : i < s.cfg.inCap.toNat) (rest : List HostOp) :
    step { s with inputs := .writeBack i :: rest } =
      .next { s with inputs := rest, inMem := s.inMem.write i (s.rdata.setWidth 8) } := by
  rw [step_of_idle_unscheduled (s := { s with inputs := .writeBack i :: rest }) hturns hidle, State.hostTurn]
  exact congrArg _ (hostAccess_write_inp (s := { s with inputs := rest }) hidle hi s.rdata)

/-- The rounds of COPYOUT copy the bytes at `n` offsets from `a` on, and IN_LEN is written last (R108). -/
theorem runsTo_copyRounds {a n : Nat} (hout : a + n ≤ s.cfg.outCap.toNat) (hinp : a + n ≤ s.cfg.inCap.toNat) (v : Word)
    (rest : List HostOp) :
    ∃ r, RunsTo (2 * n + 1) { s with inputs := copyRounds (List.range' a n) ++ w32 0x10 v :: rest }
      { s with
        inMem := s.inMem.writeBytes a ((List.range' a n).map s.outMem.read), inLen := v, inputs := rest, rdata := r } := by
  induction n generalizing s a with
  | zero => exact ⟨s.rdata, .of_step (step_of_idle_write_inLen hidle hturns v rest) (.zero _)⟩
  | succ n ih =>
    let b := s.outMem.read a
    have hback : (b.setWidth 32).setWidth 8 = b := BitVec.setWidth_setWidth_of_le b (by decide)
    have hwrite := step_of_idle_writeBack (s := { s with rdata := b.setWidth 32 }) hidle hturns (i := a)
      (by change a < s.cfg.inCap.toNat; omega) (copyRounds (List.range' (a + 1) n) ++ w32 0x10 v :: rest)
    obtain ⟨r, hr⟩ := ih (s := { s with inMem := s.inMem.write a b, rdata := b.setWidth 32 }) hidle hturns (a := a + 1)
      (by rwa [Nat.add_assoc, Nat.add_comm 1]) (by rwa [Nat.add_assoc, Nat.add_comm 1])
    rw [hback] at hwrite
    exact ⟨r, .of_step (step_of_idle_read_out hidle hturns (by omega) _) (.of_step hwrite hr)⟩

/-- COPYOUT: the step that expands the line, two steps a byte, and the write of IN_LEN (R108). -/
theorem runsTo_copyOut (hinp : s.outLen.toNat ≤ s.cfg.inCap.toNat) (hout : s.outLen.toNat ≤ s.cfg.outCap.toNat)
    (rest : List HostOp) :
    ∃ r, RunsTo (2 * s.outLen.toNat + 2) { s with inputs := .copyOut :: rest }
      { s with
        inMem := s.inMem.writeBytes 0 ((List.range' 0 s.outLen.toNat).map s.outMem.read), inLen := s.outLen,
        inputs := rest, rdata := r } := by
  have hexpand : step { s with inputs := .copyOut :: rest } = .next { s with inputs := copyOutOps s.outLen ++ rest } :=
    step_of_idle_unscheduled (s := { s with inputs := .copyOut :: rest }) hturns hidle
  rw [copyOutOps_eq, List.append_assoc] at hexpand
  obtain ⟨r, hr⟩ := runsTo_copyRounds hidle hturns (a := 0) (n := s.outLen.toNat) (by rwa [Nat.zero_add])
    (by rwa [Nat.zero_add]) s.outLen rest
  exact ⟨r, .of_step hexpand hr⟩

end

/-- Settles O20: both programs end with the bytes written in one piece at offset 0. -/
theorem loadInAndCopyOut : Obligations.LoadInAndCopyOut := by
  refine ⟨fun s bs rest hidle hturns hin hfit => ?loadIn, fun s rest hidle hturns hin hinp hout => ?copyOut⟩
  case loadIn =>
    have hrun := runsTo_loadInFrom hidle hturns (a := 0) (bs := bs) (by rwa [Nat.zero_add]) rest
    rw [← loadIn, ← hin, Nat.zero_add] at hrun
    refine ⟨_, hrun, rfl, ?inLen, fun i hi => ?bytes, fun a ha => ?frame⟩
    case inLen => exact toNat_ofNat_of_lt (hfit.trans_lt s.cfg.inCap.isLt)
    case bytes => exact Memory.read_writeBytes_inside s.inMem 0 i bs hi
    case frame => exact Memory.read_writeBytes_outside s.inMem 0 a bs (.inr (by omega))
  case copyOut =>
    obtain ⟨r, hrun⟩ := runsTo_copyOut hidle hturns hinp hout rest
    rw [← hin] at hrun
    refine ⟨_, hrun, rfl, fun a ha => ?bytes, fun a ha => ?frame⟩
    case bytes =>
      have hread := Memory.read_writeBytes_inside s.inMem 0 a ((List.range' 0 s.outLen.toNat).map s.outMem.read)
        (by simpa using ha)
      rw [Nat.zero_add, List.getD_eq_getElem _ _ (by simpa using ha)] at hread
      simpa using hread
    case frame => exact Memory.read_writeBytes_outside s.inMem 0 a _ (.inr (by simpa using ha))

end Sys2Proof.Machine

namespace Sys2Proof.Machine

/-! ### WRITE_HEADER (R94, R150, R152) -/

/-- WRITE_HEADER completes when every check of R150 passes. -/
theorem writeHeaderBody_completes {s : State} (hcv : s.cv = true)
    (hfit : headerLen s.nSym.toNat ≤ s.cfg.outCap.toNat) :
    writeHeaderBody s =
      .completes
        { s with
          outMem := s.outMem.writeBytes 0 (headerBytes s.nSym.toNat s.order s.code)
          outLen := BitVec.ofNat 32 (headerLen s.nSym.toNat)
          hdrLen := BitVec.ofNat 32 (headerLen s.nSym.toNat) } := by
  obtain ⟨hcv', -⟩ | ⟨-, hlt, -⟩ | ⟨-, -, h⟩ := writeHeaderBody_cases s
  · exact absurd (hcv.symm.trans hcv') (by decide)
  · exact absurd hfit (Nat.not_le.2 hlt)
  · exact h

/-- Element `j` of block `k` in a list made of blocks of one length. -/
theorem getD_flatMap_blocks {α β : Type} {f : α → List β} {m : Nat} (hf : ∀ x, (f x).length = m) (d : β) {xs : List α}
    {k j : Nat} (hk : k < xs.length) (hj : j < m) : (xs.flatMap f).getD (m * k + j) d = (f xs[k]).getD j d := by
  induction xs generalizing k with
  | nil => cases hk
  | cons x xs ih =>
    rw [List.flatMap_cons]
    cases k with
    | zero => rw [Nat.mul_zero, Nat.zero_add, List.getD_append _ _ _ _ (hf x ▸ hj), List.getElem_cons_zero]
    | succ k =>
      have hsub : m * (k + 1) + j - (f x).length = m * k + j := by rw [hf, Nat.mul_succ]; omega
      rw [List.getD_append_right _ _ _ _ (by rw [hf, Nat.mul_succ]; omega), hsub, ih (Nat.lt_of_succ_lt_succ hk),
        List.getElem_cons_succ]

/-- Byte `j` of record `k` of a header (R94). -/
theorem getD_headerBytes {n : Nat} (order : Table Byte) (code : Table Code) {k j : Nat} (hk : k < n) (hj : j < 17) :
    (headerBytes n order code).getD (1 + 17 * k + j) 0 =
      (recordBytes (orderAt order k) (tblGet code (orderAt order k))).getD j 0 := by
  rw [headerBytes, show 1 + 17 * k + j = 17 * k + j + 1 by omega, List.getD_cons_succ,
    getD_flatMap_blocks (m := 17) (fun k => length_recordBytes ..) 0 (by simpa using hk) hj, List.getElem_range]

/-- A byte of record `k` as WRITE_HEADER leaves it in memory (R94). -/
theorem read_headerBytes (m : Memory) {n : Nat} (order : Table Byte) (code : Table Code) {k j : Nat} (hk : k < n)
    (hj : j < 17) :
    (m.writeBytes 0 (headerBytes n order code)).read (1 + 17 * k + j) =
      (recordBytes (orderAt order k) (tblGet code (orderAt order k))).getD j 0 := by
  have hlt : 1 + 17 * k + j < (headerBytes n order code).length := by
    rw [length_headerBytes, headerLen, recordByteCount]
    omega
  rw [← getD_headerBytes order code hk hj, ← m.read_writeBytes_inside 0 _ _ hlt, Nat.zero_add]

/-- Settles O30: the header bytes are the count byte and blocks of 17 bytes, written in one piece at offset 0. -/
theorem writeHeaderWritesRecords : Obligations.WriteHeaderWritesRecords := by
  intro s hcv hn hfit
  have hlen : (headerBytes s.nSym.toNat s.order s.code).length = 1 + 17 * s.nSym.toNat := length_headerBytes ..
  refine ⟨_, runSingle_completes (writeHeaderBody_completes hcv hfit), rfl, ?len, ?len, ?count, fun k hk => ?symbol,
    fun k j hk hj => ?field, fun a ha => ?frame⟩
  case len => exact toNat_hdrLen (by omega)
  case count =>
    rw [State.complete_outMem, ← Nat.zero_add 0, Memory.read_writeBytes_inside _ _ _ _ (by omega)]
    exact toNat_countByte _
  case symbol => exact read_headerBytes s.outMem s.order s.code hk (j := 0) (by decide)
  case field =>
    rw [show 2 + 17 * k + j = 1 + 17 * k + (j + 1) by omega, State.complete_outMem,
      read_headerBytes _ _ _ hk (by omega), recordBytes, List.getD_cons_succ, getD_fieldBytes _ hj, fieldByte]
  case frame => exact Memory.read_writeBytes_outside _ 0 a _ (.inr (by omega))

end Sys2Proof.Machine

namespace Sys2Proof.Machine

/-! ### The leaves and the present symbols (R38, R117) -/

theorem mem_presentSymbols {freq : Table Word} {x : Byte} : x ∈ presentSymbols freq ↔ tblGet freq x ≠ 0 := by
  simp [presentSymbols, mem_allSymbols]

theorem presentSymbols_sorted (freq : Table Word) : (presentSymbols freq).Pairwise fun x y => x.toNat < y.toNat :=
  allSymbols_sorted.filter _

theorem leavesOf_eq_map_presentSymbols (freq : Table Word) :
    leavesOf freq = (presentSymbols freq).map fun x => .leaf x ((tblGet freq x).setWidth 40) :=
  leavesOf_eq freq

theorem length_leavesOf (freq : Table Word) : (leavesOf freq).length = (presentSymbols freq).length := by
  rw [leavesOf_eq_map_presentSymbols, List.length_map]

theorem leavesOf_eq_nil_iff {freq : Table Word} : leavesOf freq = [] ↔ presentSymbols freq = [] := by
  rw [leavesOf_eq_map_presentSymbols, List.map_eq_nil_iff]

/-- Node `i` of the leaves is the leaf of present symbol number `i`. -/
theorem getElem?_leavesOf {freq : Table Word} {i : Nat} {nd : Node} :
    (leavesOf freq)[i]? = some nd ↔
      ∃ x, (presentSymbols freq)[i]? = some x ∧ nd = .leaf x ((tblGet freq x).setWidth 40) := by
  rw [leavesOf_eq_map_presentSymbols, List.getElem?_map, Option.map_eq_some_iff]
  simp only [eq_comm]

/-- A word keeps its value in the 40 bits of a node's frequency (R123). -/
theorem toNat_setWidth_40 (f : Word) : (f.setWidth 40).toNat = f.toNat :=
  BitVec.toNat_setWidth_of_le (by decide)

theorem freqAt_leavesOf {freq : Table Word} {i : Nat} {x : Byte} (h : (presentSymbols freq)[i]? = some x) :
    freqAt (leavesOf freq) i = (tblGet freq x).toNat := by
  rw [freqAt_of_getElem? (getElem?_leavesOf.2 ⟨x, h, rfl⟩), nodeFreq, toNat_setWidth_40]

/-- The keys of the leaves sum to at most W of R128. -/
theorem sum_sortedKeys_le_totalFreq (freq : Table Word) :
    ((sortedKeys (leavesOf freq)).map Prod.fst).sum ≤ totalFreq freq := by
  rw [((sortedKeys_perm _).map Prod.fst).sum_eq, map_fst_keysFrom, leavesOf_eq_map_presentSymbols, List.map_map]
  have hfreq : (fun nd => (nodeFreq nd).toNat) ∘ (fun x => Node.leaf x ((tblGet freq x).setWidth 40)) =
      fun x => (tblGet freq x).toNat := funext fun x => toNat_setWidth_40 _
  rw [hfreq, totalFreq]
  exact (List.filter_sublist.map _).sum_le_sum fun _ _ => Nat.zero_le _

/-! ### The sorted leaves and ORDER (R118, R119) -/

theorem mem_foldr_insertKey {q : List Key} {a : Key} : a ∈ q.foldr insertKey [] ↔ a ∈ q := by
  induction q with
  | nil => rfl
  | cons k q ih => rw [List.foldr_cons, (insertKey_perm k _).mem_iff, List.mem_cons, List.mem_cons, ih]

theorem foldr_insertKey_sorted {q : List Key} (h : (q.map Prod.snd).Nodup) :
    (q.foldr insertKey []).Pairwise fun a b => keyLt a b = true := by
  induction q with
  | nil => exact List.Pairwise.nil
  | cons k q ih =>
    obtain ⟨hk, hq⟩ := List.nodup_cons.1 h
    refine insertKey_sorted (ih hq) fun a ha heq => hk ?_
    exact heq ▸ List.mem_map_of_mem (mem_foldr_insertKey.1 ha)

theorem sortedKeys_sorted (leaves : List Node) : (sortedKeys leaves).Pairwise fun a b => keyLt a b = true :=
  foldr_insertKey_sorted (by rw [map_snd_keysFrom]; exact List.nodup_range)

/-- ORDER lists the present symbols by ascending frequency, then by ascending symbol. -/
theorem leafOrder_sorted (freq : Table Word) :
    (leafOrder (leavesOf freq)).Pairwise fun x y =>
      (tblGet freq x).toNat < (tblGet freq y).toNat ∨ (tblGet freq x = tblGet freq y ∧ x.toNat < y.toNat) := by
  have hkey : ∀ a ∈ sortedKeys (leavesOf freq), ∀ x, (leavesOf freq)[a.2]?.bind nodeSym = some x →
      (presentSymbols freq)[a.2]? = some x ∧ a.1 = (tblGet freq x).toNat := by
    intro a ha x hx
    obtain ⟨nd, hget, hsym⟩ := Option.bind_eq_some_iff.1 hx
    obtain ⟨y, hy, rfl⟩ := getElem?_leavesOf.1 hget
    obtain rfl : y = x := Option.some.inj hsym
    exact ⟨hy, (fst_eq_freqAt_of_mem_keysFrom ((sortedKeys_perm _).mem_iff.1 ha)).trans (freqAt_leavesOf hy)⟩
  rw [leafOrder, List.pairwise_filterMap]
  refine (sortedKeys_sorted _).imp_of_mem fun {a b} ha hb hab x hx y hy => ?_
  obtain ⟨hxi, hxf⟩ := hkey a ha x hx
  obtain ⟨hyi, hyf⟩ := hkey b hb y hy
  rw [keyLt_iff, hxf, hyf] at hab
  refine hab.imp_right fun ⟨hfreq, hidx⟩ => ⟨BitVec.eq_of_toNat_eq hfreq, ?_⟩
  obtain ⟨hlx, hgx⟩ := List.getElem?_eq_some_iff.1 hxi
  obtain ⟨hly, hgy⟩ := List.getElem?_eq_some_iff.1 hyi
  rw [← hgx, ← hgy]
  exact List.pairwise_iff_getElem.1 (presentSymbols_sorted freq) _ _ hlx hly hidx

/-! ### Every combine is greedy (R119 to R122) -/

/-- Nodes `l` and `r` carry the two least keys among the nodes that wait when node `k` is created. -/
def TakesLeast (ns : List Node) (k l r : Nat) : Prop :=
  waitsAt ns k l ∧ waitsAt ns k r ∧ l ≠ r ∧
    (∀ i, waitsAt ns k i → i = l ∨ keyLt (keyAt ns l) (keyAt ns i) = true) ∧
    (∀ i, waitsAt ns k i → i = l ∨ i = r ∨ keyLt (keyAt ns r) (keyAt ns i) = true)

theorem greedyTree_iff (ns : List Node) :
    GreedyTree ns ↔ ∀ k f l r, ns[k]? = some (.internal f l (some r)) → TakesLeast ns k l r := Iff.rfl

theorem waitsAt_append {ns : List Node} {k : Nat} (hk : k ≤ ns.length) (ms : List Node) (i : Nat) :
    waitsAt (ns ++ ms) k i ↔ waitsAt ns k i := by
  rw [waitsAt, waitsAt, List.take_append_of_le_length hk]

theorem keyAt_append {ns : List Node} {i : Nat} (hi : i < ns.length) (ms : List Node) :
    keyAt (ns ++ ms) i = keyAt ns i := by
  rw [keyAt, keyAt, freqAt_append hi]

/-- Whether a combine was greedy does not depend on later nodes. -/
theorem TakesLeast.append {ns : List Node} {k l r : Nat} (h : TakesLeast ns k l r) (hk : k ≤ ns.length)
    (ms : List Node) : TakesLeast (ns ++ ms) k l r := by
  obtain ⟨hl, hr, hne, hleast, hsecond⟩ := h
  have hkey {i : Nat} (hi : waitsAt ns k i) : keyAt (ns ++ ms) i = keyAt ns i := keyAt_append (hi.1.trans_le hk) ms
  refine ⟨(waitsAt_append hk ms l).2 hl, (waitsAt_append hk ms r).2 hr, hne, fun i hi => ?_, fun i hi => ?_⟩
  all_goals replace hi := (waitsAt_append hk ms i).1 hi
  · rw [hkey hl, hkey hi]
    exact hleast i hi
  · rw [hkey hr, hkey hi]
    exact hsecond i hi

/-- The combining loop with its greedy choice: the queue is in ascending key order, so its head is the argmin, every
combine so far took the two least keys, and a combine adds nothing to the sum of the keys. -/
structure GreedyForest (leaves : List Node) (q : List Key) (ns : List Node) : Prop extends ForestOk leaves q ns where
  sorted : q.Pairwise fun a b => keyLt a b = true
  greedy : GreedyTree ns
  total_le : (q.map Prod.fst).sum ≤ ((sortedKeys leaves).map Prod.fst).sum

theorem ForestOk.keyAt_eq {leaves : List Node} {q : List Key} {ns : List Node} (h : ForestOk leaves q ns) {a : Key}
    (ha : a ∈ q) : keyAt ns a.2 = a := by
  rw [keyAt, ← h.keys a ha]

/-- The queue holds exactly the nodes that wait (R120). -/
theorem ForestOk.waitsAt_iff {leaves : List Node} {q : List Key} {ns : List Node} (h : ForestOk leaves q ns)
    {i : Nat} : waitsAt ns ns.length i ↔ ∃ a ∈ q, a.2 = i := by
  have hmem := h.edges.mem_iff (a := i)
  have hnodup := h.edges.nodup_iff.2 List.nodup_range
  rw [List.mem_append, List.mem_range, List.mem_map] at hmem
  rw [waitsAt, List.take_length, ← hmem]
  constructor
  · rintro ⟨hi | hi, hnot⟩
    · exact absurd hi hnot
    · exact hi
  · intro hi
    exact ⟨.inr hi, fun hedge => (List.disjoint_of_nodup_append hnodup) hedge (List.mem_map.2 hi)⟩

/-- The first two keys of the queue are the two least of the waiting nodes. -/
theorem GreedyForest.takesLeast {leaves : List Node} {a b : Key} {q : List Key} {ns : List Node}
    (h : GreedyForest leaves (a :: b :: q) ns) : TakesLeast ns ns.length a.2 b.2 := by
  have hf := h.toForestOk
  have ha : keyAt ns a.2 = a := hf.keyAt_eq (by simp)
  have hb : keyAt ns b.2 = b := hf.keyAt_eq (by simp)
  obtain ⟨hleast, hrest⟩ := List.pairwise_cons.1 h.sorted
  obtain ⟨hsecond, -⟩ := List.pairwise_cons.1 hrest
  refine ⟨hf.waitsAt_iff.2 ⟨a, by simp, rfl⟩, hf.waitsAt_iff.2 ⟨b, by simp, rfl⟩, fun heq => ?_, fun i hi => ?_,
    fun i hi => ?_⟩
  · have hlt := hleast b (by simp)
    rw [← ha, ← hb, heq, keyLt_iff] at hlt
    omega
  · obtain ⟨c, hc, rfl⟩ := hf.waitsAt_iff.1 hi
    rw [ha, hf.keyAt_eq hc]
    rcases List.mem_cons.1 hc with rfl | hc
    · exact .inl rfl
    · exact .inr (hleast c hc)
  · obtain ⟨c, hc, rfl⟩ := hf.waitsAt_iff.1 hi
    rw [hb, hf.keyAt_eq hc]
    rcases List.mem_cons.1 hc with rfl | hc
    · exact .inl rfl
    rcases List.mem_cons.1 hc with rfl | hc
    · exact .inr (.inl rfl)
    · exact .inr (.inr (hsecond c hc))

/-- One round of the loop keeps the greedy choice (R121). -/
theorem GreedyForest.combine_step {leaves : List Node} {a b : Key} {q : List Key} {ns : List Node}
    (h : GreedyForest leaves (a :: b :: q) ns) (h2 : 2 ≤ leaves.length) :
    GreedyForest leaves (insertKey ((BitVec.ofNat 40 (a.1 + b.1)).toNat, ns.length) q)
      (ns ++ [.internal (BitVec.ofNat 40 (a.1 + b.1)) a.2 (some b.2)]) := by
  have hq : q.Pairwise fun a b => keyLt a b = true := (List.pairwise_cons.1 (List.pairwise_cons.1 h.sorted).2).2
  refine ⟨h.toForestOk.combine_step h2, insertKey_sorted hq fun c hc => ?_, fun k f l r hget => ?_, ?_⟩
  · exact (h.key_lt (List.mem_cons_of_mem _ (List.mem_cons_of_mem _ hc))).ne
  · have hk : k < ns.length + 1 := by simpa using (List.getElem?_eq_some_iff.1 hget).1
    rcases Nat.lt_succ_iff_lt_or_eq.1 hk with hk | rfl
    · rw [List.getElem?_append_left hk] at hget
      exact ((greedyTree_iff ns).1 h.greedy k f l r hget).append hk.le _
    · cases List.getElem?_concat_length.symm.trans hget
      exact h.takesLeast.append le_rfl _
  · have hsum := h.total_le
    have hle : (BitVec.ofNat 40 (a.1 + b.1)).toNat ≤ a.1 + b.1 := by
      rw [BitVec.toNat_ofNat]
      exact Nat.mod_le _ _
    rw [((insertKey_perm _ q).map Prod.fst).sum_eq]
    simp only [List.map_cons, List.sum_cons] at hsum ⊢
    omega

/-- What every round of the loop keeps holds when one key is left (R122). -/
theorem combine_keeps {P : List Key → List Node → Prop}
    (hstep : ∀ a b q ns, P (a :: b :: q) ns →
      P (insertKey ((BitVec.ofNat 40 (a.1 + b.1)).toNat, ns.length) q)
        (ns ++ [.internal (BitVec.ofNat 40 (a.1 + b.1)) a.2 (some b.2)]))
    {fuel : Nat} {q : List Key} {ns : List Node} (h : P q ns) (hpos : 1 ≤ q.length) (hfuel : q.length ≤ fuel + 1) :
    ∃ k, (combine fuel q ns).2 = some k.2 ∧ P [k] (combine fuel q ns).1 := by
  induction fuel generalizing q ns with
  | zero =>
    obtain ⟨k, rfl⟩ : ∃ k, q = [k] := List.length_eq_one_iff.1 (by omega)
    exact ⟨k, rfl, h⟩
  | succ fuel ih =>
    match q, hpos, hfuel, h with
    | [k], _, _, h => exact ⟨k, rfl, h⟩
    | a :: b :: q, _, hfuel, h =>
      have hlen := (insertKey_perm ((BitVec.ofNat 40 (a.1 + b.1)).toNat, ns.length) q).length_eq
      simp only [List.length_cons] at hfuel hlen
      exact ih (hstep a b q ns h) (by omega) (by omega)

theorem treeOf_singleton (l : Node) : treeOf [l] = ([l, .internal (nodeFreq l) 0 none], some 1) := rfl

theorem treeOf_of_two_le {leaves : List Node} (h : 2 ≤ leaves.length) :
    treeOf leaves = combine leaves.length (sortedKeys leaves) leaves := by
  match leaves, h with
  | _ :: _ :: _, _ => rfl

section
variable {leaves : List Node}

/-- A store of leaves has no combine. -/
theorem LeavesOk.greedyTree (h : LeavesOk leaves) : GreedyTree leaves := by
  intro k f l r hget
  obtain ⟨x, g, hleaf⟩ := h.isLeaf _ (List.mem_of_getElem? hget)
  cases hleaf

theorem LeavesOk.greedyForest (h : LeavesOk leaves) : GreedyForest leaves (sortedKeys leaves) leaves :=
  ⟨h.forestOk, sortedKeys_sorted leaves, h.greedyTree, le_rfl⟩

/-- With two or more leaves BUILD_TREE ends with a greedy forest of one tree. -/
theorem LeavesOk.greedyForest_treeOf (h : LeavesOk leaves) (h2 : 2 ≤ leaves.length) :
    ∃ k, (treeOf leaves).2 = some k.2 ∧ GreedyForest leaves [k] (treeOf leaves).1 := by
  have hlen : (sortedKeys leaves).length = leaves.length := by rw [(sortedKeys_perm _).length_eq, length_keysFrom]
  rw [treeOf_of_two_le h2]
  exact combine_keeps (P := GreedyForest leaves) (fun _ _ _ _ hg => hg.combine_step h2) h.greedyForest (by omega)
    (by omega)

theorem LeavesOk.greedyTree_treeOf (h : LeavesOk leaves) (hne : leaves ≠ []) : GreedyTree (treeOf leaves).1 := by
  have hpos := List.length_pos_iff.2 hne
  rcases Nat.eq_or_lt_of_le hpos with h1 | h2
  · obtain ⟨l, rfl⟩ := List.length_eq_one_iff.1 h1.symm
    intro k f i r hget
    rcases List.mem_pair.1 (List.mem_of_getElem? hget) with heq | heq
    · obtain ⟨x, g, rfl⟩ := h.isLeaf l (List.mem_singleton_self l)
      cases heq
    · cases heq
  · obtain ⟨k, -, hforest⟩ := h.greedyForest_treeOf h2
    exact hforest.greedy

/-- The leaves are the first nodes (R116). -/
theorem LeavesOk.prefix_treeOf (h : LeavesOk leaves) (hne : leaves ≠ []) : leaves <+: (treeOf leaves).1 := by
  have hpos := List.length_pos_iff.2 hne
  rcases Nat.eq_or_lt_of_le hpos with h1 | h2
  · obtain ⟨l, rfl⟩ := List.length_eq_one_iff.1 h1.symm
    exact List.prefix_append [l] _
  · obtain ⟨k, -, hforest⟩ := h.greedyForest_treeOf h2
    exact hforest.leaves_prefix

end

/-! ### BUILD_TREE (R115) -/

/-- The state after a successful BUILD_TREE. -/
def State.builtTree (s : State) : State :=
  { s with
    node := (treeOf (leavesOf s.freq)).1
    root := (treeOf (leavesOf s.freq)).2
    order := orderTable (leafOrder (leavesOf s.freq))
    nSym := BitVec.ofNat 9 (leavesOf s.freq).length }.treeFlags.complete

theorem exec_buildTree_completes {s : State} (hfv : s.fv = true) (hne : presentSymbols s.freq ≠ []) :
    exec .buildTree s = .next s.builtTree := by
  obtain ⟨hfv', -⟩ | ⟨-, hnil, -⟩ | ⟨-, -, h⟩ := buildTreeBody_cases s
  · exact absurd (hfv.symm.trans hfv') (by decide)
  · exact absurd (leavesOf_eq_nil_iff.1 hnil) hne
  · exact runSingle_completes h

/-- BUILD_TREE without a present symbol raises EMPTY_INPUT (R115). -/
theorem buildTreeBody_empty {s : State} (hfv : s.fv = true) (hnil : presentSymbols s.freq = []) :
    buildTreeBody s = .raises s .emptyInput 0 0 := by
  obtain ⟨hfv', -⟩ | ⟨-, -, h⟩ | ⟨-, hne, -⟩ := buildTreeBody_cases s
  · exact absurd (hfv.symm.trans hfv') (by decide)
  · exact h
  · exact absurd (leavesOf_eq_nil_iff.2 hnil) hne

theorem toNat_nSym_builtTree (s : State) : s.builtTree.nSym.toNat = (leavesOf s.freq).length :=
  toNat_nSym (length_leavesOf_le s.freq)

/-- Settles O22: the greedy forest of the combining loop gives the tree, the sorted keys of the leaves give ORDER. -/
theorem buildTreeBuildsHuffmanTree : Obligations.BuildTreeBuildsHuffmanTree := by
  intro s hfv hne
  have hleaves := leavesOk_leavesOf s.freq
  have hne' : leavesOf s.freq ≠ [] := fun h => hne (leavesOf_eq_nil_iff.1 h)
  have hlen : (leafOrder (leavesOf s.freq)).length = (leavesOf s.freq).length :=
    (leafOrder_perm _).length_eq.trans hleaves.length_symbols
  refine ⟨_, exec_buildTree_completes hfv hne, rfl, ?count, ?leaves, ?tree, hleaves.greedyTree_treeOf hne', ?order,
    fun k hk hn => ?zeros⟩
  case zeros => exact orderAt_orderTable_past ((length_leafOrder_le _).trans_eq (toNat_nSym_builtTree s).symm) k hk hn
  all_goals rw [toNat_nSym_builtTree]
  case count => exact length_leavesOf s.freq
  case leaves =>
    rw [← leavesOf_eq_map_presentSymbols]
    exact (List.prefix_iff_eq_take.1 (hleaves.prefix_treeOf hne')).symm
  case tree => exact hleaves.treeOk hne'
  case order =>
    change (orderList (orderTable (leafOrder (leavesOf s.freq))) _).Pairwise _
    rw [← hlen, orderList_orderTable _ (hlen.trans_le (length_leavesOf_le s.freq))]
    exact leafOrder_sorted s.freq

end Sys2Proof.Machine

namespace Sys2Proof.Machine

/-! ### The greedy tree: nodes are taken in the order of their keys (R119, R121)

A node created later never has a lower frequency, so a combine that takes the two least keys waiting takes lower keys
earlier: of two nodes the one with the lower key has the earlier parent. -/

/-- A greedy tree or forest of two or more leaves. -/
structure GreedyNodes (ns : List Node) (n : Nat) : Prop extends NodesOk ns n where
  two_le : 2 ≤ n
  nodup : (childEdges ns).Nodup
  greedy : GreedyTree ns

section
variable {ns : List Node} {n : Nat}

theorem keyLt_keyAt_iff {i j : Nat} :
    keyLt (keyAt ns i) (keyAt ns j) = true ↔ freqAt ns i < freqAt ns j ∨ freqAt ns i = freqAt ns j ∧ i < j :=
  keyLt_iff _ _

theorem keyLt_asymm {a b : Key} (h : keyLt a b = true) : ¬ keyLt b a = true := by
  rw [keyLt_iff] at *
  omega

theorem childEdges_take_succ {k : Nat} {nd : Node} (h : ns[k]? = some nd) :
    childEdges (ns.take (k + 1)) = childEdges (ns.take k) ++ childrenOf nd := by
  rw [List.take_add_one, h, Option.toList_some, childEdges, List.flatMap_append, List.flatMap_singleton, childEdges]

/-- The nodes that wait after combine `k` are the new node and those that waited, but for the two it took. -/
theorem waitsAt_succ {k i : Nat} {f : NodeFreq} {l r : Nat} (h : ns[k]? = some (.internal f l (some r)))
    (hi : waitsAt ns (k + 1) i) : i = k ∨ (waitsAt ns k i ∧ i ≠ l ∧ i ≠ r) := by
  obtain ⟨hlt, hnot⟩ := hi
  rw [childEdges_take_succ h, List.mem_append, not_or] at hnot
  obtain ⟨hbefore, hchild⟩ := hnot
  have hchild : i ≠ l ∧ i ≠ r := by simpa [childrenOf] using hchild
  rcases Nat.lt_succ_iff_lt_or_eq.1 hlt with hlt | heq
  · exact .inr ⟨⟨hlt, hbefore⟩, hchild⟩
  · exact .inl heq

namespace GreedyNodes

/-- A node after the leaves has two children, of lower index, whose frequencies it sums. -/
theorem internal_node (h : GreedyNodes ns n) {k : Nat} (hk : k < ns.length) (hn : n ≤ k) :
    ∃ f l r, ns[k]? = some (.internal f l (some r)) ∧ l < k ∧ r < k ∧ freqAt ns k = freqAt ns l + freqAt ns r := by
  obtain ⟨f, l, r, hget, -, hl, hr, hsum⟩ | ⟨-, -, hone, -⟩ := internalOk_cases (h.internal k hk hn)
  · exact ⟨f, l, r, hget, hl, hr, (freqAt_of_getElem? hget).trans hsum⟩
  · exact absurd (hone ▸ h.two_le) (by decide)

/-- Only a node after the leaves has children. -/
theorem parent_ge (h : GreedyNodes ns n) {k j : Nat} {b : Bool} (hc : childAt ns k b = some j) :
    n ≤ k ∧ k < ns.length := by
  obtain ⟨f, l, r, hget, -⟩ := childAt_eq_some hc
  refine ⟨Nat.le_of_not_lt fun hlt => ?_, (List.getElem?_eq_some_iff.1 hget).1⟩
  obtain ⟨x, g, hleaf⟩ := h.leaf k _ hlt hget
  cases hleaf

/-- A child has a sibling, and the two frequencies sum to the parent's. -/
theorem exists_sibling (h : GreedyNodes ns n) {k v : Nat} {b : Bool} (hc : childAt ns k b = some v) :
    ∃ u, childAt ns k (!b) = some u ∧ u < k ∧ v < k ∧ freqAt ns k = freqAt ns v + freqAt ns u := by
  obtain ⟨hn, hk⟩ := h.parent_ge hc
  obtain ⟨f, l, r, hget, hl, hr, hsum⟩ := h.internal_node hk hn
  rw [childAt_of_internal hget] at hc
  cases b with
  | false =>
    cases hc
    exact ⟨r, childAt_of_internal hget true, hr, hl, hsum⟩
  | true =>
    cases hc
    exact ⟨l, childAt_of_internal hget false, hl, hr, hsum.trans (Nat.add_comm _ _)⟩

/-- A node that waits when the children of `k` are taken, and is none of them, has a greater key than they have. -/
theorem keyLt_of_waitsAt (h : GreedyNodes ns n) {k i j : Nat} {b : Bool} (hc : childAt ns k b = some j)
    (hw : waitsAt ns k i) (hne : ∀ b', childAt ns k b' ≠ some i) : keyLt (keyAt ns j) (keyAt ns i) = true := by
  obtain ⟨hn, hk⟩ := h.parent_ge hc
  obtain ⟨f, l, r, hget, -⟩ := h.internal_node hk hn
  obtain ⟨-, -, -, hleast, hsecond⟩ := h.greedy k f l r hget
  have hl : i ≠ l := fun heq => hne false (heq ▸ childAt_of_internal hget false)
  have hr : i ≠ r := fun heq => hne true (heq ▸ childAt_of_internal hget true)
  rw [childAt_of_internal hget] at hc
  cases b with
  | false => cases hc; exact (hleast i hw).resolve_left hl
  | true => cases hc; exact ((hsecond i hw).resolve_left hl).resolve_left hr

/-- The nodes after the leaves are created in order of frequency: both children of node `k + 1` were left by combine
`k`, or one of them is node `k`. -/
theorem freqAt_le_succ (h : GreedyNodes ns n) {k : Nat} (hn : n ≤ k) (hk : k + 1 < ns.length) :
    freqAt ns k ≤ freqAt ns (k + 1) := by
  obtain ⟨f, l, r, hget, -, -, hsum⟩ := h.internal_node (Nat.lt_of_succ_lt hk) hn
  obtain ⟨f', l', r', hget', -, -, hsum'⟩ := h.internal_node hk (Nat.le_succ_of_le hn)
  obtain ⟨-, -, -, hleast, hsecond⟩ := h.greedy k f l r hget
  obtain ⟨hl', hr', -⟩ := h.greedy (k + 1) f' l' r' hget'
  have hafter {i : Nat} (hi : waitsAt ns (k + 1) i) :
      i = k ∨ (freqAt ns l ≤ freqAt ns i ∧ freqAt ns r ≤ freqAt ns i) := by
    refine (waitsAt_succ hget hi).imp_right fun ⟨hw, hil, hir⟩ => ?_
    have h1 := keyLt_keyAt_iff.1 ((hleast i hw).resolve_left hil)
    have h2 := keyLt_keyAt_iff.1 (((hsecond i hw).resolve_left hil).resolve_left hir)
    omega
  rcases hafter hl' with rfl | hfl
  · omega
  rcases hafter hr' with rfl | hfr
  · omega
  · omega

theorem freqAt_mono (h : GreedyNodes ns n) {k i : Nat} (hn : n ≤ k) (hki : k ≤ i) (hi : i < ns.length) :
    freqAt ns k ≤ freqAt ns i := by
  induction i, hki using Nat.le_induction with
  | base => exact le_rfl
  | succ i hki ih => exact (ih (Nat.lt_of_succ_lt hi)).trans (h.freqAt_le_succ (hn.trans hki) hi)

/-- A child of node `k` has a lower key than node `k` and all later nodes. -/
theorem keyLt_of_child (h : GreedyNodes ns n) {k i j : Nat} {b : Bool} (hc : childAt ns k b = some j) (hki : k ≤ i)
    (hi : i < ns.length) : keyLt (keyAt ns j) (keyAt ns i) = true := by
  obtain ⟨u, -, -, hjk, hsum⟩ := h.exists_sibling hc
  have hmono := h.freqAt_mono (h.parent_ge hc).1 hki hi
  rw [keyLt_keyAt_iff]
  omega

/-- Of two nodes the one with the lower key is taken first. -/
theorem parent_le_of_keyLt (h : GreedyNodes ns n) {k k' i j : Nat} {b b' : Bool} (hi : childAt ns k b = some i)
    (hj : childAt ns k' b' = some j) (hlt : keyLt (keyAt ns i) (keyAt ns j) = true) : k ≤ k' := by
  by_contra hk
  have hk : k' < k := Nat.lt_of_not_le hk
  have hilt : i < ns.length := by
    obtain ⟨u, -, -, hik, -⟩ := h.exists_sibling hi
    exact hik.trans (h.parent_ge hi).2
  refine keyLt_asymm hlt ?_
  rcases Nat.lt_or_ge i k' with hik | hki
  · have hparent (m : Nat) (c : Bool) (hm : childAt ns m c = some i) : m = k := (childAt_inj h.nodup hm hi).1
    refine h.keyLt_of_waitsAt hj ⟨hik, fun hmem => ?_⟩ fun c hc => hk.ne (hparent k' c hc)
    obtain ⟨m, nd, hget, hchild⟩ := mem_childEdges.1 hmem
    have hm : m < k' := (List.getElem?_eq_some_iff.1 hget).1.trans_le (List.length_take_le k' ns)
    rw [List.getElem?_take_of_lt hm] at hget
    obtain ⟨f, l, r, rfl, c, hc⟩ := mem_childrenOf.1 hchild
    exact (hm.trans hk).ne (hparent m c ((childAt_of_internal hget c).trans hc))
  · exact h.keyLt_of_child hj hki hilt

/-- A node with a lower key is no less deep (R127). -/
theorem depth_le_of_keyLt (h : GreedyNodes ns n) {p q : Code} {i j : Nat} (hi : Descends ns (ns.length - 1) p i)
    (hj : Descends ns (ns.length - 1) q j) (hlt : keyLt (keyAt ns i) (keyAt ns j) = true) : q.length ≤ p.length := by
  induction hj generalizing p i with
  | root => exact Nat.zero_le _
  | @child q k' j b' hj hcj ih =>
    have hk' := h.parent_ge hcj
    cases hi with
    | root => exact absurd (h.keyLt_of_child hcj (Nat.le_sub_one_of_lt hk'.2) (by omega)) (keyLt_asymm hlt)
    | @child p k i b hi hci =>
      simp only [List.length_append, List.length_singleton, Nat.add_le_add_iff_right]
      rcases Nat.eq_or_lt_of_le (h.parent_le_of_keyLt hci hcj hlt) with rfl | hk
      · rw [hj.unique h.nodup h.last_not_child hi]
      · refine ih hi (keyLt_keyAt_iff.2 ?_)
        have := h.freqAt_mono (h.parent_ge hci).1 hk.le hk'.2
        omega

/-! ### The depth bound (R128) -/

/-- A grandchild has at most the frequency of its parent's sibling: it was taken before. -/
theorem freqAt_le_of_sibling (h : GreedyNodes ns n) {k u v c : Nat} {b b' : Bool} (hv : childAt ns k b = some v)
    (hu : childAt ns k (!b) = some u) (hc : childAt ns v b' = some c) : freqAt ns c ≤ freqAt ns u := by
  by_contra hlt
  have hkv := h.parent_le_of_keyLt hu hc (keyLt_keyAt_iff.2 (.inl (Nat.lt_of_not_le hlt)))
  obtain ⟨w, -, -, hvk, -⟩ := h.exists_sibling hv
  omega

/-- Sums of positive frequencies are positive. -/
theorem freqAt_pos (h : GreedyNodes ns n) (hleaf : ∀ i, i < n → 0 < freqAt ns i) {i : Nat} (hi : i < ns.length) :
    0 < freqAt ns i := by
  induction i using Nat.strong_induction_on with
  | h i ih =>
    rcases Nat.lt_or_ge i n with hn | hn
    · exact hleaf i hn
    · obtain ⟨f, l, r, -, hl, -, hsum⟩ := h.internal_node hi hn
      have := ih l hl (hl.trans hi)
      omega

end GreedyNodes

/-- Node `i` is as frequent as a subtree of depth `m` must be; and so is, one Fibonacci number lower, every node that is
no less frequent than the children of `i`. -/
def FibBound (ns : List Node) (i m : Nat) : Prop :=
  Nat.fib (m + 2) ≤ freqAt ns i ∧
    ∀ u, 0 < freqAt ns u → (∀ b c, childAt ns i b = some c → freqAt ns c ≤ freqAt ns u) →
      Nat.fib (m + 1) ≤ freqAt ns u

theorem GreedyNodes.fibBound_parent (h : GreedyNodes ns n) (hpos : ∀ i, i < ns.length → 0 < freqAt ns i)
    {k v m : Nat} {b : Bool} (hc : childAt ns k b = some v) (hv : FibBound ns v m) : FibBound ns k (m + 1) := by
  obtain ⟨hfib, huncle⟩ := hv
  obtain ⟨u, hu, huk, -, hsum⟩ := h.exists_sibling hc
  have hupos := hpos u (huk.trans (h.parent_ge hc).2)
  have hsibling := huncle u hupos fun b' c hc' => h.freqAt_le_of_sibling hc hu hc'
  refine ⟨?_, fun w _ hw => hfib.trans (hw b v hc)⟩
  calc Nat.fib (m + 1 + 2) = Nat.fib (m + 1) + Nat.fib (m + 2) := Nat.fib_add_two
    _ ≤ freqAt ns u + freqAt ns v := Nat.add_le_add hsibling hfib
    _ = freqAt ns k := (Nat.add_comm _ _).trans hsum.symm

/-- A node with a leaf `m` edges below it has a frequency of at least Fib(m + 2). -/
theorem GreedyNodes.fibBound (h : GreedyNodes ns n) (hpos : ∀ i, i < ns.length → 0 < freqAt ns i) {i : Nat} {p : Code}
    {x : Byte} (hp : PathTo ns i p x) : FibBound ns i p.length := by
  induction hp with
  | here i x f hget => exact ⟨hpos i (List.getElem?_eq_some_iff.1 hget).1, fun u hu _ => hu⟩
  | left i f l r p x hget _ ih => exact h.fibBound_parent hpos (childAt_of_internal hget false) ih
  | right i f l r p x hget _ ih => exact h.fibBound_parent hpos (childAt_of_internal hget true) ih

end

end Sys2Proof.Machine

namespace Sys2Proof.Machine

/-! ### The codes of a frequency table (R115, R140 to R142) -/

/-- With ROOT = `r` the code of a symbol is its path string from `r` (R141). -/
theorem TreeOk.tblGet_treeCodes {ns : List Node} {root : Option Nat} {order : Table Byte} {n r : Nat}
    (h : TreeOk ns root order n) (hroot : root = some r) {p : Code} {x : Byte} (hp : PathTo ns r p x) :
    tblGet (treeCodes ns root) x = p := by
  obtain ⟨hnodup, -⟩ := h.walk_entriesOk hroot
  rw [hroot, treeCodes]
  exact codeTableOf_present _ hnodup (x, p) ((h.mem_walk_iff hroot).2 hp)

/-- A symbol without a leaf has no code (R144). -/
theorem TreeOk.tblGet_treeCodes_absent {ns : List Node} {root : Option Nat} {order : Table Byte} {n : Nat}
    (h : TreeOk ns root order n) {x : Byte} (hx : x ∉ leafSymbols ns n) : tblGet (treeCodes ns root) x = [] := by
  obtain ⟨-, -, -, hcoded, -⟩ := h.codeOk_treeCodes
  obtain ⟨-, -, -, -, -, -, -, -, hperm⟩ := h
  by_contra hne
  exact hx (hperm.mem_iff.1 ((hcoded x).1 hne))

/-- The nodes BUILD_TREE makes of a frequency table. -/
def nodesOfFreq (freq : Table Word) : List Node := (treeOf (leavesOf freq)).1

/-- The codes BUILD_TREE and GEN_CODES make of a frequency table. -/
def codesOfFreq (freq : Table Word) : Table Code := treeCodes (nodesOfFreq freq) (treeOf (leavesOf freq)).2

section
variable {freq : Table Word}

theorem treeOk_nodesOfFreq (hne : presentSymbols freq ≠ []) :
    TreeOk (nodesOfFreq freq) (treeOf (leavesOf freq)).2 (orderTable (leafOrder (leavesOf freq)))
      (leavesOf freq).length :=
  (leavesOk_leavesOf freq).treeOk fun h => hne (leavesOf_eq_nil_iff.1 h)

theorem root_nodesOfFreq (hne : presentSymbols freq ≠ []) :
    (treeOf (leavesOf freq)).2 = some ((nodesOfFreq freq).length - 1) := by
  obtain ⟨-, -, -, hroot, -⟩ := treeOk_nodesOfFreq hne
  exact hroot

theorem greedyNodes_nodesOfFreq (h2 : 2 ≤ (leavesOf freq).length) :
    GreedyNodes (nodesOfFreq freq) (leavesOf freq).length := by
  have hne : leavesOf freq ≠ [] := List.ne_nil_of_length_pos (by omega)
  have htree := (leavesOk_leavesOf freq).treeOk hne
  exact ⟨htree.nodesOk, h2, htree.childEdges_nodup, (leavesOk_leavesOf freq).greedyTree_treeOf hne⟩

/-- The first nodes are the leaves of the present symbols (R116, R117). -/
theorem getElem?_nodesOfFreq {i : Nat} (hi : i < (leavesOf freq).length) :
    (nodesOfFreq freq)[i]? = (leavesOf freq)[i]? := by
  have hne : leavesOf freq ≠ [] := List.ne_nil_of_length_pos (by omega)
  obtain ⟨ms, hms⟩ := (leavesOk_leavesOf freq).prefix_treeOf hne
  rw [nodesOfFreq, ← hms, List.getElem?_append_left hi]

theorem leafSymbols_nodesOfFreq (hne : presentSymbols freq ≠ []) :
    leafSymbols (nodesOfFreq freq) (leavesOf freq).length = presentSymbols freq := by
  have hprefix := (leavesOk_leavesOf freq).prefix_treeOf fun h => hne (leavesOf_eq_nil_iff.1 h)
  rw [leafSymbols, nodesOfFreq, ← List.prefix_iff_eq_take.1 hprefix, leavesOf_eq_map_presentSymbols, List.filterMap_map]
  exact List.filterMap_some

/-- The code of a present symbol is the path string of its leaf. -/
theorem pathTo_codesOfFreq {x : Byte} (hx : tblGet freq x ≠ 0) :
    PathTo (nodesOfFreq freq) ((nodesOfFreq freq).length - 1) (tblGet (codesOfFreq freq) x) x := by
  have hmem := mem_presentSymbols.2 hx
  have hne := List.ne_nil_of_mem hmem
  have htree := treeOk_nodesOfFreq hne
  have hroot := root_nodesOfFreq hne
  rw [← leafSymbols_nodesOfFreq hne, ← htree.exists_pathTo_iff hroot] at hmem
  obtain ⟨p, hp⟩ := hmem
  rw [codesOfFreq, htree.tblGet_treeCodes hroot hp]
  exact hp

/-- The code of a present symbol leads down to a leaf with the symbol's frequency. -/
theorem descends_codesOfFreq {x : Byte} (hx : tblGet freq x ≠ 0) :
    ∃ i, i < (leavesOf freq).length ∧ freqAt (nodesOfFreq freq) i = (tblGet freq x).toNat ∧
      Descends (nodesOfFreq freq) ((nodesOfFreq freq).length - 1) (tblGet (codesOfFreq freq) x) i := by
  obtain ⟨i, f, hget, hdesc⟩ := (pathTo_codesOfFreq hx).descends .root
  have hi := (treeOk_nodesOfFreq (List.ne_nil_of_mem (mem_presentSymbols.2 hx))).nodesOk.lt_of_leaf hget
  obtain ⟨y, -, hleaf⟩ := getElem?_leavesOf.1 ((getElem?_nodesOfFreq hi).symm.trans hget)
  cases hleaf
  exact ⟨i, hi, by rw [freqAt_of_getElem? hget, nodeFreq, toNat_setWidth_40], hdesc⟩

/-- Code lengths do not rise with the frequency (R127). -/
theorem length_codesOfFreq_le {a b : Byte} (hlt : (tblGet freq b).toNat < (tblGet freq a).toNat)
    (hb : tblGet freq b ≠ 0) : (tblGet (codesOfFreq freq) a).length ≤ (tblGet (codesOfFreq freq) b).length := by
  have ha : tblGet freq a ≠ 0 := fun h => by simp [h] at hlt
  obtain ⟨i, hi, hfi, hdi⟩ := descends_codesOfFreq hb
  obtain ⟨j, hj, hfj, hdj⟩ := descends_codesOfFreq ha
  have hij : i ≠ j := fun h => by rw [← hfi, ← hfj, h] at hlt; exact Nat.lt_irrefl _ hlt
  exact (greedyNodes_nodesOfFreq (by omega)).depth_le_of_keyLt hdi hdj (keyLt_keyAt_iff.2 (.inl (by omega)))

/-- The root's frequency is at most W, and fits a node (R123, R128). -/
theorem freqAt_rootNode_le (h2 : 2 ≤ (leavesOf freq).length) :
    freqAt (nodesOfFreq freq) ((nodesOfFreq freq).length - 1) ≤ totalFreq freq ∧
      freqAt (nodesOfFreq freq) ((nodesOfFreq freq).length - 1) < 2 ^ 40 := by
  have hne : presentSymbols freq ≠ [] := List.ne_nil_of_length_pos (by rw [← length_leavesOf]; omega)
  obtain ⟨k, hroot, hforest⟩ := (leavesOk_leavesOf freq).greedyForest_treeOf h2
  have hk : k.2 = (nodesOfFreq freq).length - 1 := Option.some.inj (hroot.symm.trans (root_nodesOfFreq hne))
  have hkey : k.1 = freqAt (nodesOfFreq freq) k.2 := hforest.keys k (List.mem_singleton_self k)
  have hle : k.1 ≤ _ := hforest.total_le
  have hlt : k.1 < _ := hforest.total
  rw [hkey, hk] at hle hlt
  exact ⟨hle.trans (sum_sortedKeys_le_totalFreq freq), hlt⟩

/-- The depth bound of R128 in terms of the root's frequency. -/
theorem fib_le_freqAt_rootNode (h2 : 2 ≤ (leavesOf freq).length) {x : Byte} (hx : tblGet freq x ≠ 0) :
    Nat.fib ((tblGet (codesOfFreq freq) x).length + 2) ≤
      freqAt (nodesOfFreq freq) ((nodesOfFreq freq).length - 1) := by
  have hgreedy := greedyNodes_nodesOfFreq h2
  have hleaf : ∀ i, i < (leavesOf freq).length → 0 < freqAt (nodesOfFreq freq) i := by
    intro i hi
    obtain ⟨y, hy, -⟩ := getElem?_leavesOf.1 (List.getElem?_eq_getElem hi)
    have hpos := mem_presentSymbols.1 (List.mem_of_getElem? hy)
    rw [freqAt, getElem?_nodesOfFreq hi, ← freqAt, freqAt_leavesOf hy]
    exact Nat.pos_of_ne_zero fun h => hpos (BitVec.eq_of_toNat_eq h)
  exact (hgreedy.fibBound (fun i => hgreedy.freqAt_pos hleaf) (pathTo_codesOfFreq hx)).1

end

/-- The nodes of a table with one present symbol (R124). -/
theorem treeOf_leavesOf_single {freq : Table Word} {x : Byte} (h : presentSymbols freq = [x]) :
    treeOf (leavesOf freq) =
      ([.leaf x ((tblGet freq x).setWidth 40), .internal ((tblGet freq x).setWidth 40) 0 none], some 1) := by
  rw [leavesOf_eq_map_presentSymbols, h, List.map_singleton, treeOf_singleton, nodeFreq]

/-- One present symbol gets the code "0" (R146). -/
theorem codesOfFreq_single {freq : Table Word} {x : Byte} (h : presentSymbols freq = [x]) :
    tblGet (codesOfFreq freq) x = [false] := by
  have htree := treeOf_leavesOf_single h
  refine (treeOk_nodesOfFreq (by simp [h])).tblGet_treeCodes (r := 1) (by rw [htree]) ?_
  rw [nodesOfFreq, htree]
  exact .left 1 _ 0 none [] x rfl (.here 0 x _ rfl)

/-- A symbol that is not present gets no code (R144). -/
theorem codesOfFreq_absent {freq : Table Word} {x : Byte} (hne : presentSymbols freq ≠ [])
    (hx : x ∉ presentSymbols freq) : tblGet (codesOfFreq freq) x = [] := by
  refine (treeOk_nodesOfFreq hne).tblGet_treeCodes_absent ?_
  rwa [leafSymbols_nodesOfFreq hne]

/-- A length L with Fib(L + 2) below Fib(m + 3) is at most m. -/
theorem le_of_fib_lt {L m : Nat} (h : Nat.fib (L + 2) < Nat.fib (m + 3)) : L ≤ m := by
  by_contra hlt
  exact Nat.not_lt.2 (Nat.fib_mono (by omega : m + 3 ≤ L + 2)) h

/-- Settles O26: the Fibonacci bound at the root, whose frequency is at most W and below 2^40; Fib(48) and Fib(60)
exceed 2^32 and 2^40. -/
theorem fibonacciDepthBound : Obligations.FibonacciDepthBound := by
  intro freq x hx
  change (_ → Nat.fib ((tblGet (codesOfFreq freq) x).length + 2) ≤ _) ∧
    (_ → (tblGet (codesOfFreq freq) x).length = 1) ∧ (_ → (tblGet (codesOfFreq freq) x).length ≤ 45) ∧
    (tblGet (codesOfFreq freq) x).length ≤ 57
  have hone (h1 : (presentSymbols freq).length = 1) : (tblGet (codesOfFreq freq) x).length = 1 := by
    obtain ⟨y, hy⟩ := List.length_eq_one_iff.1 h1
    obtain rfl : x = y := List.mem_singleton.1 (hy ▸ mem_presentSymbols.2 hx)
    rw [codesOfFreq_single hy, List.length_singleton]
  have htwo (h2 : 2 ≤ (presentSymbols freq).length) :
      Nat.fib ((tblGet (codesOfFreq freq) x).length + 2) ≤ totalFreq freq ∧
        Nat.fib ((tblGet (codesOfFreq freq) x).length + 2) < 2 ^ 40 := by
    rw [← length_leavesOf] at h2
    obtain ⟨htotal, hnode⟩ := freqAt_rootNode_le h2
    exact ⟨(fib_le_freqAt_rootNode h2 hx).trans htotal, (fib_le_freqAt_rootNode h2 hx).trans_lt hnode⟩
  have hcases : (presentSymbols freq).length = 1 ∨ 2 ≤ (presentSymbols freq).length := by
    have := List.length_pos_of_mem (mem_presentSymbols.2 hx)
    omega
  have hfib48 : 2 ^ 32 < Nat.fib (45 + 3) := by norm_num
  have hfib60 : 2 ^ 40 < Nat.fib (57 + 3) := by norm_num
  refine ⟨fun h2 => (htwo h2).1, hone, fun hW => ?below32, ?always⟩
  case below32 =>
    rcases hcases with h1 | h2
    · rw [hone h1]; decide
    · exact le_of_fib_lt (((htwo h2).1.trans_lt hW).trans hfib48)
  case always =>
    rcases hcases with h1 | h2
    · rw [hone h1]; decide
    · exact le_of_fib_lt ((htwo h2).2.trans hfib60)

/-! ### GEN_CODES (R140) -/

/-- The state after a successful GEN_CODES. -/
def State.generatedCodes (s : State) : State :=
  { s with
    code := treeCodes s.node s.root
    maxLen := BitVec.ofNat 8 (longestCode (treeCodes s.node s.root)) }.codeFlags.complete

theorem exec_genCodes_completes {s : State} (htv : s.tv = true)
    (hlen : longestCode (treeCodes s.node s.root) ≤ maxCodeLen) : exec .genCodes s = .next s.generatedCodes := by
  obtain ⟨htv', -⟩ | ⟨x, -, hlong, -⟩ | ⟨-, -, h⟩ := genCodesBody_cases s
  · exact absurd (htv.symm.trans htv') (by decide)
  · rw [tooLongSymbol_eq] at hlong
    exact absurd ((longestCode_le_iff _ _).1 hlen x) (Nat.not_le.2 (by simpa using List.find?_some hlong))
  · exact runSingle_completes h

/-- A GEN_CODES that ends without ERR succeeded. -/
theorem eq_generatedCodes_of_exec {s t : State} (h : exec .genCodes s = .next t) (herr : t.err = false) :
    t = s.generatedCodes := by
  obtain ⟨-, hbody⟩ | ⟨x, -, -, hbody⟩ | ⟨-, -, hbody⟩ := genCodesBody_cases s
  · cases (runSingle_raises (i := .genCodes) hbody).symm.trans h
    cases herr
  · cases (runSingle_raises (i := .genCodes) hbody).symm.trans h
    cases herr
  · cases (runSingle_completes (i := .genCodes) hbody).symm.trans h
    rfl

/-- Settles O25: both codes are path strings of the greedy tree, in which the lower key is no less deep. -/
theorem higherFrequencyNoLongerCode : Obligations.HigherFrequencyNoLongerCode := by
  intro s t u hfv _ hbuild _ hgen hu a b hlt hpos
  have hb : tblGet s.freq b ≠ 0 := fun h => by simp [h] at hpos
  have hne := List.ne_nil_of_mem (mem_presentSymbols.2 hb)
  cases (exec_buildTree_completes hfv hne).symm.trans hbuild
  rw [eq_generatedCodes_of_exec hgen hu]
  exact length_codesOfFreq_le hlt hb

/-- Settles O23: the tree of one leaf is `treeOf_leavesOf_single`, its code `codesOfFreq_single`. -/
theorem singleSymbolGetsCodeZero : Obligations.SingleSymbolGetsCodeZero := by
  intro s x hfv hx
  have hne : presentSymbols s.freq ≠ [] := by simp [hx]
  have htree := treeOf_leavesOf_single hx
  have hcode := codesOfFreq_single hx
  have hother (y : Byte) (hy : y ≠ x) : tblGet (codesOfFreq s.freq) y = [] :=
    codesOfFreq_absent hne (by simpa [hx] using hy)
  have hlongest : longestCode (codesOfFreq s.freq) = 1 := by
    refine Nat.le_antisymm ((longestCode_le_iff _ _).2 fun y => ?_) ?_
    · by_cases hy : y = x
      · rw [hy, hcode, List.length_singleton]
      · rw [hother y hy]
        exact Nat.zero_le _
    · have := (longestCode_le_iff _ _).1 (le_refl (longestCode (codesOfFreq s.freq))) x
      rwa [hcode] at this
  refine ⟨_, _, exec_buildTree_completes hfv hne, exec_genCodes_completes rfl (hlongest.trans_le (by decide)),
    congrArg Prod.fst htree, congrArg Prod.snd htree, ?count, ?order, hcode, hother, ?maxLen, rfl⟩
  case count =>
    change BitVec.ofNat 9 (leavesOf s.freq).length = 1
    rw [length_leavesOf, hx]
    rfl
  case order =>
    change orderAt (orderTable (leafOrder (leavesOf s.freq))) 0 = x
    rw [orderAt_orderTable _ _ (by decide), leavesOf_eq_map_presentSymbols, hx]
    rfl
  case maxLen => exact congrArg (BitVec.ofNat 8) hlongest

/-! ### COUNT (R111 to R114) -/

theorem length_inputBytes (s : State) : s.inputBytes.length = s.inLen.toNat := by
  rw [State.inputBytes, List.length_map, List.length_range]

/-- A symbol's occurrences among the input bytes are the offsets that hold it. -/
theorem count_inputBytes (s : State) (x : Byte) :
    s.inputBytes.count x = ((List.range s.inLen.toNat).filter fun i => s.inMem.read i == x).length := by
  rw [State.inputBytes, List.count, List.countP_map, List.countP_eq_length_filter]
  rfl

/-- A count of the input bytes fits a FREQ entry (R112). -/
theorem toNat_countTable (s : State) (x : Byte) :
    (tblGet (countTable s.inputBytes) x).toNat = s.inputBytes.count x := by
  have hle : s.inputBytes.count x ≤ s.inLen.toNat := List.count_le_length.trans_eq (length_inputBytes s)
  rw [countTable, tblGet_tblOf, toNat_ofNat_of_lt (hle.trans_lt s.inLen.isLt)]

theorem countTable_nil : countTable [] = Vector.replicate 256 0 :=
  tbl_ext fun x => by rw [countTable, tblGet_tblOf, tblGet_replicate]; rfl

theorem countBody_completes {s : State} (hcap : s.inLen.toNat ≤ s.cfg.inCap.toNat) :
    countBody s = .completes { s with freq := countTable s.inputBytes }.freqFlags := by
  obtain ⟨hlt, -⟩ | ⟨-, h⟩ := countBody_cases s
  · exact absurd hcap (Nat.not_le.2 hlt)
  · exact h

/-- Settles O21: a count of the input bytes is the number of offsets with that byte, and fits 32 bits. -/
theorem countStoresOccurrences : Obligations.CountStoresOccurrences := by
  refine ⟨fun s hcap => ?success, fun s hlong => ?length⟩
  case success =>
    refine ⟨_, runSingle_completes (countBody_completes hcap), rfl, fun x => ?_⟩
    exact (toNat_countTable s x).trans (count_inputBytes s x)
  case length =>
    obtain ⟨-, h⟩ | ⟨hcap, -⟩ := countBody_cases s
    · exact runSingle_raises h
    · exact absurd hcap (Nat.not_le.2 hlong)

/-! ### The empty input (R113, R115, R170, R193) -/

/-- PACK of an empty input is EMPTY_INPUT (R170). -/
theorem packBody_empty {s : State} (hcv : s.cv = true) (hlen : s.inLen = 0) :
    packBody s = .raises s .emptyInput 0 0 := by
  simp [packBody, hcv, hlen]

theorem presentSymbols_replicate_zero : presentSymbols (Vector.replicate 256 0) = [] :=
  List.eq_nil_iff_forall_not_mem.2 fun x hx => mem_presentSymbols.1 hx (tblGet_replicate 0 x)

/-- Settles O24: an empty input has the empty table, and BUILD_TREE raises on it at its second check. -/
theorem emptyInputErrors : Obligations.EmptyInputErrors := by
  refine ⟨fun s hfv hnil => ?buildTree, fun s hcv hlen => ?pack, fun s hlen => ?encode⟩
  case buildTree => exact runSingle_raises (buildTreeBody_empty hfv hnil)
  case pack => exact runSingle_raises (packBody_empty hcv hlen)
  case encode =>
    have hbytes : s.inputBytes = [] := List.length_eq_zero_iff.1 (by rw [length_inputBytes, hlen]; rfl)
    have hcount := countBody_completes (s := s) (by rw [hlen]; exact Nat.zero_le _)
    rw [hbytes, countTable_nil] at hcount
    have hbuild : buildTreeBody { s with freq := Vector.replicate 256 0 }.freqFlags = .raises _ .emptyInput 0 0 :=
      buildTreeBody_empty (State.freqFlags_fv _) (by rw [State.freqFlags_freq]; exact presentSymbols_replicate_zero)
    exact (runStages_completes hcount _).trans (runStages_raises hbuild _)

end Sys2Proof.Machine

namespace Sys2Proof.Machine

/-! ### The lengths of a code table (R36, R143) -/

/-- The longest length is the length of some symbol's code. -/
theorem exists_length_eq_longestCode (t : Table Code) : ∃ x, (tblGet t x).length = longestCode t := by
  have hle := (longestCode_le_iff t _).1 le_rfl
  by_contra! hne
  have hpred : longestCode t ≤ longestCode t - 1 :=
    (longestCode_le_iff t _).2 fun x => Nat.le_sub_one_of_lt ((hle x).lt_of_ne (hne x))
  have hlt := (hle 0).lt_of_ne (hne 0)
  omega

/-- GEN_CODES finds the smallest of the symbols whose code is longer than 127 bits, when there is one. -/
theorem tooLongSymbol_eq_some_iff {c : Table Code} {x : Byte} :
    tooLongSymbol c = some x ↔
      maxCodeLen < (tblGet c x).length ∧ ∀ y : Byte, y.toNat < x.toNat → (tblGet c y).length ≤ maxCodeLen := by
  rw [tooLongSymbol_eq, List.find?_eq_some_iff_getElem, decide_eq_true_iff]
  refine and_congr_right fun _ => ⟨?smallest, fun hmin => ?found⟩
  case smallest =>
    rintro ⟨i, hi, rfl, hmin⟩ y hy
    have hlen : allSymbols.length = 256 := by simp [allSymbols]
    have hyi : y.toNat < i := by simpa [allSymbols, Nat.mod_eq_of_lt (hlen ▸ hi)] using hy
    simpa [allSymbols] using hmin y.toNat hyi
  case found =>
    refine ⟨x.toNat, by simpa [allSymbols] using x.isLt, by simp [allSymbols], fun j hj => ?_⟩
    have hj' : j < 256 := hj.trans x.isLt
    simpa [allSymbols] using hmin (BitVec.ofNat 8 j) (by simpa [Nat.mod_eq_of_lt hj'] using hj)

/-! ### GEN_CODES (R140 to R147) -/

/-- MAX_LEN after GEN_CODES is the largest code length. -/
theorem State.generatedCodes_maxLen {s : State} (hlen : longestCode (treeCodes s.node s.root) ≤ maxCodeLen) :
    (∀ x, (tblGet s.generatedCodes.code x).length ≤ s.generatedCodes.maxLen.toNat) ∧
      ∃ x, (tblGet s.generatedCodes.code x).length = s.generatedCodes.maxLen.toNat := by
  have hmax : s.generatedCodes.maxLen.toNat = longestCode s.generatedCodes.code := toNat_longestCode hlen
  rw [hmax]
  exact ⟨(longestCode_le_iff _ _).1 le_rfl, exists_length_eq_longestCode _⟩

/-- A GEN_CODES that ends without ERR found no code longer than 127 bits. -/
theorem longestCode_treeCodes_le_of_exec {s t : State} (h : exec .genCodes s = .next t) (herr : t.err = false) :
    longestCode (treeCodes s.node s.root) ≤ maxCodeLen := by
  obtain ⟨-, hbody⟩ | ⟨x, -, -, hbody⟩ | ⟨-, hnone, -⟩ := genCodesBody_cases s
  · cases (runSingle_raises (i := .genCodes) hbody).symm.trans h
    cases herr
  · cases (runSingle_raises (i := .genCodes) hbody).symm.trans h
    cases herr
  · exact longestCode_le_of_tooLongSymbol hnone

section
variable {ns : List Node} {root : Option Nat} {order : Table Byte} {n r : Nat}

/-- The code of a leaf's symbol is the path string of its leaf (R141, R142). -/
theorem TreeOk.pathTo_treeCodes (h : TreeOk ns root order n) (hroot : root = some r) {x : Byte}
    (hx : x ∈ leafSymbols ns n) : PathTo ns r (tblGet (treeCodes ns root) x) x := by
  obtain ⟨p, hp⟩ := (h.exists_pathTo_iff hroot).2 hx
  rwa [h.tblGet_treeCodes hroot hp]

/-- A bound on the paths of a tree bounds its codes. -/
theorem TreeOk.longestCode_treeCodes_le (h : TreeOk ns root order n) (hroot : root = some r) {m : Nat}
    (hpaths : ∀ p x, PathTo ns r p x → p.length ≤ m) : longestCode (treeCodes ns root) ≤ m := by
  refine (longestCode_le_iff _ _).2 fun x => ?_
  by_cases hx : x ∈ leafSymbols ns n
  · exact hpaths _ _ (h.pathTo_treeCodes hroot hx)
  · rw [h.tblGet_treeCodes_absent hx]
    exact Nat.zero_le m

end

/-- Settles O27: the codes of a tree are its path strings, so none is too long and GEN_CODES succeeds. -/
theorem genCodesAssignsPathStrings : Obligations.GenCodesAssignsPathStrings := by
  intro s root htv hroot htree hpaths
  have hlen : longestCode (treeCodes s.node s.root) ≤ maxCodeLen := htree.longestCode_treeCodes_le hroot hpaths
  refine ⟨s.generatedCodes, exec_genCodes_completes htv hlen, rfl, fun x hx => ?leaf,
    fun p x hp => htree.tblGet_treeCodes hroot hp, fun x hx => htree.tblGet_treeCodes_absent hx,
    State.generatedCodes_maxLen hlen⟩
  case leaf =>
    have hpath := htree.pathTo_treeCodes hroot hx
    exact ⟨List.length_pos_iff.2 (htree.pathTo_ne_nil hroot hpath), hpath⟩

/-- Settles O29: the codes of a tree are prefix-free, since nothing goes on below a leaf, and a success bounds them. -/
theorem genCodesPrefixFree : Obligations.GenCodesPrefixFree := by
  intro s t htree _ hexec herr
  have hlen := longestCode_treeCodes_le_of_exec hexec herr
  obtain rfl := eq_generatedCodes_of_exec hexec herr
  obtain ⟨hmax, hlongest⟩ := State.generatedCodes_maxLen hlen
  obtain ⟨-, -, -, -, hprefix⟩ := htree.codeOk_treeCodes
  exact ⟨hprefix, htree.codeOk_treeCodes, fun x => ⟨(longestCode_le_iff _ _).1 hlen x, hmax x⟩, hlongest⟩

/-- Settles O28: the check finds the smallest such symbol, and the error leaves the state as it was. -/
theorem genCodesTooLong : Obligations.GenCodesTooLong := by
  intro s x htv hlong hmin
  have hfound : tooLongSymbol (treeCodes s.node s.root) = some x := tooLongSymbol_eq_some_iff.2 ⟨hlong, hmin⟩
  refine runSingle_raises (e := .codeTooLong) ?_
  obtain ⟨htv', -⟩ | ⟨y, -, hy, hbody⟩ | ⟨-, hnone, -⟩ := genCodesBody_cases s
  · exact absurd (htv.symm.trans htv') (by decide)
  · obtain rfl := Option.some.inj (hfound.symm.trans hy)
    exact hbody
  · cases hfound.symm.trans hnone

end Sys2Proof.Machine

namespace Sys2Proof.Machine

/-! ### Bytes at an offset of a memory, and the fields read from them (R72, R77, R98) -/

theorem Memory.holds_cons {m : Memory} {a : Nat} {b : Byte} {bs : List Byte} :
    m.holds a (b :: bs) ↔ m.read a = b ∧ m.holds (a + 1) bs := by
  constructor
  · intro h
    refine ⟨h 0 (Nat.succ_pos _), fun i hi => ?_⟩
    rw [Nat.add_right_comm]
    exact h (i + 1) (Nat.succ_lt_succ hi)
  · rintro ⟨hhead, htail⟩ i hi
    cases i with
    | zero => exact hhead
    | succ i =>
      have hread := htail i (Nat.lt_of_succ_lt_succ hi)
      rwa [Nat.add_right_comm] at hread

theorem Memory.holds_append {m : Memory} {a : Nat} {bs cs : List Byte} :
    m.holds a (bs ++ cs) ↔ m.holds a bs ∧ m.holds (a + bs.length) cs := by
  induction bs generalizing a with
  | nil => exact (and_iff_right fun i hi => absurd hi (Nat.not_lt_zero i)).symm
  | cons b bs ih =>
    rw [List.cons_append, Memory.holds_cons, Memory.holds_cons, ih, List.length_cons, and_assoc, Nat.add_assoc,
      Nat.add_comm 1]

/-- Digit `j` of the number that `n` bytes write, most significant first (R98). -/
theorem foldl_bytes_digit (b : Nat → Byte) {n j : Nat} (hj : j < n) :
    (List.range n).foldl (fun v j => 256 * v + (b j).toNat) 0 / 256 ^ (n - 1 - j) % 256 = (b j).toNat := by
  induction n with
  | zero => cases hj
  | succ n ih =>
    have hbyte := (b n).isLt
    rw [List.range_succ, List.foldl_append, List.foldl_cons, List.foldl_nil]
    obtain rfl | hlt := Nat.eq_or_lt_of_le (Nat.lt_succ_iff.1 hj)
    · rw [show j + 1 - 1 - j = 0 by omega, Nat.pow_zero, Nat.div_one]
      omega
    · rw [show n + 1 - 1 - j = n - 1 - j + 1 by omega, Nat.pow_succ', ← Nat.div_div_eq_div_mul,
        Nat.mul_add_div (by decide), Nat.div_eq_of_lt hbyte, Nat.add_zero, ih hlt]

theorem foldl_bytes_lt (b : Nat → Byte) (n : Nat) :
    (List.range n).foldl (fun v j => 256 * v + (b j).toNat) 0 < 256 ^ n := by
  induction n with
  | zero => simp
  | succ n ih =>
    have hbyte := (b n).isLt
    rw [List.range_succ, List.foldl_append, List.foldl_cons, List.foldl_nil, Nat.pow_succ]
    omega

/-- The bytes of a field read from memory are the bytes read (R77, R98). -/
theorem fieldByte_fieldFrom (rd : Nat → Byte) (a : Nat) {j : Nat} (hj : j < 16) :
    fieldByte (fieldFrom rd a) j = rd (a + j) := by
  apply BitVec.eq_of_toNat_eq
  have hpow : 2 ^ (120 - 8 * j) = 256 ^ (16 - 1 - j) := by
    rw [show 120 - 8 * j = 8 * (16 - 1 - j) by omega, Nat.pow_mul]
  have hlt := foldl_bytes_lt (fun j => rd (a + j)) 16
  rw [fieldByte, BitVec.extractLsb'_toNat, Nat.shiftRight_eq_div_pow, fieldFrom, fieldByteCount,
    toNat_ofNat_of_lt hlt, hpow]
  exact foldl_bytes_digit (fun j => rd (a + j)) hj

/-- A field is its 16 bytes (R77). -/
theorem field_ext {F G : Field} (h : ∀ j, j < 16 → fieldByte F j = fieldByte G j) : F = G := by
  refine BitVec.eq_of_getMsbD_eq fun i hi => ?_
  rw [← Nat.div_add_mod i 8, ← getMsbD_fieldByte F (by omega) (Nat.mod_lt _ (by decide)), h _ (by omega),
    getMsbD_fieldByte G (by omega) (Nat.mod_lt _ (by decide))]

theorem Memory.holds_fieldBytes {m : Memory} {a : Nat} {F : Field} :
    m.holds a (fieldBytes F) ↔ fieldFrom m.read a = F := by
  rw [Memory.holds, length_fieldBytes]
  constructor
  · intro h
    refine field_ext fun j hj => ?_
    rw [fieldByte_fieldFrom m.read a hj, h j hj, getD_fieldBytes F hj]
  · rintro rfl j hj
    rw [getD_fieldBytes _ hj, fieldByte_fieldFrom m.read a hj]

/-- A record stands in memory when its symbol and its field are read there (R94). -/
theorem Memory.holds_recordBytes {m : Memory} {a : Nat} {x : Byte} {c : Code} :
    m.holds a (recordBytes x c) ↔ m.read a = x ∧ fieldFrom m.read (a + 1) = fieldOf c := by
  rw [recordBytes, Memory.holds_cons, Memory.holds_fieldBytes]

/-! ### The record loop of READ_HEADER (R155 to R160) -/

/-- The bytes of header records, without the count byte (R94). -/
def recordsBytes (rs : List (Byte × Code)) : List Byte := rs.flatMap fun r => recordBytes r.1 r.2

theorem serialize_eq (rs : List (Byte × Code)) : serialize rs = countByte rs.length :: recordsBytes rs := rfl

theorem recordsBytes_cons (r : Byte × Code) (rs : List (Byte × Code)) :
    recordsBytes (r :: rs) = recordBytes r.1 r.2 ++ recordsBytes rs := rfl

theorem length_recordsBytes (rs : List (Byte × Code)) : (recordsBytes rs).length = 17 * rs.length := by
  simp [recordsBytes, List.length_flatMap, length_recordBytes, recordByteCount, Nat.mul_comm]

theorem length_serialize (rs : List (Byte × Code)) : (serialize rs).length = headerLen rs.length := by
  rw [serialize_eq, List.length_cons, length_recordsBytes, headerLen, recordByteCount, Nat.add_comm]

/-- Record `k` of a header, and the records after it (R94). -/
theorem Memory.holds_recordsBytes_cons {m : Memory} {k : Nat} {x : Byte} {c : Code} {rs : List (Byte × Code)} :
    m.holds (1 + recordByteCount * k) (recordsBytes ((x, c) :: rs)) ↔
      m.holds (1 + recordByteCount * k) (recordBytes x c) ∧
        m.holds (1 + recordByteCount * (k + 1)) (recordsBytes rs) := by
  rw [recordsBytes_cons, Memory.holds_append, length_recordBytes, Nat.mul_succ, Nat.add_assoc]

theorem prefixClash_eq_false_iff {c d : Code} : prefixClash c d = false ↔ ¬ c <+: d ∧ ¬ d <+: c := by
  rw [prefixClash, Bool.or_eq_false_iff, ← Bool.not_eq_true, ← Bool.not_eq_true, List.isPrefixOf_iff_prefix,
    List.isPrefixOf_iff_prefix]

section
variable {m : Memory} {n k : Nat} {acc : List (Byte × Code)} {x : Byte}

/-- What an acceptable record after acceptable records must meet (R158 to R160). -/
theorem RecordsOk.record {c : Code} {rs : List (Byte × Code)} (h : RecordsOk (acc ++ (x, c) :: rs)) :
    c ≠ [] ∧ c.length ≤ maxCodeLen ∧ x ∉ acc.map Prod.fst ∧ ∀ r ∈ acc, prefixClash r.2 c = false := by
  obtain ⟨hnodup, hlens, hpair⟩ := h
  obtain ⟨hpos, hle⟩ := hlens (x, c) (List.mem_append_cons_self)
  obtain ⟨-, -, hclash⟩ := List.pairwise_append.1 hpair
  refine ⟨List.length_pos_iff.1 hpos, hle, fun hx => ?_, fun r hr => hclash r hr (x, c) List.mem_cons_self⟩
  rw [List.map_append, List.map_cons] at hnodup
  exact List.disjoint_of_nodup_append hnodup hx List.mem_cons_self

/-- The record loop goes on after an acceptable record. -/
theorem readRecords_cons {c : Code} {rs : List (Byte × Code)} (hok : RecordsOk (acc ++ (x, c) :: rs))
    (hrec : m.holds (1 + recordByteCount * k) (recordBytes x c)) :
    readRecords m.read (n + 1) k acc = readRecords m.read n (k + 1) (acc ++ [(x, c)]) := by
  obtain ⟨hne, hlen, hx, hclash⟩ := hok.record
  obtain ⟨hsym, hfield⟩ := Memory.holds_recordBytes.1 hrec
  have hstop := getLsbD_fieldOf_stop hne hlen
  have hzero : fieldOf c ≠ 0 := fun h => by simp [h] at hstop
  have hsyms : ¬ (acc.any fun r => r.1 == x) = true := by simpa using hx
  have hcodes : ¬ (acc.any fun r => prefixClash r.2 c) = true := by simpa using hclash
  simp only [readRecords, hsym, hfield, codeOfField_fieldOf hne hlen]
  rw [if_neg hzero, if_neg hne, if_neg hsyms, if_neg hcodes]

/-- The record loop reads through acceptable records. -/
theorem readRecords_append {rs : List (Byte × Code)} (hok : RecordsOk (acc ++ rs))
    (hrecs : m.holds (1 + recordByteCount * k) (recordsBytes rs)) :
    readRecords m.read (rs.length + n) k acc = readRecords m.read n (k + rs.length) (acc ++ rs) := by
  induction rs generalizing k acc with
  | nil => rw [List.length_nil, Nat.zero_add, List.append_nil, Nat.add_zero]
  | cons r rs ih =>
    obtain ⟨hrec, hrest⟩ := Memory.holds_recordsBytes_cons.1 hrecs
    rw [List.length_cons, Nat.add_right_comm, readRecords_cons hok hrec]
    rw [List.append_cons acc r rs] at hok ⊢
    rw [ih hok hrest, Nat.add_right_comm, Nat.add_assoc]

/-- The records the loop adds stand in memory: an accepted field is the field of the code read from it (R98). -/
theorem holds_of_readRecords {rs : List (Byte × Code)} (h : readRecords m.read n k acc = .ok rs) :
    ∃ new, rs = acc ++ new ∧ m.holds (1 + recordByteCount * k) (recordsBytes new) := by
  induction n generalizing k acc with
  | zero => cases h; exact ⟨[], (List.append_nil _).symm, fun i hi => absurd hi (Nat.not_lt_zero i)⟩
  | succ n ih =>
    simp only [readRecords] at h
    split at h
    · cases h
    split at h
    · cases h
    split at h
    · cases h
    split at h
    · cases h
    next hF hne hsym hclash =>
    obtain ⟨new, rfl, hnew⟩ := ih h
    have hone : fieldFrom m.read (1 + recordByteCount * k + 1) ≠ 1 := fun h1 => hne (by rw [h1]; rfl)
    exact ⟨_, (List.append_cons ..).symm, Memory.holds_recordsBytes_cons.2
      ⟨Memory.holds_recordBytes.2 ⟨rfl, (fieldOf_codeOfField hF hone).symm⟩, hnew⟩⟩

/-- The checks of one record, in their order (R157 to R160). -/
theorem readRecords_badRecord {F : Field} (hrec : m.holds (1 + recordByteCount * k) (x :: fieldBytes F)) :
    (F = 0 → readRecords m.read (n + 1) k acc = .error (1, 1 + recordByteCount * k)) ∧
    (F = 1 → readRecords m.read (n + 1) k acc = .error (2, 1 + recordByteCount * k)) ∧
    (1 < F.toNat → x ∈ acc.map Prod.fst →
      readRecords m.read (n + 1) k acc = .error (3, 1 + recordByteCount * k)) ∧
    (1 < F.toNat → x ∉ acc.map Prod.fst → (∃ r ∈ acc, r.2 <+: codeOfField F ∨ codeOfField F <+: r.2) →
      readRecords m.read (n + 1) k acc = .error (4, 1 + recordByteCount * k)) := by
  obtain ⟨hsym, hfield⟩ := Memory.holds_cons.1 hrec
  rw [Memory.holds_fieldBytes] at hfield
  have hcode (hF : 1 < F.toNat) : F ≠ 0 ∧ codeOfField F ≠ [] := by
    refine ⟨fun h => by simp [h] at hF, fun h => ?_⟩
    have hlog := length_codeOfField F
    rw [h, List.length_nil, eq_comm, Nat.log2_eq_iff (by omega)] at hlog
    omega
  have hsyms : (acc.any fun r => r.1 == x) = true ↔ x ∈ acc.map Prod.fst := by simp
  have hcodes : (acc.any fun r => prefixClash r.2 (codeOfField F)) = true ↔
      ∃ r ∈ acc, r.2 <+: codeOfField F ∨ codeOfField F <+: r.2 := by simp [prefixClash]
  simp only [readRecords, hsym, hfield]
  refine ⟨fun h0 => if_pos h0, fun h1 => ?noCode, fun hF hx => ?sameSymbol, fun hF hx hclash => ?clash⟩
  case noCode => subst h1; rfl
  case sameSymbol =>
    obtain ⟨h0, hne⟩ := hcode hF
    rw [if_neg h0, if_neg hne, if_pos (hsyms.2 hx)]
  case clash =>
    obtain ⟨h0, hne⟩ := hcode hF
    rw [if_neg h0, if_neg hne, if_neg (mt hsyms.1 hx), if_pos (hcodes.2 hclash)]

end

end Sys2Proof.Machine

namespace Sys2Proof.Machine

/-! ### READ_HEADER (R155 to R164) -/

/-- The truncation checks of READ_HEADER (R156). -/
theorem readHeaderBody_truncated {s : State} (hcap : s.inLen.toNat ≤ s.cfg.inCap.toNat) :
    (s.inLen.toNat < 1 → readHeaderBody s = .raises s .truncatedInput 1 0) ∧
    (1 ≤ s.inLen.toNat → s.inLen.toNat < headerLen (countOf (s.inMem.read 0)) →
      readHeaderBody s = .raises s .truncatedInput 2 s.inLen) := by
  rw [readHeaderBody, if_neg (Nat.not_lt.2 hcap)]
  exact ⟨fun h0 => if_pos h0, fun h1 hlt => (if_neg (Nat.not_lt.2 h1)).trans (if_pos hlt)⟩

/-- Settles O33: the two truncation checks come before the record loop. -/
theorem readHeaderTruncated : Obligations.ReadHeaderTruncated := by
  intro s hcap
  obtain ⟨hempty, hshort⟩ := readHeaderBody_truncated hcap
  exact ⟨fun h0 => runSingle_raises (hempty (by rw [h0]; decide)),
    fun hpos hlt => runSingle_raises (hshort hpos hlt)⟩

/-- The state after a successful READ_HEADER of the given records (R162). -/
def State.headerRead (s : State) (rs : List (Byte × Code)) : State :=
  { s with
    code := codeTableOf rs
    order := orderTable (rs.map Prod.fst)
    nSym := BitVec.ofNat 9 rs.length
    hdrLen := BitVec.ofNat 32 (headerLen rs.length)
    maxLen := BitVec.ofNat 8 (longestCode (codeTableOf rs)) }.headerFlags.complete

section
variable (s : State) (rs : List (Byte × Code))

@[simp] theorem State.headerRead_code : (s.headerRead rs).code = codeTableOf rs := rfl
@[simp] theorem State.headerRead_order : (s.headerRead rs).order = orderTable (rs.map Prod.fst) := rfl
@[simp] theorem State.headerRead_nSym : (s.headerRead rs).nSym = BitVec.ofNat 9 rs.length := rfl
@[simp] theorem State.headerRead_hdrLen : (s.headerRead rs).hdrLen = BitVec.ofNat 32 (headerLen rs.length) := rfl
@[simp] theorem State.headerRead_maxLen :
    (s.headerRead rs).maxLen = BitVec.ofNat 8 (longestCode (codeTableOf rs)) := rfl

end

section
variable {s : State} {rs : List (Byte × Code)}

/-- On an input that is long enough READ_HEADER ends as its record loop does. -/
theorem readHeaderBody_badRecord {sub : Byte} {a : Nat} (hcap : s.inLen.toNat ≤ s.cfg.inCap.toNat)
    (hlen : headerLen (countOf (s.inByte 0)) ≤ s.inLen.toNat)
    (hrecs : readRecords s.inByte (countOf (s.inByte 0)) 0 [] = .error (sub, a)) :
    readHeaderBody s = .raises s .malformedHeader sub (BitVec.ofNat 32 a) := by
  have hpos : 1 ≤ s.inLen.toNat := (Nat.le_add_right ..).trans hlen
  rw [readHeaderBody, if_neg (Nat.not_lt.2 hcap), if_neg (Nat.not_lt.2 hpos)]
  simp only [hrecs]
  exact if_neg (Nat.not_lt.2 hlen)

theorem exec_readHeader_of_readRecords (hcap : s.inLen.toNat ≤ s.cfg.inCap.toNat)
    (hcount : countOf (s.inByte 0) = rs.length) (hlen : headerLen rs.length ≤ s.inLen.toNat)
    (hrecs : readRecords s.inByte rs.length 0 [] = .ok rs) : exec .readHeader s = .next (s.headerRead rs) := by
  have hpos : 1 ≤ s.inLen.toNat := (Nat.le_add_right ..).trans hlen
  refine runSingle_completes ?_
  rw [readHeaderBody, if_neg (Nat.not_lt.2 hcap), if_neg (Nat.not_lt.2 hpos)]
  simp only [hcount, hrecs]
  exact if_neg (Nat.not_lt.2 hlen)

/-- READ_HEADER of acceptable records (R155, R162). -/
theorem exec_readHeader_records (h1 : 1 ≤ rs.length) (h256 : rs.length ≤ 256) (hok : RecordsOk rs)
    (hcap : s.inLen.toNat ≤ s.cfg.inCap.toNat) (hlen : headerLen rs.length ≤ s.inLen.toNat)
    (hbytes : s.inMem.holds 0 (serialize rs)) : exec .readHeader s = .next (s.headerRead rs) := by
  obtain ⟨hcount, hrecs⟩ := Memory.holds_cons.1 hbytes
  have hcount : countOf (s.inByte 0) = rs.length := by rw [State.inByte, hcount, countOf_countByte h1 h256]
  exact exec_readHeader_of_readRecords hcap hcount hlen
    (readRecords_append (n := 0) (k := 0) (acc := []) hok hrecs)

/-- A READ_HEADER that ends without ERR read acceptable records, whose header its input begins with. -/
theorem exists_records_of_exec_readHeader {t : State} (h : exec .readHeader s = .next t) (herr : t.err = false) :
    ∃ rs, RecordsOk rs ∧ 1 ≤ rs.length ∧ rs.length ≤ 256 ∧ s.inMem.holds 0 (serialize rs) ∧ t = s.headerRead rs := by
  obtain ⟨e, sub, a, hbody, -⟩ | ⟨rs, -, -, hread, hbody⟩ := readHeaderBody_cases s
  · cases (runSingle_raises (i := .readHeader) hbody).symm.trans h
    cases herr
  · obtain ⟨hok, hlen⟩ := readRecords_ok hread recordsOk_nil
    obtain ⟨h1, h256⟩ := countOf_le (s.inByte 0)
    obtain ⟨new, hnew, hrecs⟩ := holds_of_readRecords (m := s.inMem) hread
    rw [List.length_nil, Nat.zero_add] at hlen
    rw [List.nil_append] at hnew
    subst hnew
    rw [← hlen] at h1 h256 hbody
    refine ⟨rs, hok, h1, h256, Memory.holds_cons.2 ⟨?_, hrecs⟩, ?_⟩
    · rw [hlen, countByte_countOf]
      rfl
    · cases (runSingle_completes (i := .readHeader) hbody).symm.trans h
      rfl

/-- The longest code of a table of records is the code of a record. -/
theorem exists_record_longestCode (h1 : 1 ≤ rs.length) (hok : RecordsOk rs) :
    ∃ r ∈ rs, r.2.length = longestCode (codeTableOf rs) := by
  obtain ⟨hnodup, hlens, -⟩ := hok
  obtain ⟨x, hx⟩ := exists_length_eq_longestCode (codeTableOf rs)
  by_cases hmem : x ∈ rs.map Prod.fst
  · obtain ⟨r, hr, rfl⟩ := List.mem_map.1 hmem
    exact ⟨r, hr, by rw [← hx, codeTableOf_present rs hnodup r hr]⟩
  · obtain ⟨r, hr⟩ := List.exists_mem_of_length_pos h1
    have hle := (longestCode_le_iff (codeTableOf rs) _).1 le_rfl r.1
    rw [codeTableOf_present rs hnodup r hr, ← hx, codeTableOf_absent rs x hmem] at hle
    exact absurd (hlens r hr).1 (Nat.not_lt.2 hle)

end

/-- Settles O32: the record loop reads the records, and the tables are made of them. -/
theorem readHeaderReadsRecords : Obligations.ReadHeaderReadsRecords := by
  intro s rs h1 h256 hok hcap hlen hbytes
  have ⟨hnodup, _, _⟩ := hok
  have hmax : (s.headerRead rs).maxLen.toNat = longestCode (codeTableOf rs) :=
    toNat_longestCode (longestCode_codeTableOf_le hok)
  have horder := orderList_orderTable (rs.map Prod.fst) (by simpa using h256)
  rw [List.length_map] at horder
  refine ⟨s.headerRead rs, exec_readHeader_records h1 h256 hok hcap hlen hbytes, rfl, codeTableOf_present rs hnodup,
    codeTableOf_absent rs, horder, orderAt_orderTable_past (by simp), toNat_nSym h256, toNat_hdrLen (by omega),
    fun r hr => ?longest, hmax ▸ exists_record_longestCode h1 hok⟩
  case longest =>
    rw [hmax, ← codeTableOf_present rs hnodup r hr]
    exact (longestCode_le_iff _ _).1 le_rfl r.1

/-- Settles O34: the record loop reads through the good records and ends at the bad one. -/
theorem readHeaderBadRecord : Obligations.ReadHeaderBadRecord := by
  intro s rs x F hcap hcount hlen hok hgood hbad
  have hread := readRecords_append (m := s.inMem) (n := countOf (s.inMem.read 0) - rs.length - 1 + 1) (k := 0)
    (acc := []) hok hgood
  rw [List.nil_append, Nat.zero_add, show rs.length + (countOf (s.inMem.read 0) - rs.length - 1 + 1) =
    countOf (s.inMem.read 0) by omega] at hread
  have hexec {sub : Byte} (h : readRecords s.inMem.read (countOf (s.inMem.read 0) - rs.length - 1 + 1) rs.length rs =
      .error (sub, 1 + 17 * rs.length)) :
      exec .readHeader s = .next (failed s 2 sub 0x20 (BitVec.ofNat 32 (1 + 17 * rs.length))) :=
    runSingle_raises (readHeaderBody_badRecord hcap hlen (hread.trans h))
  obtain ⟨hzero, hone, hsame, hclash⟩ := readRecords_badRecord (acc := rs) hbad
  exact ⟨fun h => hexec (hzero h), fun h => hexec (hone h), fun hF hx => hexec (hsame hF hx),
    fun hF hx hc => hexec (hclash hF hx hc)⟩

/-! ### Header records of a code table (R55, R153, R154) -/

/-- The records of a code table in ORDER (R94). -/
def tableRecords (n : Nat) (order : Table Byte) (code : Table Code) : List (Byte × Code) :=
  (orderList order n).map fun x => (x, tblGet code x)

@[simp] theorem length_tableRecords (n : Nat) (order : Table Byte) (code : Table Code) :
    (tableRecords n order code).length = n := by simp [tableRecords, orderList]

theorem map_fst_tableRecords (n : Nat) (order : Table Byte) (code : Table Code) :
    (tableRecords n order code).map Prod.fst = orderList order n := by
  rw [tableRecords, List.map_map]
  exact List.map_id _

/-- WRITE_HEADER writes the header of the table's records (R150). -/
theorem headerBytes_eq_serialize (n : Nat) (order : Table Byte) (code : Table Code) :
    headerBytes n order code = serialize (tableRecords n order code) := by
  rw [serialize, length_tableRecords, tableRecords, orderList, List.flatMap_map, List.flatMap_map, headerBytes]

/-- Any table whose entries past `n` are 0 is written from its first `n` entries (R41). -/
theorem orderTable_orderList {order : Table Byte} {n : Nat} (hzero : ∀ k, k < 256 → n ≤ k → orderAt order k = 0) :
    orderTable (orderList order n) = order := by
  refine tbl_ext fun x => ?_
  have hx : orderAt order x.toNat = tblGet order x := by
    rw [orderAt, List.getD_eq_getElem _ _ (by simpa using x.isLt), getElem_toList_table, BitVec.ofNat_toNat,
      BitVec.setWidth_eq]
  rw [orderTable, tblGet_tblOf, ← hx]
  by_cases hk : x.toNat < n
  · rw [List.getD_eq_getElem _ _ (by simpa [orderList] using hk)]
    simp [orderList]
  · rw [List.getD_eq_default _ _ (by simpa [orderList] using hk), hzero _ x.isLt (Nat.le_of_not_lt hk)]

section
variable {code : Table Code} {order : Table Byte} {n : Nat}

/-- The records of a valid code table are acceptable (R55, R155). -/
theorem CodeOk.recordsOk (h : CodeOk code order n) (hlen : longestCode code ≤ maxCodeLen) :
    RecordsOk (tableRecords n order code) := by
  obtain ⟨-, -, hnodup, hcoded, hpf⟩ := h
  refine ⟨by rwa [map_fst_tableRecords], ?_, ?_⟩
  · rw [tableRecords, List.forall_mem_map]
    exact fun x hx => ⟨List.length_pos_iff.2 ((hcoded x).2 hx), (longestCode_le_iff _ _).1 hlen x⟩
  · rw [tableRecords, List.pairwise_map]
    refine hnodup.imp_of_mem fun {x y} hx hy hne => ?_
    have hx := (hcoded x).2 hx
    have hy := (hcoded y).2 hy
    exact prefixClash_eq_false_iff.2 ⟨hpf x y hne hx hy, hpf y x hne.symm hy hx⟩

/-- The records of a valid code table make that table (R55, R162). -/
theorem CodeOk.codeTableOf_tableRecords (h : CodeOk code order n) : codeTableOf (tableRecords n order code) = code := by
  obtain ⟨-, -, hnodup, hcoded, -⟩ := h
  rw [← map_fst_tableRecords n order code] at hnodup hcoded
  refine tbl_ext fun x => ?_
  by_cases hx : x ∈ (tableRecords n order code).map Prod.fst
  · have hmem : (x, tblGet code x) ∈ tableRecords n order code :=
      List.mem_map_of_mem (f := fun x => (x, tblGet code x)) (by rwa [map_fst_tableRecords] at hx)
    exact codeTableOf_present _ hnodup _ hmem
  · rw [codeTableOf_absent _ _ hx, eq_comm, ← not_not (a := tblGet code x = []), ← ne_eq, hcoded]
    exact hx

end

/-- The tables READ_HEADER makes hold the records it read (R162). -/
theorem tableRecords_codeTableOf {rs : List (Byte × Code)} (hnodup : (rs.map Prod.fst).Nodup) (h256 : rs.length ≤ 256) :
    tableRecords rs.length (orderTable (rs.map Prod.fst)) (codeTableOf rs) = rs := by
  have horder := orderList_orderTable (rs.map Prod.fst) (by simpa using h256)
  rw [List.length_map] at horder
  rw [tableRecords, horder, List.map_map]
  refine (List.map_congr_left fun r hr => ?_).trans (List.map_id rs)
  exact Prod.ext rfl (codeTableOf_present rs hnodup r hr)

end Sys2Proof.Machine

namespace Sys2Proof.Machine

/-! ### WRITE_HEADER and READ_HEADER one after the other (R153, R154) -/

/-- The state after a successful WRITE_HEADER (R150, R152). -/
def State.headerWritten (s : State) : State :=
  { s with
    outMem := s.outMem.writeBytes 0 (headerBytes s.nSym.toNat s.order s.code)
    outLen := BitVec.ofNat 32 (headerLen s.nSym.toNat)
    hdrLen := BitVec.ofNat 32 (headerLen s.nSym.toNat) }.complete

@[simp] theorem State.headerWritten_outLen (s : State) :
    s.headerWritten.outLen = BitVec.ofNat 32 (headerLen s.nSym.toNat) := rfl

@[simp] theorem State.headerWritten_hdrLen (s : State) :
    s.headerWritten.hdrLen = BitVec.ofNat 32 (headerLen s.nSym.toNat) := rfl

theorem exec_writeHeader_completes {s : State} (hcv : s.cv = true)
    (hfit : headerLen s.nSym.toNat ≤ s.cfg.outCap.toNat) : exec .writeHeader s = .next s.headerWritten :=
  runSingle_completes (writeHeaderBody_completes hcv hfit)

/-- A WRITE_HEADER that ends without ERR succeeded. -/
theorem eq_headerWritten_of_exec {s t : State} (h : exec .writeHeader s = .next t) (herr : t.err = false) :
    t = s.headerWritten := by
  obtain ⟨-, hbody⟩ | ⟨-, -, hbody⟩ | ⟨-, -, hbody⟩ := writeHeaderBody_cases s
  · cases (runSingle_raises (i := .writeHeader) hbody).symm.trans h
    cases herr
  · cases (runSingle_raises (i := .writeHeader) hbody).symm.trans h
    cases herr
  · cases (runSingle_completes (i := .writeHeader) hbody).symm.trans h
    rfl

/-- OUT_MEM after WRITE_HEADER begins with the header of the table's records. -/
theorem State.headerWritten_holds (s : State) :
    s.headerWritten.outMem.holds 0 (serialize (tableRecords s.nSym.toNat s.order s.code)) := by
  rw [← headerBytes_eq_serialize]
  exact fun i hi => s.outMem.read_writeBytes_inside 0 i _ hi

/-- Two memories that hold the same bytes at an offset read the same there. -/
theorem Memory.read_eq_of_holds {m k : Memory} {bs : List Byte} (hm : m.holds 0 bs) (hk : k.holds 0 bs) {a : Nat}
    (ha : a < bs.length) : m.read a = k.read a := by
  have h := (hm a ha).trans (hk a ha).symm
  rwa [Nat.zero_add] at h

theorem Memory.holds_congr {m k : Memory} {bs : List Byte} (h : ∀ a, a < bs.length → m.read a = k.read a)
    (hk : k.holds 0 bs) : m.holds 0 bs := by
  intro i hi
  rw [← hk i hi, Nat.zero_add, h i hi]

/-- Settles O35: the bytes written are the header of the table's records, which READ_HEADER reads back into the same
table. -/
theorem headerRoundTrip : Obligations.HeaderRoundTrip := by
  intro s t u hcv hcode hregs _ hwrite ht hcap hlen hsame
  obtain rfl := eq_headerWritten_of_exec hwrite ht
  obtain ⟨hn, hzero, hlong, hmax, -⟩ := hregs
  have ⟨h1, h256, _⟩ := hcode
  have hhdr : s.headerWritten.hdrLen.toNat = headerLen s.nSym.toNat := toNat_hdrLen (by omega)
  rw [hhdr] at hlen hsame
  have hbytes : u.inMem.holds 0 (serialize (tableRecords s.nSym.toNat s.order s.code)) :=
    Memory.holds_congr (by rwa [length_serialize, length_tableRecords]) (State.headerWritten_holds s)
  have hread := exec_readHeader_records (by rwa [length_tableRecords]) (by rwa [length_tableRecords])
    (hcode.recordsOk hlong) hcap (by rwa [length_tableRecords]) hbytes
  refine ⟨_, hread, rfl, rfl, rfl, hcode.codeTableOf_tableRecords, ?orderTable, ?nSym, ?maxLen, ?hdrLen⟩
  case orderTable => rw [State.headerRead_order, map_fst_tableRecords, orderTable_orderList hzero]
  case nSym => rw [State.headerRead_nSym, length_tableRecords, BitVec.ofNat_toNat, BitVec.setWidth_eq]
  case maxLen =>
    rw [State.headerRead_maxLen, hcode.codeTableOf_tableRecords, ← hmax, BitVec.ofNat_toNat, BitVec.setWidth_eq]
  case hdrLen => rw [State.headerRead_hdrLen, length_tableRecords, State.headerWritten_hdrLen]

/-- Settles O36: the header read is the header of the records, and these are the records of the table READ_HEADER
made. -/
theorem rewrittenHeaderIsTheHeaderRead : Obligations.RewrittenHeaderIsTheHeaderRead := by
  intro u v _ hread hv hfit
  obtain ⟨rs, hok, h1, h256, hbytes, rfl⟩ := exists_records_of_exec_readHeader hread hv
  have ⟨hnodup, _, _⟩ := hok
  have hn : (u.headerRead rs).nSym.toNat = rs.length := toNat_nSym h256
  have hhdr : (u.headerRead rs).hdrLen.toNat = headerLen rs.length := toNat_hdrLen (by omega)
  have hwritten := State.headerWritten_holds (u.headerRead rs)
  rw [hn, State.headerRead_order, State.headerRead_code, tableRecords_codeTableOf hnodup h256] at hwritten
  rw [hhdr] at hfit ⊢
  refine ⟨_, exec_writeHeader_completes rfl (hn ▸ hfit), hv, ?outLen, fun a ha => ?bytes⟩
  case outLen => rw [State.headerWritten_outLen, hn, State.headerRead_hdrLen]
  case bytes => exact Memory.read_eq_of_holds hwritten hbytes (by rwa [length_serialize])

/-! ### Output that does not fit (R151, R172) -/

theorem packBody_overflow {s : State} {bits : List Bool} (hcv : s.cv = true) (hpos : 1 ≤ s.inLen.toNat)
    (hcap : s.inLen.toNat ≤ s.cfg.inCap.toNat) (hbits : gatherBits s.code 0 s.inputBytes = .ok bits)
    (hover : s.cfg.outCap.toNat < s.outLen.toNat + payloadLen bits + 1) :
    packBody s = .raises s .outOverflow 0 0 := by
  rw [packBody, if_neg (by simp [hcv]), if_neg (by omega), if_neg (by omega), hbits]
  exact if_pos hover

theorem writeHeaderBody_overflow {s : State} (hcv : s.cv = true)
    (hover : s.cfg.outCap.toNat < headerLen s.nSym.toNat) : writeHeaderBody s = .raises s .outOverflow 0 0 := by
  rw [writeHeaderBody, if_neg (by simp [hcv]), if_pos hover]

/-- Settles O31: both commands know the whole length before they write. -/
theorem outputThatDoesNotFit : Obligations.OutputThatDoesNotFit := by
  refine ⟨fun s hcv hover => runSingle_raises (writeHeaderBody_overflow hcv hover),
    fun s hcv hpos hcap hcoded hover => runSingle_raises (packBody_overflow hcv hpos hcap (gatherBits_ok ?_ 0) hover)⟩
  intro x hx
  obtain ⟨i, hi, rfl⟩ := mem_inputBytes.1 hx
  exact hcoded i hi

/-! ### Failing sub-commands (R164, R176, R186, R216) -/

/-- A completion of the body keeps ERR, and an error of it leaves a state related to the old one by `left`. -/
def ErrorsLeave (left : State → State → Prop) (body : State → BodyResult) : Prop :=
  ∀ s, (∃ u, body s = .completes u ∧ u.err = s.err) ∨ ∃ u e sub a, body s = .raises u e sub a ∧ left s u

theorem countBody_errorsLeave : ErrorsLeave (· = ·) countBody := by
  intro s
  obtain ⟨-, h⟩ | ⟨-, h⟩ := countBody_cases s
  · exact .inr ⟨_, _, _, _, h, rfl⟩
  · exact .inl ⟨_, h, rfl⟩

theorem buildTreeBody_errorsLeave : ErrorsLeave (· = ·) buildTreeBody := by
  intro s
  obtain ⟨-, h⟩ | ⟨-, -, h⟩ | ⟨-, -, h⟩ := buildTreeBody_cases s
  · exact .inr ⟨_, _, _, _, h, rfl⟩
  · exact .inr ⟨_, _, _, _, h, rfl⟩
  · exact .inl ⟨_, h, rfl⟩

theorem genCodesBody_errorsLeave : ErrorsLeave (· = ·) genCodesBody := by
  intro s
  obtain ⟨-, h⟩ | ⟨x, -, -, h⟩ | ⟨-, -, h⟩ := genCodesBody_cases s
  · exact .inr ⟨_, _, _, _, h, rfl⟩
  · exact .inr ⟨_, _, _, _, h, rfl⟩
  · exact .inl ⟨_, h, rfl⟩

theorem writeHeaderBody_errorsLeave : ErrorsLeave (· = ·) writeHeaderBody := by
  intro s
  obtain ⟨-, h⟩ | ⟨-, -, h⟩ | ⟨-, -, h⟩ := writeHeaderBody_cases s
  · exact .inr ⟨_, _, _, _, h, rfl⟩
  · exact .inr ⟨_, _, _, _, h, rfl⟩
  · exact .inl ⟨_, h, rfl⟩

theorem packBody_errorsLeave : ErrorsLeave (· = ·) packBody := by
  intro s
  obtain ⟨-, h⟩ | ⟨e, sub, a, -, h, -⟩ | ⟨bits, -, -, -, -, -, h⟩ := packBody_cases s
  · exact .inr ⟨_, _, _, _, h, rfl⟩
  · exact .inr ⟨_, _, _, _, h, rfl⟩
  · exact .inl ⟨_, h, rfl⟩

theorem readHeaderBody_errorsLeave : ErrorsLeave (· = ·) readHeaderBody := by
  intro s
  obtain ⟨e, sub, a, h, -⟩ | ⟨rs, -, -, -, h⟩ := readHeaderBody_cases s
  · exact .inr ⟨_, _, _, _, h, rfl⟩
  · exact .inl ⟨_, h, rfl⟩

/-- UNPACK's walk may drop the output (R186). -/
theorem unpackBody_errorsLeave : ErrorsLeave (fun s u => s = u ∨ s.dropOutput = u) unpackBody := by
  intro s
  obtain ⟨-, h⟩ | ⟨e, sub, a, -, h, -⟩ | ⟨e, sub, a, -, h, -⟩ | ⟨out, -, -, -, -, -, h⟩ := unpackBody_cases s
  · exact .inr ⟨_, _, _, _, h, .inl rfl⟩
  · exact .inr ⟨_, _, _, _, h, .inl rfl⟩
  · exact .inr ⟨_, _, _, _, h, .inr rfl⟩
  · exact .inl ⟨_, h, rfl⟩

/-- A sub-command that sets ERR leaves its body's state with the report, its own opcode as the stage (R214). -/
theorem ErrorsLeave.runSingle {left : State → State → Prop} {body : State → BodyResult} (hbody : ErrorsLeave left body)
    {i : Instr} {s t : State} (herr : s.err = false) (hrun : runSingle i body s = .next t) (ht : t.err = true) :
    ∃ u, left s u ∧ t = failed u t.errCode t.errSub (opcode i) t.errAddr := by
  obtain ⟨u, h, hu⟩ | ⟨u, e, sub, a, h, hleft⟩ := hbody s
  · cases (runSingle_completes h).symm.trans hrun
    exact absurd (ht.symm.trans (hu.trans herr)) (by decide)
  · cases (runSingle_raises h).symm.trans hrun
    exact ⟨u, hleft, rfl⟩

/-- Settles O52: the errors of six bodies leave the state as it was, those of UNPACK may drop the output, and CLEAR
never fails. -/
theorem failingSubcommandChangesNothing : Obligations.FailingSubcommandChangesNothing := by
  intro i s t hencode hdecode herr hrun ht
  have hsame {body : State → BodyResult} (hbody : ErrorsLeave (· = ·) body) (h : runSingle i body s = .next t) :
      t = failed s t.errCode t.errSub (opcode i) t.errAddr := by
    obtain ⟨u, rfl, heq⟩ := hbody.runSingle herr h ht
    exact heq
  cases i with
  | encode => exact absurd rfl hencode
  | decode => exact absurd rfl hdecode
  | count => exact .inl (hsame countBody_errorsLeave hrun)
  | buildTree => exact .inl (hsame buildTreeBody_errorsLeave hrun)
  | genCodes => exact .inl (hsame genCodesBody_errorsLeave hrun)
  | writeHeader => exact .inl (hsame writeHeaderBody_errorsLeave hrun)
  | pack => exact .inl (hsame packBody_errorsLeave hrun)
  | readHeader => exact .inl (hsame readHeaderBody_errorsLeave hrun)
  | unpack =>
    obtain ⟨u, rfl | rfl, heq⟩ := unpackBody_errorsLeave.runSingle herr hrun ht
    · exact .inl heq
    · exact .inr ⟨rfl, heq⟩
  | clear =>
    cases hrun
    exact absurd (ht.symm.trans herr) (by decide)

end Sys2Proof.Machine

namespace Sys2Proof.Machine

/-! ### The errors of UNPACK's walk (R183 to R186) -/

/-- Data bits that are two strings one after the other. -/
theorem bits_of_append {bit : Nat → Bool} {j n : Nat} {as bs : List Bool}
    (h : (List.range' j n).map bit = as ++ bs) :
    n = as.length + bs.length ∧ (List.range' j as.length).map bit = as ∧
      (List.range' (j + as.length) bs.length).map bit = bs := by
  have hn : n = as.length + bs.length := by simpa using congrArg List.length h
  rw [hn, ← List.range'_append_1, List.map_append] at h
  exact ⟨hn, List.append_inj h (by simp)⟩

/-- No symbol is found for a bit string that no code begins with (R184). -/
theorem symbolOf_dead {code : Table Code} {p : Code} (hdead : ∀ x, tblGet code x ≠ [] → ¬ p <+: tblGet code x) :
    symbolOf code p = none := by
  by_contra h
  obtain ⟨x, hx⟩ := Option.ne_none_iff_exists'.1 h
  obtain ⟨hxp, hp⟩ := tblGet_of_symbolOf hx
  exact hdead x (hxp ▸ hp) (hxp ▸ List.prefix_rfl)

theorem startsCode_dead {code : Table Code} {p : Code} (hdead : ∀ x, tblGet code x ≠ [] → ¬ p <+: tblGet code x) :
    startsCode code p = false := by
  rw [startsCode, List.any_eq_false]
  intro c hc hstarts
  obtain ⟨x, rfl⟩ := (mem_toList_iff code c).1 hc
  simp only [Bool.and_eq_true, Bool.not_eq_true', List.isEmpty_eq_false_iff, List.isPrefixOf_iff_prefix] at hstarts
  obtain ⟨⟨hne, hpre⟩, -⟩ := hstarts
  exact hdead x hne hpre

section
variable {code : Table Code} (hpf : PrefixFree code) {cap : Nat} {bit : Nat → Bool} {addrOf : Nat → Nat} {x : Byte}
  {j : Nat} {out : List Byte}
include hpf

/-- The walk over bits `q` inside the code `p ++ q ++ r` of a symbol emits nothing and goes on (R182). -/
theorem unpackWalk_inside {p q r : Code} (hx : tblGet code x = p ++ (q ++ r)) (hr : r ≠ [])
    (hbits : (List.range' j q.length).map bit = q) (n : Nat) :
    unpackWalk code cap bit addrOf (q.length + n) j p out =
      unpackWalk code cap bit addrOf n (j + q.length) (p ++ q) out := by
  induction q generalizing p j with
  | nil => simp
  | cons b q ih =>
    rw [List.length_cons, List.range'_succ, List.map_cons, List.cons.injEq] at hbits
    obtain ⟨rfl, hbits⟩ := hbits
    have hx' : tblGet code x = (p ++ [bit j]) ++ (q ++ r) := by simpa using hx
    have hne : q ++ r ≠ [] := List.append_ne_nil_of_right_ne_nil q hr
    rw [List.length_cons, Nat.add_right_comm, unpackWalk]
    simp only [symbolOf_inside hpf hne hx', startsCode_inside hne hx', if_true]
    rw [ih hx' hbits, Nat.add_right_comm, Nat.add_assoc, List.append_assoc, List.singleton_append]

/-- The bit that completes a code when `cap` symbols are written overflows (R183). -/
theorem unpackWalk_overflow {q : Code} {b : Bool} (hx : tblGet code x = q ++ [b]) (hout : out.length = cap)
    (hbits : (List.range' j (q ++ [b]).length).map bit = q ++ [b]) (n : Nat) :
    unpackWalk code cap bit addrOf ((q ++ [b]).length + n) j [] out =
      .failed .outOverflow 0 (addrOf (j + (q ++ [b]).length - 1)) := by
  obtain ⟨-, hq, hb⟩ := bits_of_append hbits
  obtain rfl : bit (j + q.length) = b := by simpa using hb
  have hsym : symbolOf code (q ++ [bit (j + q.length)]) = some x := hx ▸ symbolOf_code hpf (by simp [hx])
  rw [List.length_append, List.length_singleton, Nat.add_assoc, Nat.add_comm 1 n,
    unpackWalk_inside hpf (p := []) hx (by simp) hq, List.nil_append, unpackWalk, hsym]
  exact if_pos hout

/-- A bit after which no code goes on ends the walk (R184). -/
theorem unpackWalk_dead {q : Code} {b : Bool} (hdead : ∀ x, tblGet code x ≠ [] → ¬ q ++ [b] <+: tblGet code x)
    (hlive : q = [] ∨ ∃ x, tblGet code x ≠ q ∧ q <+: tblGet code x)
    (hbits : (List.range' j (q ++ [b]).length).map bit = q ++ [b]) (n : Nat) :
    unpackWalk code cap bit addrOf ((q ++ [b]).length + n) j [] out =
      .failed .corruptPayload 3 (addrOf (j + (q ++ [b]).length - 1)) := by
  obtain ⟨-, hq, hb⟩ := bits_of_append hbits
  obtain rfl : bit (j + q.length) = b := by simpa using hb
  have hreach : unpackWalk code cap bit addrOf (q.length + (n + 1)) j [] out =
      unpackWalk code cap bit addrOf (n + 1) (j + q.length) q out := by
    obtain rfl | ⟨x, hne, r, hr⟩ := hlive
    · rw [List.length_nil, Nat.zero_add]
      rfl
    · exact unpackWalk_inside hpf (p := []) hr.symm (fun h => hne (by simpa [h] using hr.symm)) hq _
  rw [List.length_append, List.length_singleton, Nat.add_assoc, Nat.add_comm 1 n, hreach, unpackWalk,
    symbolOf_dead hdead]
  simp [startsCode_dead hdead]

/-- Data bits that end inside a code end the walk at the last of them (R185). -/
theorem unpackWalk_unfinished {p : Code} (hp : p ≠ []) (hpre : p <+: tblGet code x) (hne : p ≠ tblGet code x)
    (hbits : (List.range' j p.length).map bit = p) :
    unpackWalk code cap bit addrOf p.length j [] out = .failed .corruptPayload 4 (addrOf (j + p.length - 1)) := by
  obtain ⟨r, hr⟩ := hpre
  have hwalk := unpackWalk_inside (cap := cap) (addrOf := addrOf) (out := out) hpf (p := []) hr.symm
    (fun h => hne (by simpa [h] using hr)) hbits 0
  rw [Nat.add_zero, List.nil_append] at hwalk
  rw [hwalk, unpackWalk, if_neg hp]

end

/-- UNPACK drops its output when its checks pass and the walk fails (R186). -/
theorem unpackBody_walkFails {s : State} {e : CmdErr} {sub : Byte} {a : Nat} (hhv : s.hv = true)
    (hcap : s.inLen.toNat ≤ s.cfg.inCap.toNat) (hlen : s.hdrLen.toNat + 2 ≤ s.inLen.toNat)
    (hpad : (s.inByte (s.inLen.toNat - 1)).toNat ≤ 7)
    (hwalk : unpackWalk s.code s.cfg.outCap.toNat (payloadBit s.inByte s.hdrLen.toNat)
      (fun j => s.hdrLen.toNat + j / 8)
      (8 * (s.inLen.toNat - s.hdrLen.toNat - 1) - (s.inByte (s.inLen.toNat - 1)).toNat) 0 [] [] = .failed e sub a) :
    unpackBody s = .raises s.dropOutput e sub (BitVec.ofNat 32 a) := by
  rw [unpackBody, if_neg (by simp [hhv]), if_neg (by omega)]
  simp only
  rw [if_neg (by omega), if_neg (by omega), if_neg (by omega), hwalk]

/-- Settles O41: the walk emits `xs` and goes on into `p`, whose last bit shows the error. -/
theorem unpackWalkErrors : Obligations.UnpackWalkErrors := by
  intro s xs p rest hhv hpf hcap hlen h pad dropped done hpad hcoded hfit hp hdata
  rw [dataBits, List.range_eq_range', List.append_assoc] at hdata
  obtain ⟨hnum, hxs, hrest⟩ := bits_of_append hdata
  rw [Nat.zero_add] at hrest
  obtain ⟨-, hpbits, -⟩ := bits_of_append hrest
  have hfirst := unpackWalk_bitsOf hpf (addrOf := fun j => h + j / 8) (out := []) hcoded (by simpa) hxs
    (p ++ rest).length
  rw [← hnum, Nat.zero_add, List.length_append, List.nil_append] at hfirst
  have hexec (e : CmdErr) (sub : Byte) (a : Nat)
      (hwalk : unpackWalk s.code s.cfg.outCap.toNat (payloadBit s.inByte h) (fun j => h + j / 8)
        (p.length + rest.length) done [] xs = .failed e sub a) :
      exec .unpack s = .next (failed dropped e.code sub 0x21 (BitVec.ofNat 32 a)) :=
    runSingle_raises (unpackBody_walkFails hhv hcap hlen hpad (hfirst.trans hwalk))
  refine ⟨fun hfull ⟨x, hx⟩ => hexec .outOverflow 0 _ ?overflow,
    fun hdead hlive => hexec .corruptPayload 3 _ ?dead,
    fun hnil ⟨x, hpre, hne⟩ => hexec .corruptPayload 4 _ ?unfinished⟩
  case unfinished =>
    subst hnil
    exact unpackWalk_unfinished hpf hp hpre hne hpbits
  all_goals obtain ⟨q, b, rfl⟩ := (List.eq_nil_or_concat' p).resolve_left hp
  case overflow => exact unpackWalk_overflow hpf hx hfull hpbits _
  case dead => exact unpackWalk_dead hpf hdead (by simpa using hlive) hpbits _

end Sys2Proof.Machine

namespace Sys2Proof.Machine

/-! ### A success tells what the bodies did (R213, R214) -/

section
variable {i : Instr} {body : State → BodyResult} {s t : State}

/-- A sub-command that ends without ERR completed its body. -/
theorem completes_of_runSingle (h : runSingle i body s = .next t) (herr : t.err = false) :
    ∃ u, body s = .completes u ∧ t = u.complete := by
  obtain ⟨u, hbody, hrun⟩ | ⟨u, e, sub, a, -, hrun⟩ := runSingle_cases i body s
  · cases hrun.symm.trans h
    exact ⟨u, hbody, rfl⟩
  · cases hrun.symm.trans h
    cases herr

/-- A composite that ends without ERR completed its first step's body and went on. -/
theorem completes_of_runStages {rest : List (Instr × (State → BodyResult))}
    (h : runStages ((i, body) :: rest) s = .next t) (herr : t.err = false) :
    ∃ u, body s = .completes u ∧ runStages rest u = .next t := by
  cases hbody : body s with
  | completes u => exact ⟨u, rfl, (runStages_completes hbody rest).symm.trans h⟩
  | raises u e sub a =>
    cases (runStages_raises hbody rest).symm.trans h
    cases herr

end

/-! ### A decoder never returns an empty sequence (R188) -/

/-- A walk that has a data bit, an unfinished code or a symbol to begin with emits a symbol (R182, R185). -/
theorem unpackWalk_ne_nil {code : Table Code} {cap : Nat} {bit : Nat → Bool} {addrOf : Nat → Nat} {n j : Nat}
    {p : Code} {out res : List Byte} (hstart : 0 < n ∨ p ≠ [] ∨ out ≠ [])
    (h : unpackWalk code cap bit addrOf n j p out = .emitted res) : res ≠ [] := by
  induction n generalizing j p out with
  | zero =>
    simp only [unpackWalk] at h
    split at h
    next hp =>
      cases h
      exact (hstart.resolve_left (Nat.lt_irrefl 0)).resolve_left (not_not.2 hp)
    · cases h
  | succ n ih =>
    simp only [unpackWalk] at h
    split at h
    · split at h
      · cases h
      · exact ih (.inr (.inr (by simp))) h
    · split at h
      · exact ih (.inr (.inl (by simp))) h
      · cases h

/-- A body of UNPACK that completes leaves OUT_LEN at least 1: there is a data bit, since P ≥ 1 and the pad is at
most 7. -/
theorem one_le_outLen_of_unpackBody {s u : State} (h : unpackBody s = .completes u) : 1 ≤ u.outLen.toNat := by
  obtain ⟨-, hbody⟩ | ⟨e, sub, a, -, hbody, -⟩ | ⟨e, sub, a, -, hbody, -⟩ | ⟨out, -, -, hlen, hpad, hwalk, hbody⟩ :=
    unpackBody_cases s
  · cases hbody.symm.trans h
  · cases hbody.symm.trans h
  · cases hbody.symm.trans h
  · cases hbody.symm.trans h
    have hne : out ≠ [] := unpackWalk_ne_nil (.inl (by omega)) hwalk
    have hle : out.length ≤ s.cfg.outCap.toNat := unpackWalk_length_le (Nat.zero_le _) hwalk
    exact (List.length_pos_iff.2 hne).trans_eq (toNat_ofNat_of_lt (hle.trans_lt s.cfg.outCap.isLt)).symm

/-- Settles O46: both commands end with a body of UNPACK that completed. -/
theorem decodeNeverEmpty : Obligations.DecodeNeverEmpty := by
  rintro s t - herr (hunpack | hdecode)
  · obtain ⟨u, hbody, rfl⟩ := completes_of_runSingle hunpack herr
    exact one_le_outLen_of_unpackBody (u := u) hbody
  · obtain ⟨r, -, hrest⟩ := completes_of_runStages hdecode herr
    obtain ⟨u, hbody, hlast⟩ := completes_of_runStages hrest herr
    cases hlast
    exact one_le_outLen_of_unpackBody (u := u) hbody

/-! ### The checks of UNPACK before the walk (R179 to R181) -/

/-- The three checks in their order; each error leaves the state as it was (R186). -/
theorem unpackBody_checks {s : State} (hhv : s.hv = true) (hcap : s.inLen.toNat ≤ s.cfg.inCap.toNat) :
    (s.inLen.toNat < s.hdrLen.toNat + 1 → unpackBody s = .raises s .truncatedInput 3 s.inLen) ∧
    (s.hdrLen.toNat + 1 ≤ s.inLen.toNat → 7 < (s.inByte (s.inLen.toNat - 1)).toNat →
      unpackBody s = .raises s .corruptPayload 1 (BitVec.ofNat 32 (s.inLen.toNat - 1))) ∧
    (s.inLen.toNat = s.hdrLen.toNat + 1 → (s.inByte (s.inLen.toNat - 1)).toNat ≤ 7 →
      unpackBody s = .raises s .corruptPayload 2 s.hdrLen) := by
  rw [unpackBody, if_neg (by simp [hhv]), if_neg (by omega)]
  refine ⟨fun hshort => if_pos hshort, fun hlen hpad => ?_, fun hlen hpad => ?_⟩
  · exact (if_neg (by omega)).trans (if_pos hpad)
  · exact (if_neg (by omega)).trans ((if_neg (by omega)).trans (if_pos (by omega)))

/-- Settles O40: UNPACK raises at the first check that fails. -/
theorem unpackChecksBeforeTheWalk : Obligations.UnpackChecksBeforeTheWalk := by
  intro s hhv hcap
  obtain ⟨hshort, hpad, hempty⟩ := unpackBody_checks hhv hcap
  exact ⟨fun h => runSingle_raises (hshort h), fun h h' => runSingle_raises (hpad h h'),
    fun h h' => runSingle_raises (hempty h h')⟩

/-! ### PACK without a code (R173) -/

/-- The stream ends at the first symbol without a code (R173). -/
theorem gatherBits_error {code : Table Code} {xs : List Byte} {k : Nat} (hk : k < xs.length)
    (hnone : tblGet code xs[k] = []) (hbefore : ∀ j (hj : j < k), tblGet code xs[j] ≠ []) (i : Nat) :
    gatherBits code i xs = .error (i + k) := by
  induction xs generalizing k i with
  | nil => cases hk
  | cons x xs ih =>
    cases k with
    | zero => exact if_pos hnone
    | succ k =>
      have hrest := ih (Nat.lt_of_succ_lt_succ hk) hnone (fun j hj => hbefore (j + 1) (Nat.succ_lt_succ hj)) (i + 1)
      have hhead : tblGet code x ≠ [] := hbefore 0 (Nat.succ_pos k)
      rw [gatherBits, if_neg hhead, hrest, Nat.add_assoc, Nat.add_comm 1]

/-- The stream of a gathering that succeeds is S of R100, and every symbol has a code. -/
theorem gatherBits_eq_ok {code : Table Code} {xs : List Byte} {i : Nat} {bits : List Bool}
    (h : gatherBits code i xs = .ok bits) : (∀ x ∈ xs, tblGet code x ≠ []) ∧ bits = bitsOf code xs := by
  induction xs generalizing i bits with
  | nil =>
    cases h
    exact ⟨fun x hx => absurd hx List.not_mem_nil, rfl⟩
  | cons x xs ih =>
    rw [gatherBits] at h
    split at h
    · cases h
    next hx =>
      split at h
      · cases h
      next rest hrest =>
        cases h
        obtain ⟨hall, rfl⟩ := ih hrest
        exact ⟨List.forall_mem_cons.2 ⟨hx, hall⟩, rfl⟩

theorem packBody_noCode {s : State} {i : Nat} (hcv : s.cv = true) (hpos : 1 ≤ s.inLen.toNat)
    (hcap : s.inLen.toNat ≤ s.cfg.inCap.toNat) (hbits : gatherBits s.code 0 s.inputBytes = .error i) :
    packBody s = .raises s .noCode 0 (BitVec.ofNat 32 i) := by
  rw [packBody, if_neg (by simp [hcv]), if_neg (by omega), if_neg (by omega), hbits]

/-- Settles O38: the stream ends at the smallest offset whose symbol has no code. -/
theorem packWithoutCode : Obligations.PackWithoutCode := by
  intro s i hcv hcap hi hnone hbefore
  have hbits : gatherBits s.code 0 s.inputBytes = .error (0 + i) :=
    gatherBits_error (by rwa [length_inputBytes]) (by simpa [State.inputBytes, State.inByte])
      (fun j hj => by simpa [State.inputBytes, State.inByte] using hbefore j hj) 0
  rw [Nat.zero_add] at hbits
  exact runSingle_raises (packBody_noCode hcv (by omega) hcap hbits)

end Sys2Proof.Machine

namespace Sys2Proof.Machine

/-! ### PACK and UNPACK one after the other (R103, R177) -/

/-- The bytes PACK writes for a bit stream: the payload, then the pad byte (R100, R101). -/
def packedBytes (bits : List Bool) : List Byte := payloadBytes bits ++ [BitVec.ofNat 8 (padCount bits)]

@[simp] theorem length_packedBytes (bits : List Bool) : (packedBytes bits).length = payloadLen bits + 1 := by
  simp [packedBytes]

theorem bitsOf_ne_nil {code : Table Code} {xs : List Byte} (hne : xs ≠ [])
    (hcoded : ∀ x ∈ xs, tblGet code x ≠ []) : bitsOf code xs ≠ [] := by
  obtain ⟨x, hx⟩ := List.exists_mem_of_ne_nil xs hne
  exact fun h => hcoded x hx (List.flatMap_eq_nil_iff.1 h x hx)

section
variable {s : State} {h : Nat} {bits : List Bool}

/-- The pad byte of packed bytes in IN_MEM (R101). -/
theorem inByte_pad_of_holds (hbytes : s.inMem.holds h (packedBytes bits)) :
    (s.inByte (h + payloadLen bits)).toNat = padCount bits := by
  rw [State.inByte, hbytes _ (by simp), packedBytes, List.getD_append_right _ _ _ _ (by simp), length_payloadBytes,
    Nat.sub_self, List.getD_cons_zero, toNat_ofNat_of_lt ((padCount_lt bits).trans (by decide))]

/-- The data bits of packed bytes in IN_MEM are the stream (R103). -/
theorem dataBits_of_holds (hbytes : s.inMem.holds h (packedBytes bits)) : dataBits s h bits.length = bits := by
  obtain ⟨hpayload, -⟩ := Memory.holds_append.1 hbytes
  refine List.ext_getElem (by simp [dataBits]) fun j _ hj => ?_
  have hk : j / 8 < payloadLen bits := by rw [payloadLen]; omega
  simp only [dataBits, List.getElem_map, List.getElem_range]
  rw [payloadBit, State.inByte, hpayload _ (by rwa [length_payloadBytes]), getD_payloadBytes _ hk,
    getLsbD_payloadByte _ _ (Nat.mod_lt _ (by decide)), Nat.div_add_mod, List.getD_eq_getElem _ _ hj]

end

/-- UNPACK of packed bytes emits the symbols that were packed (R177). -/
theorem unpackBody_packedBytes {s : State} {xs : List Byte} (hhv : s.hv = true) (hpf : PrefixFree s.code)
    (hne : xs ≠ []) (hcoded : ∀ x ∈ xs, tblGet s.code x ≠ []) (hcap : s.inLen.toNat ≤ s.cfg.inCap.toNat)
    (hlen : s.inLen.toNat = s.hdrLen.toNat + (payloadLen (bitsOf s.code xs) + 1))
    (hbytes : s.inMem.holds s.hdrLen.toNat (packedBytes (bitsOf s.code xs)))
    (hfit : xs.length ≤ s.cfg.outCap.toNat) :
    unpackBody s =
      .completes
        { s with
          outMem := s.outMem.writeBytes 0 xs
          outLen := BitVec.ofNat 32 xs.length
          pad := BitVec.ofNat 3 (padCount (bitsOf s.code xs)) } := by
  have hpos := List.length_pos_iff.2 (bitsOf_ne_nil hne hcoded)
  have hpadByte : (s.inByte (s.inLen.toNat - 1)).toNat = padCount (bitsOf s.code xs) := by
    rw [hlen, ← Nat.add_assoc, Nat.add_sub_cancel, inByte_pad_of_holds hbytes]
  have hpad := padCount_lt (bitsOf s.code xs)
  have hnum : 8 * (s.inLen.toNat - s.hdrLen.toNat - 1) - padCount (bitsOf s.code xs) =
      (bitsOf s.code xs).length := by
    rw [hlen, padCount, payloadLen]
    omega
  have hdata := dataBits_of_holds hbytes
  rw [dataBits, List.range_eq_range'] at hdata
  have hwalk := unpackWalk_bitsOf hpf (addrOf := fun j => s.hdrLen.toNat + j / 8) (out := []) hcoded (by simpa) hdata 0
  rw [Nat.add_zero, ← hnum, ← hpadByte] at hwalk
  rw [unpackBody_completes hhv hcap (by rw [hlen, payloadLen]; omega) (by omega) hwalk, hpadByte]
  rfl

/-- The bytes of the input written at offset 0 read as the input. -/
theorem Memory.read_writeBytes_inputBytes (m : Memory) {s : State} {a : Nat} (ha : a < s.inLen.toNat) :
    (m.writeBytes 0 s.inputBytes).read a = s.inMem.read a := by
  have hlt : a < s.inputBytes.length := by rwa [length_inputBytes]
  have hread := m.read_writeBytes_inside 0 a s.inputBytes hlt
  rw [Nat.zero_add, List.getD_eq_getElem _ _ hlt] at hread
  rw [hread]
  simp [State.inputBytes, State.inByte]

theorem ofNat_length_inputBytes (s : State) : BitVec.ofNat 32 s.inputBytes.length = s.inLen := by
  rw [length_inputBytes, BitVec.ofNat_toNat, BitVec.setWidth_eq]

theorem inputBytes_ne_nil {s : State} (hpos : 1 ≤ s.inLen.toNat) : s.inputBytes ≠ [] :=
  List.ne_nil_of_length_pos (by rwa [length_inputBytes])

/-- Settles O42: PACK wrote the packed bytes of S, which UNPACK reads back. -/
theorem packUnpackRoundTrip : Obligations.PackUnpackRoundTrip := by
  intro s t u _ hpf _ hpack ht hhv hcode hcap hlen hsame hfit
  obtain ⟨w, hbody, rfl⟩ := completes_of_runSingle hpack ht
  obtain ⟨-, h⟩ | ⟨e, sub, a, -, h, -⟩ | ⟨bits, -, -, hpos, hbits, hroom, h⟩ := packBody_cases s
  · cases h.symm.trans hbody
  · cases h.symm.trans hbody
  cases h.symm.trans hbody
  obtain ⟨hcoded, rfl⟩ := gatherBits_eq_ok hbits
  rw [← hcode] at hpf hcoded hroom hlen hsame
  have houtLen : (BitVec.ofNat 32 (s.outLen.toNat + payloadLen (bitsOf u.code s.inputBytes) + 1)).toNat =
      s.outLen.toNat + (payloadLen (bitsOf u.code s.inputBytes) + 1) :=
    toNat_ofNat_of_lt (hroom.trans_lt s.cfg.outCap.isLt)
  rw [State.complete_outLen, houtLen, Nat.add_sub_cancel_left] at hlen hsame
  have hbytes : u.inMem.holds u.hdrLen.toNat (packedBytes (bitsOf u.code s.inputBytes)) := by
    intro k hk
    rw [hsame k (by simpa using hk), State.complete_outMem]
    exact Memory.read_writeBytes_inside _ _ _ _ hk
  refine ⟨_, runSingle_completes (unpackBody_packedBytes hhv hpf (inputBytes_ne_nil hpos) hcoded hcap hlen hbytes
    (by rwa [length_inputBytes])), rfl, ofNat_length_inputBytes s, ?pad,
    fun a ha => Memory.read_writeBytes_inputBytes _ ha⟩
  case pad => rw [State.complete_pad, hcode]; rfl

end Sys2Proof.Machine

namespace Sys2Proof.Machine

/-! ### The codes of an input (R111, R140 to R142) -/

/-- The present symbols of a counted input are the symbols that occur in it (R111). -/
theorem mem_presentSymbols_countTable {s : State} {x : Byte} :
    x ∈ presentSymbols (countTable s.inputBytes) ↔ x ∈ s.inputBytes := by
  rw [mem_presentSymbols, ← List.count_pos_iff, ← toNat_countTable, Nat.pos_iff_ne_zero, ne_eq, ne_eq,
    ← BitVec.toNat_inj]
  rfl

theorem length_leavesOf_countTable (s : State) :
    (leavesOf (countTable s.inputBytes)).length = s.inputBytes.dedup.length := by
  rw [length_leavesOf]
  refine List.Perm.length_eq ((List.perm_ext_iff_of_nodup ?_ (List.nodup_dedup _)).2 fun x => ?_)
  · exact (presentSymbols_sorted _).imp fun hlt heq => hlt.ne (congrArg _ heq)
  · rw [mem_presentSymbols_countTable, List.mem_dedup]

theorem presentSymbols_countTable_ne_nil {s : State} (hpos : 1 ≤ s.inLen.toNat) :
    presentSymbols (countTable s.inputBytes) ≠ [] := by
  obtain ⟨x, hx⟩ := List.exists_mem_of_ne_nil _ (inputBytes_ne_nil hpos)
  exact List.ne_nil_of_mem (mem_presentSymbols_countTable.2 hx)

/-- The ORDER that BUILD_TREE makes for an input (R118). -/
def orderFor (xs : List Byte) : Table Byte := orderTable (leafOrder (leavesOf (countTable xs)))

/-- The code table of a non-empty input is what CV = 1 promises (R55). -/
theorem codeOk_codesFor {s : State} (hpos : 1 ≤ s.inLen.toNat) :
    CodeOk (codesFor s.inputBytes) (orderFor s.inputBytes) s.inputBytes.dedup.length := by
  rw [← length_leavesOf_countTable]
  exact (treeOk_nodesOfFreq (presentSymbols_countTable_ne_nil hpos)).codeOk_treeCodes

/-- Every symbol of the input has a code (R142). -/
theorem codesFor_ne_nil {s : State} {x : Byte} (hx : x ∈ s.inputBytes) : tblGet (codesFor s.inputBytes) x ≠ [] := by
  have hmem := mem_presentSymbols_countTable.2 hx
  have hne := List.ne_nil_of_mem hmem
  exact (treeOk_nodesOfFreq hne).pathTo_ne_nil (root_nodesOfFreq hne) (pathTo_codesOfFreq (mem_presentSymbols.1 hmem))

/-- No code of an input is too long for a header field (R128, R143). -/
theorem longestCode_codesFor_le {s : State} (hpos : 1 ≤ s.inLen.toNat) :
    longestCode (codesFor s.inputBytes) ≤ maxCodeLen := by
  refine (longestCode_le_iff _ _).2 fun x => ?_
  by_cases hx : x ∈ presentSymbols (countTable s.inputBytes)
  · obtain ⟨-, -, -, hlen⟩ := fibonacciDepthBound (countTable s.inputBytes) x (mem_presentSymbols.1 hx)
    exact hlen.trans (by decide)
  · have hnone : tblGet (codesFor s.inputBytes) x = [] :=
      codesOfFreq_absent (presentSymbols_countTable_ne_nil hpos) hx
    rw [hnone]
    exact Nat.zero_le _

/-! ### The stream (R92, R100 to R102) -/

/-- The bytes of a stream: the header of a code table, then the packed codes of a symbol sequence. -/
def streamBytes (n : Nat) (order : Table Byte) (code : Table Code) (xs : List Byte) : List Byte :=
  headerBytes n order code ++ packedBytes (bitsOf code xs)

theorem length_streamBytes (n : Nat) (order : Table Byte) (code : Table Code) (xs : List Byte) :
    (streamBytes n order code xs).length = headerLen n + (payloadLen (bitsOf code xs) + 1) := by
  rw [streamBytes, List.length_append, length_headerBytes, length_packedBytes]

/-- Bytes written one after the other are one write. -/
theorem Memory.writeBytes_append (m : Memory) (a : Nat) (bs cs : List Byte) :
    m.writeBytes a (bs ++ cs) = (m.writeBytes a bs).writeBytes (a + bs.length) cs := by
  induction bs generalizing m a with
  | nil => rfl
  | cons b bs ih =>
    rw [List.cons_append, Memory.writeBytes_cons, Memory.writeBytes_cons, ih, List.length_cons, Nat.add_assoc,
      Nat.add_comm 1]

/-! ### ENCODE (R190) -/

theorem buildTreeBody_completes {s : State} (hfv : s.fv = true) (hne : presentSymbols s.freq ≠ []) :
    buildTreeBody s =
      .completes
        { s with
          node := (treeOf (leavesOf s.freq)).1
          root := (treeOf (leavesOf s.freq)).2
          order := orderTable (leafOrder (leavesOf s.freq))
          nSym := BitVec.ofNat 9 (leavesOf s.freq).length }.treeFlags := by
  obtain ⟨hfv', -⟩ | ⟨-, hnil, -⟩ | ⟨-, -, h⟩ := buildTreeBody_cases s
  · exact absurd (hfv.symm.trans hfv') (by decide)
  · exact absurd (leavesOf_eq_nil_iff.1 hnil) hne
  · exact h

theorem genCodesBody_completes {s : State} (htv : s.tv = true)
    (hlen : longestCode (treeCodes s.node s.root) ≤ maxCodeLen) :
    genCodesBody s =
      .completes
        { s with
          code := treeCodes s.node s.root
          maxLen := BitVec.ofNat 8 (longestCode (treeCodes s.node s.root)) }.codeFlags := by
  obtain ⟨htv', -⟩ | ⟨x, -, hlong, -⟩ | ⟨-, -, h⟩ := genCodesBody_cases s
  · exact absurd (htv.symm.trans htv') (by decide)
  · obtain ⟨hx, -⟩ := tooLongSymbol_eq_some_iff.1 hlong
    exact absurd ((longestCode_le_iff _ _).1 hlen x) (Nat.not_le.2 hx)
  · exact h

/-- The state after COUNT, BUILD_TREE and GEN_CODES inside ENCODE: the tables of the input. -/
def State.tablesBuilt (s : State) : State :=
  { s with
    freq := countTable s.inputBytes
    node := nodesOfFreq (countTable s.inputBytes)
    root := (treeOf (leavesOf (countTable s.inputBytes))).2
    order := orderFor s.inputBytes
    nSym := BitVec.ofNat 9 (leavesOf (countTable s.inputBytes)).length
    code := codesFor s.inputBytes
    maxLen := BitVec.ofNat 8 (longestCode (codesFor s.inputBytes))
    fv := true, tv := true, cv := true, hv := false }

theorem State.toNat_nSym_tablesBuilt (s : State) : s.tablesBuilt.nSym.toNat = s.inputBytes.dedup.length := by
  rw [← length_leavesOf_countTable]
  exact toNat_nSym (length_leavesOf_le _)

/-- ENCODE of a non-empty input builds its tables and goes on with WRITE_HEADER and PACK (R190). -/
theorem exec_encode_tables {s : State} (hpos : 1 ≤ s.inLen.toNat) (hcap : s.inLen.toNat ≤ s.cfg.inCap.toNat) :
    exec .encode s = runStages [(.writeHeader, writeHeaderBody), (.pack, packBody)] s.tablesBuilt := by
  have hcount := countBody_completes hcap
  have hbuild := buildTreeBody_completes (s := { s with freq := countTable s.inputBytes }.freqFlags) rfl
    (presentSymbols_countTable_ne_nil hpos)
  refine (runStages_completes hcount _).trans ((runStages_completes hbuild _).trans ?_)
  refine runStages_completes (genCodesBody_completes rfl ?_) _
  exact longestCode_codesFor_le hpos

/-- The state after WRITE_HEADER and PACK one after the other: the stream stands at offset 0 (R171). -/
def State.streamWritten (s : State) : State :=
  let n := s.nSym.toNat
  let S := bitsOf s.code s.inputBytes
  { s with
    outMem := s.outMem.writeBytes 0 (streamBytes n s.order s.code s.inputBytes)
    outLen := BitVec.ofNat 32 (streamBytes n s.order s.code s.inputBytes).length
    hdrLen := BitVec.ofNat 32 (headerLen n)
    pad := BitVec.ofNat 3 (padCount S) }

/-- WRITE_HEADER and PACK write the stream of a table that has a code for every input byte, when it fits. -/
theorem runStages_writeHeader_pack {s : State} (hcv : s.cv = true) (hpos : 1 ≤ s.inLen.toNat)
    (hcap : s.inLen.toNat ≤ s.cfg.inCap.toNat) (hcoded : ∀ x ∈ s.inputBytes, tblGet s.code x ≠ [])
    (hfit : (streamBytes s.nSym.toNat s.order s.code s.inputBytes).length ≤ s.cfg.outCap.toNat) :
    runStages [(.writeHeader, writeHeaderBody), (.pack, packBody)] s = .next s.streamWritten.complete := by
  have hlen := length_streamBytes s.nSym.toNat s.order s.code s.inputBytes
  have hhdr : (BitVec.ofNat 32 (headerLen s.nSym.toNat)).toNat = headerLen s.nSym.toNat := toNat_hdrLen s.nSym.isLt
  have hmem : (s.outMem.writeBytes 0 (headerBytes s.nSym.toNat s.order s.code)).writeBytes
      (BitVec.ofNat 32 (headerLen s.nSym.toNat)).toNat (packedBytes (bitsOf s.code s.inputBytes)) =
      s.outMem.writeBytes 0 (streamBytes s.nSym.toNat s.order s.code s.inputBytes) := by
    rw [hhdr, streamBytes, Memory.writeBytes_append, length_headerBytes, Nat.zero_add]
  refine (runStages_completes (writeHeaderBody_completes hcv (by omega)) _).trans ?_
  refine (runStages_completes (packBody_completes (bits := bitsOf s.code s.inputBytes) ?cv ?pos ?cap ?bits ?room)
    _).trans ?state
  case cv => exact hcv
  case pos => exact hpos
  case cap => exact hcap
  case bits => exact gatherBits_ok hcoded 0
  case room =>
    rw [hhdr, Nat.add_assoc, ← hlen]
    exact hfit
  case state =>
    rw [State.streamWritten, ← hmem, hlen, ← Nat.add_assoc, hhdr]
    rfl

/-- The stream of an input (R92, R190). -/
def streamOf (xs : List Byte) : List Byte := streamBytes xs.dedup.length (orderFor xs) (codesFor xs) xs

/-- ENCODE of a non-empty input whose stream fits leaves the stream at offset 0 and its length in OUT_LEN (R190). -/
theorem exec_encode_stream {s : State} (hpos : 1 ≤ s.inLen.toNat) (hcap : s.inLen.toNat ≤ s.cfg.inCap.toNat)
    (hfit : (streamOf s.inputBytes).length ≤ s.cfg.outCap.toNat) :
    ∃ t, exec .encode s = .next t ∧ t.err = s.err ∧ t.outLen.toNat = (streamOf s.inputBytes).length ∧
      t.outMem.holds 0 (streamOf s.inputBytes) := by
  have hstream : streamBytes s.tablesBuilt.nSym.toNat (orderFor s.inputBytes) (codesFor s.inputBytes) s.inputBytes =
      streamOf s.inputBytes := by rw [s.toNat_nSym_tablesBuilt, streamOf]
  have hrun := runStages_writeHeader_pack (s := s.tablesBuilt) rfl hpos hcap (fun x hx => codesFor_ne_nil hx)
    (hstream ▸ hfit)
  refine ⟨_, (exec_encode_tables hpos hcap).trans hrun, rfl, ?outLen, ?outMem⟩
  case outLen => exact hstream ▸ toNat_ofNat_of_lt (hstream ▸ hfit.trans_lt s.cfg.outCap.isLt)
  case outMem => exact hstream ▸ fun i hi => s.outMem.read_writeBytes_inside 0 i _ hi

/-! ### DECODE of a stream (R155, R178, R195) -/

/-- The state READ_HEADER's body leaves for the given records (R162). -/
def State.recordsRead (s : State) (rs : List (Byte × Code)) : State :=
  { s with
    code := codeTableOf rs
    order := orderTable (rs.map Prod.fst)
    nSym := BitVec.ofNat 9 rs.length
    hdrLen := BitVec.ofNat 32 (headerLen rs.length)
    maxLen := BitVec.ofNat 8 (longestCode (codeTableOf rs)) }.headerFlags

/-- READ_HEADER's body reads acceptable records (R155, R162). -/
theorem readHeaderBody_records {s : State} {rs : List (Byte × Code)} (h1 : 1 ≤ rs.length) (h256 : rs.length ≤ 256)
    (hok : RecordsOk rs) (hcap : s.inLen.toNat ≤ s.cfg.inCap.toNat) (hlen : headerLen rs.length ≤ s.inLen.toNat)
    (hbytes : s.inMem.holds 0 (serialize rs)) : readHeaderBody s = .completes (s.recordsRead rs) := by
  obtain ⟨hcount, hrecs⟩ := Memory.holds_cons.1 hbytes
  have hcount : countOf (s.inByte 0) = rs.length := by rw [State.inByte, hcount, countOf_countByte h1 h256]
  have hread : readRecords s.inByte rs.length 0 [] = .ok rs :=
    readRecords_append (n := 0) (k := 0) (acc := []) hok hrecs
  have hpos : 1 ≤ s.inLen.toNat := (Nat.le_add_right ..).trans hlen
  rw [readHeaderBody, if_neg (Nat.not_lt.2 hcap), if_neg (Nat.not_lt.2 hpos)]
  simp only [hcount, hread]
  exact if_neg (Nat.not_lt.2 hlen)

/-- DECODE of the stream of a valid table gives the symbols back. -/
theorem exec_decode_streamBytes {s : State} {n : Nat} {order : Table Byte} {code : Table Code} {xs : List Byte}
    (hcode : CodeOk code order n) (hlong : longestCode code ≤ maxCodeLen) (hne : xs ≠ [])
    (hcoded : ∀ x ∈ xs, tblGet code x ≠ []) (hcap : s.inLen.toNat ≤ s.cfg.inCap.toNat)
    (hlen : s.inLen.toNat = (streamBytes n order code xs).length)
    (hbytes : s.inMem.holds 0 (streamBytes n order code xs)) (hfit : xs.length ≤ s.cfg.outCap.toNat) :
    ∃ t, exec .decode s = .next t ∧ t.err = s.err ∧ t.outLen = BitVec.ofNat 32 xs.length ∧
      t.outMem = s.outMem.writeBytes 0 xs := by
  have ⟨h1, h256, _, _, hpf⟩ := hcode
  obtain ⟨rs, hok, rfl, rfl, hser⟩ : ∃ rs, RecordsOk rs ∧ rs.length = n ∧ codeTableOf rs = code ∧
      headerBytes n order code = serialize rs :=
    ⟨tableRecords n order code, hcode.recordsOk hlong, length_tableRecords .., hcode.codeTableOf_tableRecords,
      headerBytes_eq_serialize ..⟩
  obtain ⟨hheader, hpacked⟩ := Memory.holds_append.1 hbytes
  rw [hser] at hheader
  rw [length_headerBytes, Nat.zero_add] at hpacked
  rw [length_streamBytes] at hlen
  have hhdr : (s.recordsRead rs).hdrLen.toNat = headerLen rs.length := toNat_hdrLen (by omega)
  have hread := readHeaderBody_records h1 h256 hok hcap (by omega) hheader
  have hunpack := unpackBody_packedBytes (s := s.recordsRead rs) rfl hpf hne hcoded hcap (hhdr.symm ▸ hlen)
    (hhdr.symm ▸ hpacked) hfit
  exact ⟨_, (runStages_completes hread _).trans (runStages_completes hunpack _), rfl, rfl, rfl⟩

/-- Settles O45: ENCODE leaves the stream of the input's codes, a valid table's, which DECODE reads back. -/
theorem encodeDecodeRoundTrip : Obligations.EncodeDecodeRoundTrip := by
  intro s u herr hpos hcap xs hfit
  have hroom : (streamOf xs).length ≤ s.cfg.outCap.toNat := by
    rw [streamOf, length_streamBytes, headerLen, payloadLen, recordByteCount, ← Nat.add_assoc]
    exact hfit
  obtain ⟨t, hencode, hterr, houtLen, hstream⟩ := exec_encode_stream hpos hcap hroom
  refine ⟨t, hencode, hterr.trans herr, fun hinLen hsame hucap hufit => ?_⟩
  have hbytes : u.inMem.holds 0 (streamOf xs) := Memory.holds_congr (houtLen ▸ hsame) hstream
  obtain ⟨v, hdecode, hverr, hvlen, hvmem⟩ := exec_decode_streamBytes (codeOk_codesFor hpos)
    (longestCode_codesFor_le hpos) (inputBytes_ne_nil hpos) (fun x hx => codesFor_ne_nil hx) (hinLen ▸ hucap)
    (hinLen ▸ houtLen) hbytes (by rwa [length_inputBytes])
  refine ⟨v, hdecode, hverr, hvlen.trans (ofNat_length_inputBytes s), fun a ha => ?_⟩
  rw [hvmem, Memory.read_writeBytes_inputBytes _ ha]

end Sys2Proof.Machine

namespace Sys2Proof.Machine

/-! ### What ENCODE leaves (R190 to R194) -/

/-- The state ENCODE leaves, by the first of its checks that fails (R111, R115, R151, R172, R190, R192). GEN_CODES has no
case: no code of an input is too long (R128). -/
def State.encoded (s : State) : State :=
  if s.cfg.inCap.toNat < s.inLen.toNat then failed { s with outLen := 0 } 7 0 0x10 0
  else if s.inLen = 0 then
    failed
      { s with freq := Vector.replicate 256 0, fv := true, tv := false, cv := false, hv := false, outLen := 0 }
      1 0 0x11 0
  else if s.cfg.outCap.toNat < headerLen s.inputBytes.dedup.length then
    failed { s.tablesBuilt with outLen := 0 } 8 0 0x13 0
  else if s.cfg.outCap.toNat < (streamOf s.inputBytes).length then
    failed { s.tablesBuilt.headerWritten with outLen := 0 } 8 0 0x14 0
  else s.tablesBuilt.streamWritten.complete

/-- The bytes ENCODE writes are the stream of its input (R190). -/
theorem State.streamBytes_tablesBuilt (s : State) :
    streamBytes s.tablesBuilt.nSym.toNat s.tablesBuilt.order s.tablesBuilt.code s.inputBytes =
      streamOf s.inputBytes := by
  rw [s.toNat_nSym_tablesBuilt]
  rfl

theorem length_streamOf (xs : List Byte) :
    (streamOf xs).length = headerLen xs.dedup.length + payloadLen (bitsOf (codesFor xs) xs) + 1 :=
  length_streamBytes ..

theorem exec_encode (s : State) : exec .encode s = .next s.encoded := by
  rw [State.encoded]
  split
  next hlong =>
    obtain ⟨-, h⟩ | ⟨hcap, -⟩ := countBody_cases s
    · exact runStages_raises h _
    · exact absurd hlong (Nat.not_lt.2 hcap)
  next hcap =>
  split
  next hempty =>
    obtain ⟨-, -, hencode⟩ := emptyInputErrors
    exact hencode s hempty
  next hne =>
  have hcap := Nat.le_of_not_lt hcap
  have hpos : 1 ≤ s.inLen.toNat := Nat.pos_of_ne_zero fun h0 => hne (BitVec.eq_of_toNat_eq h0)
  have hn := s.toNat_nSym_tablesBuilt
  have hcoded : ∀ x ∈ s.inputBytes, tblGet s.tablesBuilt.code x ≠ [] := fun x hx => codesFor_ne_nil hx
  rw [exec_encode_tables hpos hcap]
  split
  next hover => exact runStages_raises (writeHeaderBody_overflow rfl (hn.symm ▸ hover)) _
  next hroom =>
  have hroom : headerLen s.tablesBuilt.nSym.toNat ≤ s.tablesBuilt.cfg.outCap.toNat := hn.symm ▸ Nat.le_of_not_lt hroom
  split
  next hover =>
    have hlen : (BitVec.ofNat 32 (headerLen s.tablesBuilt.nSym.toNat)).toNat = headerLen s.inputBytes.dedup.length :=
      (toNat_hdrLen s.tablesBuilt.nSym.isLt).trans (congrArg headerLen hn)
    have hpack : packBody { s.tablesBuilt.headerWritten with busy := s.busy, done := s.done } =
        .raises _ .outOverflow 0 0 :=
      packBody_overflow rfl hpos hcap (gatherBits_ok hcoded 0) (hlen.symm ▸ length_streamOf s.inputBytes ▸ hover)
    exact (runStages_completes (writeHeaderBody_completes rfl hroom) _).trans (runStages_raises hpack _)
  next hfit =>
    refine runStages_writeHeader_pack rfl hpos hcap hcoded ?_
    exact s.streamBytes_tablesBuilt ▸ Nat.le_of_not_lt hfit

/-- ENCODE of a non-empty input whose stream fits succeeds (R194). -/
theorem State.encoded_of_fits {s : State} (hpos : 1 ≤ s.inLen.toNat) (hcap : s.inLen.toNat ≤ s.cfg.inCap.toNat)
    (hfit : (streamOf s.inputBytes).length ≤ s.cfg.outCap.toNat) :
    s.encoded = s.tablesBuilt.streamWritten.complete := by
  have hne : s.inLen ≠ 0 := fun h => absurd hpos (by rw [h]; decide)
  have hlen := length_streamOf s.inputBytes
  rw [State.encoded, if_neg (Nat.not_lt.2 hcap), if_neg hne, if_neg (by omega), if_neg (Nat.not_lt.2 hfit)]

/-- A success of ENCODE leaves the stream of the input at offset 0. -/
theorem State.streamWritten_outMem (s : State) :
    s.tablesBuilt.streamWritten.outMem = s.outMem.writeBytes 0 (streamOf s.inputBytes) :=
  congrArg (s.outMem.writeBytes 0) s.streamBytes_tablesBuilt

theorem State.streamWritten_outLen (s : State) :
    s.tablesBuilt.streamWritten.outLen = BitVec.ofNat 32 (streamOf s.inputBytes).length :=
  congrArg (fun bs : List Byte => BitVec.ofNat 32 bs.length) s.streamBytes_tablesBuilt

/-! ### The bytes of a stream in memory (R93, R94, R100 to R102) -/

/-- The count byte and the records of a header in memory (R93, R94). -/
theorem Memory.read_headerBytes_of_holds {m : Memory} {n : Nat} {order : Table Byte} {code : Table Code}
    (h : m.holds 0 (headerBytes n order code)) :
    (m.read 0).toNat = n % 256 ∧
      ∀ k, k < n → m.read (1 + 17 * k) = orderAt order k ∧
        ∀ j, j < 16 → m.read (2 + 17 * k + j) = fieldByte (fieldOf (tblGet code (orderAt order k))) j := by
  obtain ⟨hcount, -⟩ := Memory.holds_cons.1 h
  have hrecord {k j : Nat} (hk : k < n) (hj : j < 17) :
      m.read (1 + 17 * k + j) = (recordBytes (orderAt order k) (tblGet code (orderAt order k))).getD j 0 := by
    rw [← getD_headerBytes order code hk hj, ← h _ (by rw [length_headerBytes, headerLen, recordByteCount]; omega),
      Nat.zero_add]
  refine ⟨hcount ▸ toNat_countByte n, fun k hk => ⟨hrecord hk (j := 0) (by decide), fun j hj => ?_⟩⟩
  rw [show 2 + 17 * k + j = 1 + 17 * k + (j + 1) by omega, hrecord hk (by omega), recordBytes, List.getD_cons_succ,
    getD_fieldBytes _ hj]

/-- The stream bits and the pad byte of packed bytes in memory (R76, R100, R101). -/
theorem Memory.read_packedBytes_of_holds {m : Memory} {a : Nat} {bits : List Bool} (h : m.holds a (packedBytes bits)) :
    (∀ j, j < 8 * payloadLen bits → (m.read (a + j / 8)).getLsbD (7 - j % 8) = bits.getD j false) ∧
      (m.read (a + payloadLen bits)).toNat = padCount bits := by
  obtain ⟨hpayload, hpad⟩ := Memory.holds_append.1 h
  rw [length_payloadBytes] at hpad
  refine ⟨fun j hj => ?_, ?_⟩
  · have hk : j / 8 < payloadLen bits := by omega
    rw [hpayload _ (by rwa [length_payloadBytes]), getD_payloadBytes _ hk,
      getLsbD_payloadByte _ _ (Nat.mod_lt _ (by decide)), Nat.div_add_mod]
  · rw [(Memory.holds_cons.1 hpad).1]
    exact toNat_ofNat_of_lt ((padCount_lt bits).trans (by decide))

/-- Settles O43: ENCODE writes the stream of its input in one piece, the header's bytes and then the packed bits. -/
theorem encodeWritesStream : Obligations.EncodeWritesStream := by
  intro s hpos hcap xs N S P _ hroom
  have hlen : (streamOf xs).length = 1 + 17 * N + P + 1 := length_streamOf xs
  have hN : s.tablesBuilt.nSym.toNat = N := s.toNat_nSym_tablesBuilt
  have hN9 : N < 512 := hN ▸ s.tablesBuilt.nSym.isLt
  have hmem := s.streamWritten_outMem
  have hholds : s.tablesBuilt.streamWritten.outMem.holds 0 (streamOf xs) :=
    hmem ▸ fun i hi => s.outMem.read_writeBytes_inside 0 i _ hi
  obtain ⟨hheader, hpacked⟩ := Memory.holds_append.1 hholds
  rw [length_headerBytes, Nat.zero_add] at hpacked
  obtain ⟨hcount, hrecords⟩ := Memory.read_headerBytes_of_holds hheader
  obtain ⟨hbits, hpad⟩ := Memory.read_packedBytes_of_holds hpacked
  have hrun : exec .encode s = .next s.tablesBuilt.streamWritten.complete := by
    rw [exec_encode, State.encoded_of_fits hpos hcap (hlen ▸ hroom)]
  refine ⟨_, hrun, rfl, toNat_countTable s, rfl, hN, ?hdrLen, ?outLen, ?maxLen, ?pad, hcount, hrecords, hbits, hpad,
    fun a ha => ?frame⟩
  case hdrLen => exact (toNat_hdrLen s.tablesBuilt.nSym.isLt).trans (congrArg headerLen hN)
  case outLen =>
    rw [State.complete_outLen, s.streamWritten_outLen, hlen]
    exact toNat_ofNat_of_lt (hroom.trans_lt s.cfg.outCap.isLt)
  case maxLen => exact toNat_longestCode (longestCode_codesFor_le hpos)
  case pad => exact toNat_ofNat_of_lt (padCount_lt S)
  case frame =>
    rw [State.complete_outMem, hmem]
    exact Memory.read_writeBytes_outside _ _ _ _ (.inr (by rwa [Nat.zero_add, hlen]))

/-! ### What DECODE of a stream leaves (R195) -/

/-- UNPACK of data bits that are the codes of a symbol sequence emits the sequence (R178, R182). -/
theorem unpackBody_dataBits {s : State} {xs : List Byte} (hhv : s.hv = true) (hpf : PrefixFree s.code)
    (hcap : s.inLen.toNat ≤ s.cfg.inCap.toNat) (hlen : s.hdrLen.toNat + 2 ≤ s.inLen.toNat)
    (hpad : (s.inByte (s.inLen.toNat - 1)).toNat ≤ 7) (hcoded : ∀ x ∈ xs, tblGet s.code x ≠ [])
    (hfit : xs.length ≤ s.cfg.outCap.toNat)
    (hdata : dataBits s s.hdrLen.toNat
      (8 * (s.inLen.toNat - s.hdrLen.toNat - 1) - (s.inByte (s.inLen.toNat - 1)).toNat) = bitsOf s.code xs) :
    unpackBody s =
      .completes
        { s with
          outMem := s.outMem.writeBytes 0 xs
          outLen := BitVec.ofNat 32 xs.length
          pad := BitVec.ofNat 3 (s.inByte (s.inLen.toNat - 1)).toNat } := by
  have hnum := congrArg List.length hdata
  rw [dataBits, List.length_map, List.length_range] at hnum
  rw [dataBits, hnum, List.range_eq_range'] at hdata
  have hwalk := unpackWalk_bitsOf hpf (addrOf := fun j => s.hdrLen.toNat + j / 8) (out := []) hcoded (by simpa) hdata 0
  rw [Nat.add_zero, ← hnum] at hwalk
  exact unpackBody_completes hhv hcap hlen hpad hwalk

/-- A table that has the codes of the records and no others is their table (R162). -/
theorem eq_codeTableOf {rs : List (Byte × Code)} {code : Table Code} (hnodup : (rs.map Prod.fst).Nodup)
    (hpresent : ∀ r ∈ rs, tblGet code r.1 = r.2) (habsent : ∀ x, x ∉ rs.map Prod.fst → tblGet code x = []) :
    code = codeTableOf rs := by
  refine tbl_ext fun x => ?_
  by_cases hx : x ∈ rs.map Prod.fst
  · obtain ⟨r, hr, rfl⟩ := List.mem_map.1 hx
    rw [hpresent r hr, codeTableOf_present rs hnodup r hr]
  · rw [habsent x hx, codeTableOf_absent rs x hx]

/-- Settles O44: READ_HEADER reads the records, and UNPACK with their table emits the symbols. -/
theorem decodeReadsStream : Obligations.DecodeReadsStream := by
  intro s rs code xs h1 h256 hok hbytes hpresent habsent hcap H hlen pad hpad hcoded hfit hdata
  have ⟨hnodup, _, _⟩ := hok
  obtain rfl := eq_codeTableOf hnodup hpresent habsent
  have hhdr : (s.recordsRead rs).hdrLen.toNat = H := toNat_hdrLen (by omega)
  have hread := readHeaderBody_records h1 h256 hok hcap ((Nat.le_add_right H 2).trans hlen) hbytes
  have hunpack := unpackBody_dataBits (s := s.recordsRead rs) (xs := xs) rfl (prefixFree_codeTableOf hok.entriesOk)
    hcap (hhdr.symm ▸ hlen) hpad hcoded hfit (hhdr.symm ▸ hdata)
  have horder := orderList_orderTable (rs.map Prod.fst) (by simpa using h256)
  rw [List.length_map] at horder
  refine ⟨_, (runStages_completes hread _).trans (runStages_completes hunpack _), rfl, horder, toNat_nSym h256, hhdr,
    toNat_longestCode (longestCode_codeTableOf_le hok), ?outLen, ?pad, fun i hi => ?bytes, fun a ha => ?frame⟩
  case outLen => exact toNat_ofNat_of_lt (hfit.trans_lt s.cfg.outCap.isLt)
  case pad => exact toNat_ofNat_of_lt (Nat.lt_succ_of_le hpad)
  case bytes => exact Memory.read_writeBytes_inside _ 0 i xs hi
  case frame => exact Memory.read_writeBytes_outside _ 0 a xs (.inr (by omega))

end Sys2Proof.Machine

namespace Sys2Proof.Machine

/-! ### Composites and their steps run alone (R191, R192, R196, R198) -/

/-- A body reads neither BUSY nor DONE, so it does the same before and after a completion. -/
def IgnoresCompletion (body : State → BodyResult) : Prop :=
  ∀ s : State, body s.complete = (body s).map State.complete

@[simp] theorem State.complete_inByte (s : State) : s.complete.inByte = s.inByte := rfl
@[simp] theorem State.complete_inputBytes (s : State) : s.complete.inputBytes = s.inputBytes := rfl

theorem buildTreeBody_ignoresCompletion : IgnoresCompletion buildTreeBody :=
  fun _ => ite_eq_apply_ite rfl (ite_eq_apply_ite rfl rfl)

theorem genCodesBody_ignoresCompletion : IgnoresCompletion genCodesBody := by
  intro s
  refine ite_eq_apply_ite rfl ?tooLongCheck
  rw [State.complete_node, State.complete_root]
  cases tooLongSymbol (treeCodes s.node s.root) <;> rfl

theorem writeHeaderBody_ignoresCompletion : IgnoresCompletion writeHeaderBody :=
  fun _ => ite_eq_apply_ite rfl (ite_eq_apply_ite rfl rfl)

theorem packBody_ignoresCompletion : IgnoresCompletion packBody := by
  intro s
  refine ite_eq_apply_ite rfl (ite_eq_apply_ite rfl (ite_eq_apply_ite rfl ?gather))
  rw [State.complete_code, State.complete_inputBytes]
  cases gatherBits s.code 0 s.inputBytes with
  | error i => rfl
  | ok bits => exact ite_eq_apply_ite rfl rfl

theorem unpackBody_ignoresCompletion : IgnoresCompletion unpackBody := by
  intro s
  refine ite_eq_apply_ite rfl (ite_eq_apply_ite rfl (ite_eq_apply_ite rfl (ite_eq_apply_ite rfl
    (ite_eq_apply_ite rfl ?walk))))
  simp only [State.complete_cfg, State.complete_inLen, State.complete_hdrLen, State.complete_code,
    State.complete_inByte]
  split <;> rfl

/-- Steps go on from a completed state as they do from the state before its completion. -/
theorem runStages_complete {stages : List (Instr × (State → BodyResult))}
    (hstages : ∀ stage ∈ stages, IgnoresCompletion stage.2) (s : State) :
    runStages stages s.complete = runStages stages s := by
  induction stages generalizing s with
  | nil => rfl
  | cons stage rest ih =>
    obtain ⟨hhead, hrest⟩ := List.forall_mem_cons.mp hstages
    rw [runStages, runStages, hhead s]
    cases stage.2 s with
    | completes t => exact ih hrest t
    | raises t e sub addr => rfl

section
variable {i : Instr} {body : State → BodyResult} {rest : List (Instr × (State → BodyResult))} {s a : State}

/-- A step that fails alone ends the composite in its state, but for OUT_LEN (R192, R196). -/
theorem runStages_of_failing {left : State → State → Prop} (hbody : ErrorsLeave left body) (hs : s.err = false)
    (hrun : runSingle i body s = .next a) (ha : a.err = true) :
    runStages ((i, body) :: rest) s = .next { a with outLen := 0 } := by
  obtain ⟨u, h, hu⟩ | ⟨u, e, sub, addr, h, -⟩ := hbody s
  · cases (runSingle_completes h).symm.trans hrun
    exact absurd (ha.symm.trans (hu.trans hs)) (by decide)
  · cases (runSingle_raises h).symm.trans hrun
    exact runStages_raises h rest

/-- After a step that succeeds alone the composite goes on from that step's state (R191). -/
theorem runStages_of_succeeding (hrest : ∀ stage ∈ rest, IgnoresCompletion stage.2)
    (hrun : runSingle i body s = .next a) (ha : a.err = false) :
    runStages ((i, body) :: rest) s = runStages rest a := by
  obtain ⟨u, h, rfl⟩ := completes_of_runSingle hrun ha
  rw [runStages_completes h, runStages_complete hrest]

/-- A last step that succeeds alone leaves the composite's state. -/
theorem runStages_of_last_succeeding (hrun : runSingle i body s = .next a) (ha : a.err = false) :
    runStages [(i, body)] s = .next a := by
  obtain ⟨u, h, rfl⟩ := completes_of_runSingle hrun ha
  exact runStages_completes h []

end

/-- Settles O47: each step that succeeds hands its state on, and the first that fails ends the composite. -/
theorem compositesAreTheirSteps : Obligations.CompositesAreTheirSteps := by
  refine ⟨fun s a b c d e hs hcount hbuild hgen hheader hpack => ?encode, fun s a b hs hread hunpack => ?decode⟩
  case encode =>
    have goCount (ha : a.err = false) : exec .encode s = runStages _ a :=
      runStages_of_succeeding (by simp [buildTreeBody_ignoresCompletion, genCodesBody_ignoresCompletion,
        writeHeaderBody_ignoresCompletion, packBody_ignoresCompletion]) hcount ha
    have goBuild (ha : a.err = false) (hb : b.err = false) : exec .encode s = runStages _ b :=
      (goCount ha).trans (runStages_of_succeeding (by simp [genCodesBody_ignoresCompletion,
        writeHeaderBody_ignoresCompletion, packBody_ignoresCompletion]) hbuild hb)
    have goGen (ha : a.err = false) (hb : b.err = false) (hc : c.err = false) : exec .encode s = runStages _ c :=
      (goBuild ha hb).trans (runStages_of_succeeding (by simp [writeHeaderBody_ignoresCompletion,
        packBody_ignoresCompletion]) hgen hc)
    have goHeader (ha : a.err = false) (hb : b.err = false) (hc : c.err = false) (hd : d.err = false) :
        exec .encode s = runStages _ d :=
      (goGen ha hb hc).trans (runStages_of_succeeding (by simp [packBody_ignoresCompletion]) hheader hd)
    exact ⟨fun ha => runStages_of_failing countBody_errorsLeave hs hcount ha,
      fun ha hb => (goCount ha).trans (runStages_of_failing buildTreeBody_errorsLeave ha hbuild hb),
      fun ha hb hc => (goBuild ha hb).trans (runStages_of_failing genCodesBody_errorsLeave hb hgen hc),
      fun ha hb hc hd => (goGen ha hb hc).trans (runStages_of_failing writeHeaderBody_errorsLeave hc hheader hd),
      fun ha hb hc hd he => (goHeader ha hb hc hd).trans (runStages_of_failing packBody_errorsLeave hd hpack he),
      fun ha hb hc hd he => (goHeader ha hb hc hd).trans (runStages_of_last_succeeding hpack he)⟩
  case decode =>
    have goRead (ha : a.err = false) : exec .decode s = runStages _ a :=
      runStages_of_succeeding (by simp [unpackBody_ignoresCompletion]) hread ha
    exact ⟨fun ha => runStages_of_failing readHeaderBody_errorsLeave hs hread ha,
      fun ha hb => (goRead ha).trans (runStages_of_failing unpackBody_errorsLeave ha hunpack hb),
      fun ha hb => (goRead ha).trans (runStages_of_last_succeeding hunpack hb)⟩

end Sys2Proof.Machine

namespace Sys2Proof.Machine

/-! ### The valid flags (R205) -/

/-- The four valid flags (R31), in the order of R205's table. -/
abbrev ValidFlags := Bool × Bool × Bool × Bool

/-- The flags FV, TV, CV and HV of a state. -/
def State.validFlags (s : State) : ValidFlags := (s.fv, s.tv, s.cv, s.hv)

/-- A body that completes writes the valid flags as `f` says. -/
def WritesFlags (f : ValidFlags → ValidFlags) (body : State → BodyResult) : Prop :=
  ∀ s u : State, body s = .completes u → u.validFlags = f s.validFlags

theorem countBody_writesFlags : WritesFlags (fun _ => (true, false, false, false)) countBody := by
  intro s u hbody
  obtain ⟨-, h⟩ | ⟨-, h⟩ := countBody_cases s
  · cases h.symm.trans hbody
  · cases h.symm.trans hbody; rfl

theorem buildTreeBody_writesFlags : WritesFlags (fun (fv, _, _, _) => (fv, true, false, false)) buildTreeBody := by
  intro s u hbody
  obtain ⟨-, h⟩ | ⟨-, -, h⟩ | ⟨-, -, h⟩ := buildTreeBody_cases s
  · cases h.symm.trans hbody
  · cases h.symm.trans hbody
  · cases h.symm.trans hbody; rfl

theorem genCodesBody_writesFlags : WritesFlags (fun (fv, tv, _, _) => (fv, tv, true, false)) genCodesBody := by
  intro s u hbody
  obtain ⟨-, h⟩ | ⟨x, -, -, h⟩ | ⟨-, -, h⟩ := genCodesBody_cases s
  · cases h.symm.trans hbody
  · cases h.symm.trans hbody
  · cases h.symm.trans hbody; rfl

theorem writeHeaderBody_writesFlags : WritesFlags id writeHeaderBody := by
  intro s u hbody
  obtain ⟨-, h⟩ | ⟨-, -, h⟩ | ⟨-, -, h⟩ := writeHeaderBody_cases s
  · cases h.symm.trans hbody
  · cases h.symm.trans hbody
  · cases h.symm.trans hbody; rfl

theorem packBody_writesFlags : WritesFlags id packBody := by
  intro s u hbody
  obtain ⟨-, h⟩ | ⟨e, sub, a, -, h, -⟩ | ⟨bits, -, -, -, -, -, h⟩ := packBody_cases s
  · cases h.symm.trans hbody
  · cases h.symm.trans hbody
  · cases h.symm.trans hbody; rfl

theorem readHeaderBody_writesFlags : WritesFlags (fun (fv, _, _, _) => (fv, false, true, true)) readHeaderBody := by
  intro s u hbody
  obtain ⟨e, sub, a, h, -⟩ | ⟨rs, -, -, -, h⟩ := readHeaderBody_cases s
  · cases h.symm.trans hbody
  · cases h.symm.trans hbody; rfl

theorem unpackBody_writesFlags : WritesFlags id unpackBody := by
  intro s u hbody
  obtain ⟨-, h⟩ | ⟨e, sub, a, -, h, -⟩ | ⟨e, sub, a, -, h, -⟩ | ⟨out, -, -, -, -, -, h⟩ := unpackBody_cases s
  · cases h.symm.trans hbody
  · cases h.symm.trans hbody
  · cases h.symm.trans hbody
  · cases h.symm.trans hbody; rfl

section
variable {f : ValidFlags → ValidFlags} {i : Instr} {body : State → BodyResult} {s t : State}

theorem WritesFlags.runSingle (hbody : WritesFlags f body) (hrun : runSingle i body s = .next t)
    (ht : t.err = false) : t.validFlags = f s.validFlags := by
  obtain ⟨u, h, rfl⟩ := completes_of_runSingle hrun ht
  exact hbody s u h

end

/-- Settles O53: each body writes the flags of its own row, and a composite those of its steps one after the other. -/
theorem validFlagWrites : Obligations.ValidFlagWrites := by
  intro i s t _ hrun ht
  change t.validFlags = _
  cases i with
  | encode =>
    obtain ⟨a, hcount, hrun⟩ := completes_of_runStages hrun ht
    obtain ⟨b, hbuild, hrun⟩ := completes_of_runStages hrun ht
    obtain ⟨c, hgen, hrun⟩ := completes_of_runStages hrun ht
    obtain ⟨d, hheader, hrun⟩ := completes_of_runStages hrun ht
    obtain ⟨e, hpack, hlast⟩ := completes_of_runStages hrun ht
    cases hlast
    change e.validFlags = _
    rw [packBody_writesFlags d e hpack, writeHeaderBody_writesFlags c d hheader, genCodesBody_writesFlags b c hgen,
      buildTreeBody_writesFlags a b hbuild, countBody_writesFlags s a hcount]
    rfl
  | decode =>
    obtain ⟨a, hread, hrun⟩ := completes_of_runStages hrun ht
    obtain ⟨b, hunpack, hlast⟩ := completes_of_runStages hrun ht
    cases hlast
    change b.validFlags = _
    rw [unpackBody_writesFlags a b hunpack, readHeaderBody_writesFlags s a hread]
    rfl
  | count => exact countBody_writesFlags.runSingle hrun ht
  | buildTree => exact buildTreeBody_writesFlags.runSingle hrun ht
  | genCodes => exact genCodesBody_writesFlags.runSingle hrun ht
  | writeHeader => exact writeHeaderBody_writesFlags.runSingle hrun ht
  | pack => exact packBody_writesFlags.runSingle hrun ht
  | readHeader => exact readHeaderBody_writesFlags.runSingle hrun ht
  | unpack => exact unpackBody_writesFlags.runSingle hrun ht
  | clear =>
    cases hrun
    rfl

/-! ### The prerequisites (R206) -/

/-- A completion of the body keeps ERRCODE, and the body raises SEQUENCE only in a state that lacks `flag`. -/
def RaisesSequenceWithout (flag : State → Bool) (body : State → BodyResult) : Prop :=
  ∀ s, (∃ u, body s = .completes u ∧ u.errCode = s.errCode) ∨
    ∃ u e sub a, body s = .raises u e sub a ∧ (e = .sequence → flag s = false)

/-- Every state has it: the flag of the commands without a prerequisite. -/
def noPrerequisite (_ : State) : Bool := true

theorem countBody_raisesSequence : RaisesSequenceWithout noPrerequisite countBody := by
  intro s
  obtain ⟨-, h⟩ | ⟨-, h⟩ := countBody_cases s
  · exact .inr ⟨_, _, _, _, h, nofun⟩
  · exact .inl ⟨_, h, rfl⟩

theorem buildTreeBody_raisesSequence : RaisesSequenceWithout State.fv buildTreeBody := by
  intro s
  obtain ⟨hfv, h⟩ | ⟨-, -, h⟩ | ⟨-, -, h⟩ := buildTreeBody_cases s
  · exact .inr ⟨_, _, _, _, h, fun _ => hfv⟩
  · exact .inr ⟨_, _, _, _, h, nofun⟩
  · exact .inl ⟨_, h, rfl⟩

theorem genCodesBody_raisesSequence : RaisesSequenceWithout State.tv genCodesBody := by
  intro s
  obtain ⟨htv, h⟩ | ⟨x, -, -, h⟩ | ⟨-, -, h⟩ := genCodesBody_cases s
  · exact .inr ⟨_, _, _, _, h, fun _ => htv⟩
  · exact .inr ⟨_, _, _, _, h, nofun⟩
  · exact .inl ⟨_, h, rfl⟩

theorem writeHeaderBody_raisesSequence : RaisesSequenceWithout State.cv writeHeaderBody := by
  intro s
  obtain ⟨hcv, h⟩ | ⟨-, -, h⟩ | ⟨-, -, h⟩ := writeHeaderBody_cases s
  · exact .inr ⟨_, _, _, _, h, fun _ => hcv⟩
  · exact .inr ⟨_, _, _, _, h, nofun⟩
  · exact .inl ⟨_, h, rfl⟩

theorem packBody_raisesSequence : RaisesSequenceWithout State.cv packBody := by
  intro s
  obtain ⟨hcv, h⟩ | ⟨e, sub, a, -, h, hne⟩ | ⟨bits, -, -, -, -, -, h⟩ := packBody_cases s
  · exact .inr ⟨_, _, _, _, h, fun _ => hcv⟩
  · exact .inr ⟨_, _, _, _, h, fun he => absurd he hne⟩
  · exact .inl ⟨_, h, rfl⟩

theorem readHeaderBody_raisesSequence : RaisesSequenceWithout noPrerequisite readHeaderBody := by
  intro s
  obtain ⟨e, sub, a, h, hne⟩ | ⟨rs, -, -, -, h⟩ := readHeaderBody_cases s
  · exact .inr ⟨_, _, _, _, h, fun he => absurd he hne⟩
  · exact .inl ⟨_, h, rfl⟩

theorem unpackBody_raisesSequence : RaisesSequenceWithout State.hv unpackBody := by
  intro s
  obtain ⟨hhv, h⟩ | ⟨e, sub, a, -, h, hne⟩ | ⟨e, sub, a, -, h, hwalk⟩ | ⟨out, -, -, -, -, -, h⟩ := unpackBody_cases s
  · exact .inr ⟨_, _, _, _, h, fun _ => hhv⟩
  · exact .inr ⟨_, _, _, _, h, fun he => absurd he hne⟩
  · refine .inr ⟨_, _, _, _, h, ?_⟩
    obtain rfl | rfl := unpackWalk_failed hwalk <;> exact nofun
  · exact .inl ⟨_, h, rfl⟩

section
variable {s : State}

theorem buildTreeBody_sequence (hfv : s.fv = false) : buildTreeBody s = .raises s .sequence 1 0 := if_pos hfv
theorem genCodesBody_sequence (htv : s.tv = false) : genCodesBody s = .raises s .sequence 2 0 := if_pos htv
theorem writeHeaderBody_sequence (hcv : s.cv = false) : writeHeaderBody s = .raises s .sequence 3 0 := if_pos hcv
theorem packBody_sequence (hcv : s.cv = false) : packBody s = .raises s .sequence 3 0 := if_pos hcv
theorem unpackBody_sequence (hhv : s.hv = false) : unpackBody s = .raises s .sequence 4 0 := if_pos hhv

end

/-- Code 6 is SEQUENCE's alone (R211). -/
theorem CmdErr.eq_sequence_of_code {e : CmdErr} (h : e.code = 6) : e = .sequence := by
  cases e with
  | sequence => rfl
  | _ => exact absurd h (by decide)

section
variable {flag : State → Bool} {i : Instr} {body : State → BodyResult} {s t : State}

/-- A sub-command that sets ERRCODE to SEQUENCE lacks its flag. -/
theorem RaisesSequenceWithout.runSingle (hbody : RaisesSequenceWithout flag body) (hs : s.errCode ≠ 6)
    (hrun : runSingle i body s = .next t) (ht : t.errCode = 6) : flag s = false := by
  obtain ⟨u, h, hu⟩ | ⟨u, e, sub, a, h, hseq⟩ := hbody s
  · cases (runSingle_completes h).symm.trans hrun
    exact absurd (hu.symm.trans ht) hs
  · cases (runSingle_raises h).symm.trans hrun
    exact hseq (CmdErr.eq_sequence_of_code ht)

end

/-- ENCODE never ends with SEQUENCE: each of its steps sets the next one's flag (R206). -/
theorem exec_encode_errCode_ne {s t : State} (hs : s.errCode ≠ 6) (hrun : exec .encode s = .next t) :
    t.errCode ≠ 6 := by
  cases (exec_encode s).symm.trans hrun
  rw [State.encoded]
  split
  · exact (by decide : (7 : Byte) ≠ 6)
  split
  · exact (by decide : (1 : Byte) ≠ 6)
  split
  · exact (by decide : (8 : Byte) ≠ 6)
  split
  · exact (by decide : (8 : Byte) ≠ 6)
  · exact hs

/-- DECODE never ends with SEQUENCE: READ_HEADER sets the flag of UNPACK (R206). -/
theorem exec_decode_errCode_ne {s t : State} (hs : s.errCode ≠ 6) (hrun : exec .decode s = .next t) :
    t.errCode ≠ 6 := by
  intro ht
  obtain ⟨u, hread, hu⟩ | ⟨u, e, sub, a, hread, hseq⟩ := readHeaderBody_raisesSequence s
  · have hhv : u.hv = true := congrArg (fun f => f.2.2.2) (readHeaderBody_writesFlags s u hread)
    replace hrun := (runStages_completes hread _).symm.trans hrun
    obtain ⟨v, hunpack, hv⟩ | ⟨v, e, sub, a, hunpack, hseq⟩ := unpackBody_raisesSequence u
    · cases (runStages_completes hunpack []).symm.trans hrun
      exact hs ((hv.trans hu).symm.trans ht)
    · cases (runStages_raises hunpack []).symm.trans hrun
      exact absurd (hhv.symm.trans (hseq (CmdErr.eq_sequence_of_code ht))) (by decide)
  · cases (runStages_raises hread _).symm.trans hrun
    exact absurd (hseq (CmdErr.eq_sequence_of_code ht)).symm Bool.false_ne_true

/-- Settles O50: the flag is the first check of its five bodies, and no other check raises SEQUENCE. -/
theorem prerequisiteFlags : Obligations.PrerequisiteFlags := by
  intro s
  refine ⟨fun hfv => runSingle_raises (buildTreeBody_sequence hfv),
    fun htv => runSingle_raises (genCodesBody_sequence htv),
    fun hcv => runSingle_raises (writeHeaderBody_sequence hcv), fun hcv => runSingle_raises (packBody_sequence hcv),
    fun hhv => runSingle_raises (unpackBody_sequence hhv), fun i t hs hrun ht => ?onlyThese⟩
  cases i with
  | encode => exact absurd ht (exec_encode_errCode_ne hs hrun)
  | decode => exact absurd ht (exec_decode_errCode_ne hs hrun)
  | count => exact absurd (countBody_raisesSequence.runSingle hs hrun ht).symm Bool.false_ne_true
  | buildTree => exact .inl ⟨rfl, buildTreeBody_raisesSequence.runSingle hs hrun ht⟩
  | genCodes => exact .inr (.inl ⟨rfl, genCodesBody_raisesSequence.runSingle hs hrun ht⟩)
  | writeHeader => exact .inr (.inr (.inl ⟨rfl, writeHeaderBody_raisesSequence.runSingle hs hrun ht⟩))
  | pack => exact .inr (.inr (.inr (.inl ⟨rfl, packBody_raisesSequence.runSingle hs hrun ht⟩)))
  | readHeader => exact absurd (readHeaderBody_raisesSequence.runSingle hs hrun ht).symm Bool.false_ne_true
  | unpack => exact .inr (.inr (.inr (.inr ⟨rfl, unpackBody_raisesSequence.runSingle hs hrun ht⟩)))
  | clear =>
    cases hrun
    exact absurd ht hs

/-! ### Illegal command words (R87, R204) -/

/-- A word with a bit above bit 7, or with an unassigned opcode, is no command's word (R87). -/
theorem exists_decodeError_of_illegal {w : Word}
    (h : 256 ≤ w.toNat ∨ w.toNat ∉ [0x01, 0x02, 0x10, 0x11, 0x12, 0x13, 0x14, 0x20, 0x21, 0x3F]) :
    ∃ e, decode w = .error e := by
  cases hdec : decode w with
  | error e => exact ⟨e, rfl⟩
  | ok i =>
    obtain rfl := decode_eq_ok_iff.1 hdec
    rcases h with hbig | hop
    · exact absurd (toNat_encode_lt i) (Nat.not_lt.2 hbig)
    · exact absurd (mem_opcodes_iff.2 ⟨i, rfl⟩) hop

theorem opcodeField_eq (w : Word) : opcodeField w = w.setWidth 8 := by
  apply BitVec.eq_of_toNat_eq
  rw [opcodeField, BitVec.extractLsb'_toNat, BitVec.toNat_setWidth, Nat.shiftRight_zero]

/-- A BUSY engine with an illegal word in CMD makes the error completion of R204. -/
theorem engineTurn_of_illegalWord {s : State} (hbusy : s.busy = true)
    (h : 256 ≤ s.cmd.toNat ∨ s.cmd.toNat ∉ [0x01, 0x02, 0x10, 0x11, 0x12, 0x13, 0x14, 0x20, 0x21, 0x3F]) :
    engineTurn exec s = .next (failed s 5 0 (s.cmd.setWidth 8) 0) := by
  obtain ⟨e, hdec⟩ := exists_decodeError_of_illegal h
  rw [engineTurn_of_illegal hbusy hdec, execIllegal, opcodeField_eq]
  rfl

/-- Settles O5: the accepted CMD write makes the engine BUSY with the word in CMD, and every BUSY engine with an illegal
word completes with ILLEGAL_CMD. -/
theorem illegalWordCompletesWithError : Obligations.IllegalWordCompletesWithError := by
  refine ⟨fun s w hidle hturns h => ?issued, fun s hbusy h => ⟨fun hturns => ?noTurn, fun ts hturns => ?engine⟩⟩
  case issued =>
    have hissue : s.hostAccess (.write .w32 (.reg 0x04) w) = s.issue w := hostAccess_write_reg hidle (by decide) w
    rw [hissue, step_of_busy_unscheduled (s := s.issue w) hturns rfl, engineTurn_of_illegalWord (s.issue_busy w) h]
    rfl
  case noTurn => rw [step_of_busy_unscheduled hturns hbusy, engineTurn_of_illegalWord hbusy h]
  case engine =>
    rw [step_of_engine hturns]
    exact engineTurn_of_illegalWord (s := { s with turns := ts }) hbusy h

end Sys2Proof.Machine

namespace Sys2Proof.Machine

/-! ### What two machines with one input have in common (R199, R200) -/

/-- The machines agree on the capacities, IN_LEN and the input bytes. -/
def SameInput (s s' : State) : Prop :=
  s.cfg.inCap = s'.cfg.inCap ∧ s.cfg.outCap = s'.cfg.outCap ∧ s.inLen = s'.inLen ∧
    ∀ a, a < s.inLen.toNat → s.inMem.read a = s'.inMem.read a

/-- The machines agree on ERR and the error report. -/
def SameReport (s s' : State) : Prop :=
  s.err = s'.err ∧ s.errCode = s'.errCode ∧ s.errSub = s'.errSub ∧ s.errStage = s'.errStage ∧ s.errAddr = s'.errAddr

/-- The machines agree on the code table, ORDER and the registers that describe them. -/
def SameCodes (s s' : State) : Prop :=
  s.code = s'.code ∧ s.order = s'.order ∧ s.nSym = s'.nSym ∧ s.maxLen = s'.maxLen ∧ s.hdrLen = s'.hdrLen

/-- The machines agree on the output: OUT_LEN, PAD and the bytes below OUT_LEN. -/
def SameOutput (s s' : State) : Prop :=
  s.outLen = s'.outLen ∧ s.pad = s'.pad ∧ ∀ a, a < s.outLen.toNat → s.outMem.read a = s'.outMem.read a

/-- The machines agree on what a command answers: the report, and without an error the codes and the output. -/
def SameAnswer (t t' : State) : Prop :=
  SameReport t t' ∧ (t.err = false → SameCodes t t' ∧ SameOutput t t')

theorem inputBytes_congr {s s' : State} (h : SameInput s s') : s.inputBytes = s'.inputBytes := by
  obtain ⟨-, -, hlen, hbytes⟩ := h
  rw [State.inputBytes, State.inputBytes, ← hlen]
  exact List.map_congr_left fun a ha => hbytes a (List.mem_range.1 ha)

theorem sameAnswer_failed (u u' : State) (code sub stage : Byte) (addr : Word) :
    SameAnswer (failed u code sub stage addr) (failed u' code sub stage addr) :=
  ⟨⟨rfl, rfl, rfl, rfl, rfl⟩, nofun⟩

/-- Memories in which the same bytes were written from offset 0 on read the same below a length that fits a register. -/
theorem read_writeBytes_congr (m m' : Memory) {bs : List Byte} {a : Nat}
    (ha : a < (BitVec.ofNat 32 bs.length).toNat) : (m.writeBytes 0 bs).read a = (m'.writeBytes 0 bs).read a := by
  have hlt : a < bs.length := ha.trans_le ((BitVec.toNat_ofNat ..).trans_le (Nat.mod_le ..))
  exact Memory.read_eq_of_holds (fun i hi => m.read_writeBytes_inside 0 i bs hi)
    (fun i hi => m'.read_writeBytes_inside 0 i bs hi) hlt

/-- A success of ENCODE leaves tables and a stream made of the input alone (R199). -/
theorem streamWritten_sameAnswer {s s' : State} (hxs : s.inputBytes = s'.inputBytes) (hreport : SameReport s s') :
    SameAnswer s.tablesBuilt.streamWritten.complete s'.tablesBuilt.streamWritten.complete := by
  have hnSym : s.tablesBuilt.nSym = s'.tablesBuilt.nSym :=
    congrArg (fun xs => BitVec.ofNat 9 (leavesOf (countTable xs)).length) hxs
  refine ⟨hreport, fun _ => ⟨⟨congrArg codesFor hxs, congrArg orderFor hxs, hnSym, ?maxLen, ?hdrLen⟩,
    ?outLen, ?pad, fun a ha => ?bytes⟩⟩
  case maxLen => exact congrArg (fun xs => BitVec.ofNat 8 (longestCode (codesFor xs))) hxs
  case hdrLen => exact congrArg (fun n : BitVec 9 => BitVec.ofNat 32 (headerLen n.toNat)) hnSym
  case outLen => rw [State.complete_outLen, State.complete_outLen, s.streamWritten_outLen, s'.streamWritten_outLen, hxs]
  case pad => exact congrArg (fun xs => BitVec.ofNat 3 (padCount (bitsOf (codesFor xs) xs))) hxs
  case bytes =>
    rw [State.complete_outLen, s.streamWritten_outLen] at ha
    rw [State.complete_outMem, State.complete_outMem, s.streamWritten_outMem, s'.streamWritten_outMem, ← hxs]
    exact read_writeBytes_congr _ _ ha

/-- ENCODE reads the capacities, IN_LEN and the input bytes alone (R199). -/
theorem encoded_sameAnswer {s s' : State} (hin : SameInput s s') (hreport : SameReport s s') :
    SameAnswer s.encoded s'.encoded := by
  have hxs := inputBytes_congr hin
  obtain ⟨hcap, hout, hlen, -⟩ := hin
  rw [State.encoded, State.encoded, ← hcap, ← hout, ← hlen, ← hxs]
  split
  · exact sameAnswer_failed ..
  split
  · exact sameAnswer_failed ..
  split
  · exact sameAnswer_failed ..
  split
  · exact sameAnswer_failed ..
  · exact streamWritten_sameAnswer hxs hreport

/-! ### Two runs of a composite, step by step -/

/-- Two runs of a body raise one error, or both complete, in states related by `R`. -/
inductive BodiesAgree (R : State → State → Prop) : BodyResult → BodyResult → Prop where
  | completes {t t' : State} : R t t' → BodiesAgree R (.completes t) (.completes t')
  | raises {t t' : State} {e : CmdErr} {sub : Byte} {addr : Word} :
      BodiesAgree R (.raises t e sub addr) (.raises t' e sub addr)

theorem BodiesAgree.ite {R : State → State → Prop} {c : Prop} [Decidable c] {r₁ r₁' r₂ r₂' : BodyResult}
    (h₁ : c → BodiesAgree R r₁ r₁') (h₂ : ¬ c → BodiesAgree R r₂ r₂') :
    BodiesAgree R (if c then r₁ else r₂) (if c then r₁' else r₂') := by
  by_cases hc : c
  · rw [if_pos hc, if_pos hc]; exact h₁ hc
  · rw [if_neg hc, if_neg hc]; exact h₂ hc

/-- Two runs of a composite whose first steps agree answer the same when the rest does from any related states. -/
theorem runStages_sameAnswer {R : State → State → Prop} {i : Instr} {body : State → BodyResult}
    {rest : List (Instr × (State → BodyResult))} {s s' t t' : State} (hbody : BodiesAgree R (body s) (body s'))
    (hrest : ∀ u u', R u u' → runStages rest u = .next t → runStages rest u' = .next t' → SameAnswer t t')
    (hrun : runStages ((i, body) :: rest) s = .next t) (hrun' : runStages ((i, body) :: rest) s' = .next t') :
    SameAnswer t t' := by
  generalize hs : body s = r, hs' : body s' = r' at hbody
  cases hbody with
  | completes hR =>
    exact hrest _ _ hR ((runStages_completes hs rest).symm.trans hrun) ((runStages_completes hs' rest).symm.trans hrun')
  | @raises u u' e sub addr =>
    cases (runStages_raises hs rest).symm.trans hrun
    cases (runStages_raises hs' rest).symm.trans hrun'
    exact sameAnswer_failed { u with outLen := 0 } { u' with outLen := 0 } e.code sub (opcode i) addr

/-! ### DECODE reads its input alone (R200) -/

theorem fieldFrom_congr {rd rd' : Nat → Byte} {a : Nat} (h : ∀ j, j < 16 → rd (a + j) = rd' (a + j)) :
    fieldFrom rd a = fieldFrom rd' a := by
  refine field_ext fun j hj => ?_
  rw [fieldByte_fieldFrom rd a hj, fieldByte_fieldFrom rd' a hj, h j hj]

/-- The record loop reads its records alone. -/
theorem readRecords_congr {rd rd' : Nat → Byte} {n k : Nat} {acc : List (Byte × Code)}
    (h : ∀ a, a < headerLen (k + n) → rd a = rd' a) : readRecords rd n k acc = readRecords rd' n k acc := by
  rw [headerLen, recordByteCount] at h
  induction n generalizing k acc with
  | zero => rfl
  | succ n ih =>
    have hsym : rd (1 + recordByteCount * k) = rd' (1 + recordByteCount * k) := h _ (by rw [recordByteCount]; omega)
    have hfield : fieldFrom rd (1 + recordByteCount * k + 1) = fieldFrom rd' (1 + recordByteCount * k + 1) :=
      fieldFrom_congr fun j hj => h _ (by rw [recordByteCount]; omega)
    have hrest (acc : List (Byte × Code)) : readRecords rd n (k + 1) acc = readRecords rd' n (k + 1) acc :=
      ih fun a ha => h a (by omega)
    simp only [readRecords, hsym, hfield, hrest]

/-- The walk reads its data bits alone. -/
theorem unpackWalk_congr {code : Table Code} {cap : Nat} {bit bit' : Nat → Bool} {addrOf : Nat → Nat} {n j : Nat}
    {p : Code} {out : List Byte} (h : ∀ i, i < j + n → bit i = bit' i) :
    unpackWalk code cap bit addrOf n j p out = unpackWalk code cap bit' addrOf n j p out := by
  induction n generalizing j p out with
  | zero => rfl
  | succ n ih =>
    have hrest (p : Code) (out : List Byte) :
        unpackWalk code cap bit addrOf n (j + 1) p out = unpackWalk code cap bit' addrOf n (j + 1) p out :=
      ih fun i hi => h i (by omega)
    simp only [unpackWalk, h j (by omega), hrest]

/-- The states in which DECODE's second step begins: one input, one report, one table, HV = 1. -/
def SameHeader (s s' : State) : Prop :=
  SameInput s s' ∧ SameReport s s' ∧ SameCodes s s' ∧ s.hv = s'.hv

theorem readHeaderBody_agrees {s s' : State} (hin : SameInput s s') (hreport : SameReport s s') :
    BodiesAgree SameHeader (readHeaderBody s) (readHeaderBody s') := by
  obtain ⟨hcap, hout, hlen, hbytes⟩ := hin
  rw [readHeaderBody, readHeaderBody, ← hcap, ← hlen]
  refine .ite (fun _ => .raises) fun _ => .ite (fun _ => .raises) fun hpos => ?_
  have hcount : s'.inByte 0 = s.inByte 0 := (hbytes 0 (by omega)).symm
  rw [hcount]
  refine .ite (fun _ => .raises) fun hfull => ?_
  have hrecs : readRecords s'.inByte (countOf (s.inByte 0)) 0 [] = readRecords s.inByte (countOf (s.inByte 0)) 0 [] :=
    readRecords_congr fun a ha => (hbytes a (by rw [Nat.zero_add] at ha; omega)).symm
  rw [hrecs]
  cases readRecords s.inByte (countOf (s.inByte 0)) 0 [] with
  | error r => exact .raises
  | ok rs => exact .completes ⟨⟨hcap, hout, rfl, hbytes⟩, hreport, ⟨rfl, rfl, rfl, rfl, rfl⟩, rfl⟩

theorem unpackBody_agrees {s s' : State} (h : SameHeader s s') :
    BodiesAgree (fun t t' => SameReport t t' ∧ SameCodes t t' ∧ SameOutput t t') (unpackBody s) (unpackBody s') := by
  obtain ⟨⟨hcap, hout, hlen, hbytes⟩, hreport, ⟨hcode, horder, hnSym, hmaxLen, hhdr⟩, hhv⟩ := h
  rw [unpackBody, unpackBody, ← hcap, ← hout, ← hlen, ← hcode, ← hhdr, ← hhv]
  refine .ite (fun _ => .raises) fun _ => .ite (fun _ => .raises) fun _ => .ite (fun _ => .raises) fun hshort => ?_
  have hpad : s'.inByte (s.inLen.toNat - 1) = s.inByte (s.inLen.toNat - 1) := (hbytes _ (by omega)).symm
  rw [hpad]
  refine .ite (fun _ => .raises) fun _ => .ite (fun _ => .raises) fun _ => ?_
  have hwalk := unpackWalk_congr (code := s.code) (cap := s.cfg.outCap.toNat)
    (bit := payloadBit s'.inByte s.hdrLen.toNat) (bit' := payloadBit s.inByte s.hdrLen.toNat)
    (addrOf := fun j => s.hdrLen.toNat + j / 8) (p := []) (out := []) (j := 0)
    (n := 8 * (s.inLen.toNat - s.hdrLen.toNat - 1) - (s.inByte (s.inLen.toNat - 1)).toNat) fun i hi => by
      rw [payloadBit, payloadBit, State.inByte, State.inByte, hbytes _ (by omega)]
  rw [hwalk]
  split
  · exact .raises
  · exact .completes ⟨hreport, ⟨rfl, horder, hnSym, hmaxLen, rfl⟩, rfl, rfl, fun a ha => read_writeBytes_congr _ _ ha⟩

/-- Settles O48: what ENCODE leaves is made of its input alone, and each step of DECODE agrees in both runs. -/
theorem compositesReadNoOldTables : Obligations.CompositesReadNoOldTables := by
  intro i s s' t t' w w' hi hinCap houtCap hlen hbytes hrun hrun'
  have hin : SameInput (s.issue w) (s'.issue w') := ⟨hinCap, houtCap, hlen, hbytes⟩
  have hreport : SameReport (s.issue w) (s'.issue w') := ⟨rfl, rfl, rfl, rfl, rfl⟩
  have hsame : SameAnswer t t' := by
    obtain rfl | rfl := hi
    · cases (exec_encode _).symm.trans hrun
      cases (exec_encode _).symm.trans hrun'
      exact encoded_sameAnswer hin hreport
    · refine runStages_sameAnswer (readHeaderBody_agrees hin hreport) (fun u u' hu => ?_) hrun hrun'
      refine runStages_sameAnswer (unpackBody_agrees hu) (fun v v' hv hlast hlast' => ?_)
      obtain ⟨hreport, hresult⟩ := hv
      cases hlast
      cases hlast'
      exact ⟨hreport, fun _ => hresult⟩
  obtain ⟨⟨herr, hcode, hsub, hstage, haddr⟩, hsuccess⟩ := hsame
  refine ⟨herr, hcode, hsub, hstage, haddr, fun ht => ?_⟩
  obtain ⟨⟨hcodes, horder, hnSym, hmaxLen, hhdrLen⟩, houtLen, hpad, hout⟩ := hsuccess ht
  exact ⟨houtLen, hcodes, horder, hnSym, hmaxLen, hhdrLen, hpad, hout⟩

end Sys2Proof.Machine

namespace Sys2Proof.Machine

/-! ### Every command completes (R210, R213, R214, R222) -/

/-- The outcome is a next state with BUSY = 0 and DONE = 1, as after a completion (R213, R214). -/
def CompletesIdle (o : Host.Outcome State Fault Refusal) : Prop :=
  ∃ t, o = .next t ∧ t.busy = false ∧ t.done = true

theorem runSingle_completesIdle (i : Instr) (body : State → BodyResult) (s : State) :
    CompletesIdle (runSingle i body s) := by
  obtain ⟨t, -, h⟩ | ⟨t, e, sub, a, -, h⟩ := runSingle_cases i body s
  · exact ⟨_, h, rfl, rfl⟩
  · exact ⟨_, h, rfl, rfl⟩

theorem runStages_completesIdle (stages : List (Instr × (State → BodyResult))) (s : State) :
    CompletesIdle (runStages stages s) := by
  induction stages generalizing s with
  | nil => exact ⟨_, rfl, rfl, rfl⟩
  | cons stage rest ih =>
    cases hres : stage.2 s with
    | completes u =>
      rw [runStages_completes hres]
      exact ih u
    | raises u e sub a => exact ⟨_, runStages_raises hres rest, rfl, rfl⟩

theorem exec_completesIdle (i : Instr) (s : State) : CompletesIdle (exec i s) := by
  cases i with
  | encode => exact runStages_completesIdle _ s
  | decode => exact runStages_completesIdle _ s
  | clear => exact ⟨_, rfl, rfl, rfl⟩
  | count | buildTree | genCodes | writeHeader | pack | readHeader | unpack =>
    exact runSingle_completesIdle _ _ s

/-- The engine's turn never stops the machine: it waits, runs a command, or completes an illegal word with an error. -/
theorem exists_next_engineTurn (s : State) : ∃ t, engineTurn exec s = .next t := by
  obtain ⟨-, h⟩ | ⟨i, -, -, h⟩ | ⟨e, -, -, h⟩ := engineTurn_cases exec s
  · exact ⟨s, h⟩
  · obtain ⟨t, ht, -⟩ := exec_completesIdle i s
    exact ⟨t, h.trans ht⟩
  · exact ⟨_, h⟩

theorem exists_next_step (s : State) : ∃ t, step s = .next t := by
  obtain ⟨ts, -, h⟩ | ⟨ts, -, h⟩ | ⟨-, -, h⟩ | ⟨-, -, h⟩ := step_cases s
  · rw [h]; exact exists_next_engineTurn _
  · exact ⟨_, h⟩
  · rw [h]; exact exists_next_engineTurn s
  · exact ⟨_, h⟩

/-- Settles O10: both completions leave BUSY = 0 and DONE = 1, and no command changes IE, so `irq` is IE. -/
theorem everyCommandCompletes : Obligations.EveryCommandCompletes := by
  refine ⟨fun i s => ?_, exists_next_step⟩
  obtain ⟨t, hrun, hidle, hdone⟩ := exec_completesIdle i s
  obtain ⟨-, -, hie, -⟩ := commandsKeepTheHostSide i s t hrun
  exact ⟨t, hrun, hidle, hdone, by rw [State.irq, hdone, hie, Bool.true_and]⟩

/-! ### A refused access while BUSY (R220, R248) -/

/-- The state after a refused access that left `v` as the value last read (R67 to R70, R248). -/
def State.afterRefusal (v : Word) (s : State) : State := { s with accErr := true, rdata := v }

/-- A refused access is `afterRefusal`, a read with the value 0 and a write with the value read before. -/
theorem hostAccess_of_refused_eq_afterRefusal {s : State} {a : Access} (h : s.accepts a = false) :
    s.hostAccess a = s.afterRefusal (s.hostAccess a).rdata := by
  rw [hostAccess_of_refused h]
  cases a <;> rfl

/-- The body does the same, but for ACCERR and the value last read, after a refused access. -/
def IgnoresRefusal (body : State → BodyResult) : Prop :=
  ∀ (v : Word) (s : State), body (s.afterRefusal v) = (body s).map (State.afterRefusal v)

section
variable (v : Word) (s : State)

@[simp] theorem State.afterRefusal_cfg : (s.afterRefusal v).cfg = s.cfg := rfl
@[simp] theorem State.afterRefusal_inLen : (s.afterRefusal v).inLen = s.inLen := rfl
@[simp] theorem State.afterRefusal_hdrLen : (s.afterRefusal v).hdrLen = s.hdrLen := rfl
@[simp] theorem State.afterRefusal_code : (s.afterRefusal v).code = s.code := rfl
@[simp] theorem State.afterRefusal_node : (s.afterRefusal v).node = s.node := rfl
@[simp] theorem State.afterRefusal_root : (s.afterRefusal v).root = s.root := rfl
@[simp] theorem State.afterRefusal_inByte : (s.afterRefusal v).inByte = s.inByte := rfl
@[simp] theorem State.afterRefusal_inputBytes : (s.afterRefusal v).inputBytes = s.inputBytes := rfl

end

theorem countBody_ignoresRefusal : IgnoresRefusal countBody :=
  fun _ _ => ite_eq_apply_ite rfl rfl

theorem buildTreeBody_ignoresRefusal : IgnoresRefusal buildTreeBody :=
  fun _ _ => ite_eq_apply_ite rfl (ite_eq_apply_ite rfl rfl)

theorem genCodesBody_ignoresRefusal : IgnoresRefusal genCodesBody := by
  intro v s
  refine ite_eq_apply_ite rfl ?tooLongCheck
  rw [State.afterRefusal_node, State.afterRefusal_root]
  cases tooLongSymbol (treeCodes s.node s.root) <;> rfl

theorem writeHeaderBody_ignoresRefusal : IgnoresRefusal writeHeaderBody :=
  fun _ _ => ite_eq_apply_ite rfl (ite_eq_apply_ite rfl rfl)

theorem packBody_ignoresRefusal : IgnoresRefusal packBody := by
  intro v s
  refine ite_eq_apply_ite rfl (ite_eq_apply_ite rfl (ite_eq_apply_ite rfl ?gather))
  rw [State.afterRefusal_code, State.afterRefusal_inputBytes]
  cases gatherBits s.code 0 s.inputBytes with
  | error i => rfl
  | ok bits => exact ite_eq_apply_ite rfl rfl

theorem readHeaderBody_ignoresRefusal : IgnoresRefusal readHeaderBody := by
  intro v s
  refine ite_eq_apply_ite rfl (ite_eq_apply_ite rfl (ite_eq_apply_ite rfl ?records))
  rw [State.afterRefusal_inByte]
  cases readRecords s.inByte (countOf (s.inByte 0)) 0 [] <;> rfl

theorem unpackBody_ignoresRefusal : IgnoresRefusal unpackBody := by
  intro v s
  refine ite_eq_apply_ite rfl (ite_eq_apply_ite rfl (ite_eq_apply_ite rfl (ite_eq_apply_ite rfl
    (ite_eq_apply_ite rfl ?walk))))
  simp only [State.afterRefusal_cfg, State.afterRefusal_inLen, State.afterRefusal_hdrLen, State.afterRefusal_code,
    State.afterRefusal_inByte]
  split <;> rfl

theorem runSingle_afterRefusal {body : State → BodyResult} (hbody : IgnoresRefusal body) (i : Instr) (v : Word)
    (s : State) : runSingle i body (s.afterRefusal v) = mapNext (State.afterRefusal v) (runSingle i body s) := by
  rw [runSingle, runSingle, hbody v s]
  cases body s <;> rfl

theorem runStages_afterRefusal {stages : List (Instr × (State → BodyResult))}
    (hbodies : ∀ stage ∈ stages, IgnoresRefusal stage.2) (v : Word) (s : State) :
    runStages stages (s.afterRefusal v) = mapNext (State.afterRefusal v) (runStages stages s) := by
  induction stages generalizing s with
  | nil => rfl
  | cons stage rest ih =>
    obtain ⟨hhead, hrest⟩ := List.forall_mem_cons.mp hbodies
    rw [runStages, runStages, hhead v s]
    cases stage.2 s with
    | completes t => exact ih hrest t
    | raises t e sub addr => rfl

/-- Every command but CLEAR, which clears ACCERR (R201), commutes with a refused access. -/
theorem exec_afterRefusal {i : Instr} (hi : i ≠ .clear) (v : Word) (s : State) :
    exec i (s.afterRefusal v) = mapNext (State.afterRefusal v) (exec i s) := by
  cases i with
  | encode =>
    refine runStages_afterRefusal ?_ v s
    simp [countBody_ignoresRefusal, buildTreeBody_ignoresRefusal, genCodesBody_ignoresRefusal,
      writeHeaderBody_ignoresRefusal, packBody_ignoresRefusal]
  | decode =>
    refine runStages_afterRefusal ?_ v s
    simp [readHeaderBody_ignoresRefusal, unpackBody_ignoresRefusal]
  | count => exact runSingle_afterRefusal countBody_ignoresRefusal _ v s
  | buildTree => exact runSingle_afterRefusal buildTreeBody_ignoresRefusal _ v s
  | genCodes => exact runSingle_afterRefusal genCodesBody_ignoresRefusal _ v s
  | writeHeader => exact runSingle_afterRefusal writeHeaderBody_ignoresRefusal _ v s
  | pack => exact runSingle_afterRefusal packBody_ignoresRefusal _ v s
  | readHeader => exact runSingle_afterRefusal readHeaderBody_ignoresRefusal _ v s
  | unpack => exact runSingle_afterRefusal unpackBody_ignoresRefusal _ v s
  | clear => exact absurd rfl hi

/-- Settles O54: every command but CLEAR commutes with the refused access, and CLEAR clears ACCERR after it. -/
theorem refusedAccessLeavesOutcome : Obligations.RefusedAccessLeavesOutcome := by
  intro i s t a hbusy hallowed hrun
  have hrefused : s.accepts a = false := (accepts_eq_false_iff s a).mpr (.inr ⟨hbusy, hallowed⟩)
  generalize hv : (s.hostAccess a).rdata = v
  rw [hostAccess_of_refused_eq_afterRefusal hrefused, hv]
  by_cases hi : i = .clear
  · subst hi
    cases hrun
    rfl
  · rw [exec_afterRefusal hi, hrun, bne_iff_ne.mpr hi]
    rfl

/-! ### Command issue (R212) -/

/-- Settles O9: the accepted write of CMD is `issue`, and the engine's turn then runs the word in CMD. -/
theorem commandIssue : Obligations.CommandIssue := by
  intro s w hidle
  have hissue : s.hostAccess (.write .w32 (.reg 0x04) w) = s.issue w := hostAccess_write_reg hidle (by decide) w
  rw [hissue]
  refine ⟨rfl, rfl, fun i ts hdec => ?_⟩
  rw [step_of_engine rfl]
  exact engineTurn_of_legal rfl hdec

/-! ### IN_LEN above IN_CAP (R34, R211, R219) -/

section
variable {s : State} (hlong : s.cfg.inCap.toNat < s.inLen.toNat)
include hlong

theorem countBody_length : countBody s = .raises s .length 0 0 := if_pos hlong

theorem readHeaderBody_length : readHeaderBody s = .raises s .length 0 0 := if_pos hlong

theorem packBody_length (hcv : s.cv = true) : packBody s = .raises s .length 0 0 := by
  rw [packBody, if_neg (by simp [hcv]), if_pos hlong]

theorem unpackBody_length (hhv : s.hv = true) : unpackBody s = .raises s .length 0 0 := by
  rw [unpackBody, if_neg (by simp [hhv]), if_pos hlong]

end

/-- Settles O51: the check of IN_LEN is the first of COUNT and READ_HEADER, the first steps of the composites, and comes
right after that of the flag in PACK and UNPACK. -/
theorem lengthErrors : Obligations.LengthErrors := fun _ hlong =>
  ⟨runSingle_raises (countBody_length hlong), runSingle_raises (readHeaderBody_length hlong),
    fun hcv => runSingle_raises (packBody_length hlong hcv), fun hhv => runSingle_raises (unpackBody_length hlong hhv),
    runStages_raises (countBody_length hlong) _, runStages_raises (readHeaderBody_length hlong) _⟩

end Sys2Proof.Machine

namespace Sys2Proof.Machine

/-! ### A BUSY engine becomes IDLE (R220, R240, R253) -/

theorem regWrite_turns (s : State) (off : Byte) (v : Word) : (s.regWrite off v).turns = s.turns := by
  obtain h | h | h | h | h | h | h | h := regWrite_cases s off v
  all_goals simp [h]

theorem hostAccess_turns (s : State) (a : Access) : (s.hostAccess a).turns = s.turns := by
  obtain ⟨-, w, p, -, h⟩ | ⟨-, w, p, v, -, h⟩ | ⟨-, w, p, -, h⟩ | ⟨-, w, p, v, -, h⟩ := hostAccess_cases s a
  · rw [h]
  · rw [h]
    cases p with
    | reg off => exact regWrite_turns s off v
    | inp a | out a => rfl
  · rw [h]
  · rw [h]

/-- The host's turn, reset input included, takes no further turn off the schedule. -/
theorem hostTurn_turns (s : State) : s.hostTurn.turns = s.turns := by
  obtain ⟨-, h⟩ | ⟨a, rest, h⟩ | h | ⟨rest, h⟩ | ⟨rest, -, h⟩ := hostTurn_cases s
  · rw [h]
  · rw [h]; exact hostAccess_turns _ a
  · rw [h]; exact hostAccess_turns s _
  · rw [h]
  · rw [h]; rfl

/-- A BUSY engine's turn completes: the command in CMD, or an illegal word with its error (R204, R213, R214). -/
theorem engineTurn_completesIdle {s : State} (hbusy : s.busy = true) : CompletesIdle (engineTurn exec s) := by
  cases hdec : decode s.cmd with
  | ok i =>
    rw [engineTurn_of_legal hbusy hdec]
    exact exec_completesIdle i s
  | error e =>
    rw [engineTurn_of_illegal hbusy hdec]
    exact ⟨_, rfl, rfl, rfl⟩

/-- The machine is IDLE after at most `n` steps from `s`. -/
def IdleWithin (n : Nat) (s : State) : Prop := ∃ k t, k ≤ n ∧ RunsTo k s t ∧ t.busy = false

theorem idleWithin_of_idle {s : State} (hidle : s.busy = false) (n : Nat) : IdleWithin n s :=
  ⟨0, s, n.zero_le, .zero s, hidle⟩

theorem IdleWithin.of_step {n : Nat} {s u : State} (hstep : step s = .next u) (h : IdleWithin n u) :
    IdleWithin (n + 1) s := by
  obtain ⟨k, t, hk, hrun, hidle⟩ := h
  exact ⟨k + 1, t, Nat.succ_le_succ hk, .of_step hstep hrun, hidle⟩

/-- A step that is a BUSY engine's turn ends IDLE. -/
theorem idleWithin_of_engineTurn {s u : State} (hbusy : u.busy = true) (hstep : step s = engineTurn exec u) (n : Nat) :
    IdleWithin (n + 1) s := by
  obtain ⟨t, ht, hidle, -⟩ := engineTurn_completesIdle hbusy
  exact .of_step (hstep.trans ht) (idleWithin_of_idle hidle n)

/-- Settles O6, by induction on the turns given: an engine's turn completes the command, a host's turn (which may reset
the block) leaves a shorter schedule, and with no turn given a BUSY engine moves. -/
theorem busyEngineBecomesIdle : Obligations.BusyEngineBecomesIdle := by
  intro s hbusy
  change IdleWithin (s.turns.length + 1) s
  induction hturns : s.turns generalizing s with
  | nil => exact idleWithin_of_engineTurn hbusy (step_of_busy_unscheduled hturns hbusy) 0
  | cons agent ts ih =>
    cases agent with
    | engine => exact idleWithin_of_engineTurn (u := { s with turns := ts }) hbusy (step_of_engine hturns) _
    | host =>
      refine .of_step (step_of_host hturns) ?afterHost
      generalize hu : State.hostTurn { s with turns := ts } = u
      have hrest : u.turns = ts := hu ▸ hostTurn_turns _
      cases hb : u.busy with
      | false => exact idleWithin_of_idle hb _
      | true => exact ih u hb hrest

/-! ### Accesses while BUSY (R248) -/

theorem accepts_of_allowedWhileBusy {a : Access} (h : allowedWhileBusy a) (s : State) : s.accepts a = true := by
  obtain ⟨hform, hbusy⟩ := (allowedWhileBusy_iff s.cfg a).mp h
  rw [State.accepts, hform, hbusy, Bool.or_true, Bool.and_true]

/-- Settles O12: the refused accesses are those not allowed while BUSY, and the allowed ones are accepted in every
phase. -/
theorem busyAccessRule : Obligations.BusyAccessRule := by
  intro s a hbusy
  refine ⟨?refused, ?reads, hostAccess_write_status s, ?irqEn⟩
  case refused =>
    exact fun hnot => hostAccess_of_refused ((accepts_eq_false_iff s a).mpr (.inr ⟨hbusy, hnot⟩))
  case reads =>
    intro off hallowed
    rw [State.hostAccess, if_pos (accepts_of_allowedWhileBusy hallowed s), State.readValue]
  case irqEn =>
    intro v
    have hallowed : allowedWhileBusy (.write .w32 (.reg 0x0C) v) := .inr rfl
    rw [State.hostAccess, if_pos (accepts_of_allowedWhileBusy hallowed s)]
    rfl

/-! ### Reset (R52, R64, R240, R241) -/

theorem statusWord_powerOn (cfg : Config) : (State.powerOn cfg).statusWord = 0 := by
  simp [State.statusWord, State.irq, State.powerOn, flagBit]

theorem errInfoWord_powerOn (cfg : Config) : (State.powerOn cfg).errInfoWord = 0 := by
  simp [State.errInfoWord, State.powerOn]

/-- At reset every register reads 0 but ID and the two capacities; reserved offsets read 0 as always (R51, R241). -/
theorem regRead_powerOn (cfg : Config) {off : Byte} (hoff : off.toNat ∉ [0x00, 0x50, 0x54]) :
    (State.powerOn cfg).regRead off = 0 := by
  simp only [List.mem_cons, List.not_mem_nil, or_false, not_or] at hoff
  unfold State.regRead
  split
  any_goals omega
  case h_3 => exact statusWord_powerOn cfg
  case h_11 => exact errInfoWord_powerOn cfg
  all_goals simp [State.powerOn, fieldOf, flagBit]

/-- Settles O7: the registers and the flags are the fields of `powerOn`, the tables are constant. -/
theorem resetStateValues : Obligations.ResetStateValues := by
  refine ⟨statusWord_powerOn _, rfl, rfl, rfl, rfl, rfl, rfl, rfl, rfl, rfl, errInfoWord_powerOn _, rfl, rfl, rfl, rfl,
    rfl, fun x => ?tables, rfl⟩
  case tables => exact ⟨tblGet_replicate 0 x, tblGet_replicate [] x, tblGet_replicate 0 x⟩

/-- Settles O8: the reset state is that of `powerOn` with both memories of draws not made before, so every register
reads as after power-on. -/
theorem hardResetFromAnyState : Obligations.HardResetFromAnyState := by
  intro s rest hinputs
  have hreset : s.hostTurn = State.hardReset { s with inputs := rest } := by rw [State.hostTurn, hinputs]
  refine ⟨_, hreset, rfl, statusWord_powerOn s.cfg, rfl, fun off h4 h50 h54 => ?registers, le_rfl,
    Nat.lt_succ_self _, Nat.lt_succ_self _, fun a => ⟨Memory.read_unspecified _ a, Memory.read_unspecified _ a⟩⟩
  case registers =>
    have hoff : off.toNat ∉ [0x00, 0x50, 0x54] := by
      simp only [List.mem_cons, List.not_mem_nil, or_false]
      omega
    exact regRead_powerOn s.cfg hoff

/-- Settles O49: the soft reset sets each field that `powerOn` sets but those the statement names, and with no error
report left STATUS has only DONE and, with IE = 1, the interrupt bit. -/
theorem clearIsSoftReset : Obligations.ClearIsSoftReset := by
  intro s
  refine ⟨_, rfl, rfl, fun herr hcode => ?status⟩
  cases hie : s.ie <;>
    simp [State.statusWord, State.irq, State.softReset, State.clearFlags, flagBit, herr, hcode, hie]

theorem flagsOk_powerOn (cfg : Config) : FlagsOk (State.powerOn cfg) := ⟨nofun, nofun, nofun, Nat.zero_le _⟩

/-- Both memories start unwritten, each of a draw of its own (R52, R64). -/
theorem memoriesOk_powerOn {cfg : Config} (hcfg : cfg.wellFormed = true) : MemoriesOk (State.powerOn cfg) :=
  ⟨hcfg, Memory.wf_unspecified 0, Memory.wf_unspecified 1, nofun, nofun, Nat.zero_lt_two, Nat.one_lt_two,
    Nat.zero_ne_one⟩

/-- No valid flag is set at reset. -/
theorem tablesOk_powerOn (cfg : Config) : TablesOk (State.powerOn cfg) := ⟨nofun, nofun⟩

/-- Settles O56: `powerOn` meets each invariant with legal parameters, and those of `State.reset` are legal (R10). -/
theorem resetMeetsInvariants : Obligations.ResetMeetsInvariants := by
  have hcfg : Config.vectors.wellFormed = true := by decide
  exact ⟨flagsOk_powerOn _, memoriesOk_powerOn hcfg, registersOk_powerOn _, tablesOk_powerOn _⟩

end Sys2Proof.Machine
